-- ==== Sys2Proof/Word.lean ====
section
/-! DEFINITION. The word types of the block: a byte (00_scope.md R8), a 32-bit header integer, a cache slot number.
The arithmetic on them that a rule gives (wrap8, s8, bit fields) stands in Decode.lean and Machine/Operands.lean. -/

namespace Sys2Proof

/-- A byte, an integer in 0..255 (00_scope.md R8). -/
abbrev Byte := BitVec 8

/-- A 32-bit unsigned integer: width or height (00_scope.md R6, R8). -/
abbrev Word32 := BitVec 32

/-- The number of one of the 64 cache slots (00_scope.md R6; 40_cache_hash.md R140). -/
abbrev Slot := BitVec 6

end Sys2Proof
end

