-- ==== Sys2Proof/Config.lean ====
section
/-! DEFINITION. The implementation parameters of 00_scope.md R7, as plain data that State carries (notes/assumptions/1.md),
and the free values: constants without a body, of which nothing can be proved (notes/assumptions/5.md and 6.md). -/

namespace Sys2Proof

/-- The two assignments of the full-byte tags that 00_scope.md R7 allows: the two values are distinct and are 0xFE and 0xFF.
`source` is the default (TAG_RGB = 0xFF, TAG_RGBA = 0xFE); `swapped` is the other one (90_conflicts.md C1). -/
inductive TagAssignment where
  | source
  | swapped
deriving DecidableEq, Repr

/-- TRAILING_POLICY (00_scope.md R7; 92_eei_decisions.md D12): what the decoder does with bytes after the end marker. -/
inductive TrailingPolicy where
  | ignore
  | reject
deriving DecidableEq, Repr

/-- The parameters of 00_scope.md R7 (BUS_BINDING apart, which 00_scope.md R5 leaves out). -/
structure Config where
  /-- MAGIC; its length is MAGIC_LEN (30_encoding.md R102). -/
  magic : List Byte
  /-- TAG_RGB and TAG_RGBA (92_eei_decisions.md D4). -/
  tags : TagAssignment
  /-- ENC_CACHE_ON_RUN (92_eei_decisions.md D7). -/
  encCacheOnRun : Bool
  /-- TRAILING_POLICY (92_eei_decisions.md D12). -/
  trailing : TrailingPolicy
  /-- MAX_PIXELS; `none` is the spec's NONE (92_eei_decisions.md D14). -/
  maxPixels : Option Nat
  /-- LEN_WIDTH; `none` is the spec's UNBOUNDED (92_eei_decisions.md D29). -/
  lenWidth : Option Nat
  /-- N_ENC (92_eei_decisions.md D32). -/
  nEnc : Nat
  /-- N_DEC (92_eei_decisions.md D32). -/
  nDec : Nat
deriving DecidableEq, Repr

/-- The defaults of 00_scope.md R7: "this spec's configuration". -/
def Config.standard : Config :=
  { magic := [0x71, 0x6F, 0x69, 0x66], tags := .source, encCacheOnRun := true, trailing := .ignore,
    maxPixels := none, lenWidth := none, nEnc := 1, nDec := 1 }

/-- Free value: what the `n`-th draw of a register value returns to the host, where the spec says "unspecified"
(10_state.md R48, R61; 93_implementation_defined.md U3, U6). DESIGN CHOICE of the form, safe (notes/assumptions/5.md). -/
opaque Config.freeNat : Nat → Nat

/-- Free value: what the `n`-th draw of a buffer byte returns to the host, where the spec says "unspecified"
(20_memory.md R77; 93_implementation_defined.md U2). DESIGN CHOICE of the form, safe (notes/assumptions/5.md). -/
opaque Config.freeByte : Nat → Byte

/-- Free value: the byte at `addr` of the `n`-th stream drawn for a decode whose input bytes the spec leaves open
(20_memory.md R82, R83; 93_implementation_defined.md U2). DESIGN CHOICE of the form, safe (notes/assumptions/14.md). -/
opaque Config.freeStreamByte : (n addr : Nat) → Byte

/-- Free value: what a length register of `width` bits holds after a `value` that does not fit was put in it
(92_eei_decisions.md D29 gives no result). DESIGN CHOICE of the form, safe (notes/assumptions/6.md). -/
opaque Config.lenOverflow : (width value : Nat) → Nat

end Sys2Proof
end

