-- ==== Sys2Proof/Syntax.lean ====
section
/-! DEFINITION. The instructions of the block: the six chunks of the stream grammar (30_encoding.md R107 to R114), one
constructor per row of the opcode table, with the operands of the textual syntax of 30_encoding.md R121. -/

namespace Sys2Proof

/-- A chunk. Deltas are signed and run lengths are the length itself, as in 30_encoding.md R121; `wellFormed` says
which operand values an encoding exists for. -/
inductive Instr where
  /-- INDEX i: the pixel in cache slot i (30_encoding.md R109). -/
  | index (i : Slot)
  /-- DIFF dr, dg, db: small deltas to the previous pixel (30_encoding.md R110). -/
  | diff (dr dg db : Int)
  /-- LUMA dg, dr_dg, db_dg: a green delta, and red and blue deltas relative to it (30_encoding.md R111). -/
  | luma (dg drDg dbDg : Int)
  /-- RUN n: the previous pixel n times (30_encoding.md R112). -/
  | run (n : Nat)
  /-- RGB r, g, b: raw colour, alpha kept (30_encoding.md R113). -/
  | rgb (r g b : Byte)
  /-- RGBA r, g, b, a: raw colour and alpha (30_encoding.md R114). -/
  | rgba (r g b a : Byte)
deriving DecidableEq, Repr

end Sys2Proof
end

