-- ==== Sys2Proof/WellFormed.lean ====
section
/-! DEFINITION. Which instructions have an encoding: the operand ranges of 30_encoding.md R109 to R112 and R121. -/

namespace Sys2Proof

/-- `lo ≤ x ≤ hi`, as a check. -/
def inRange (lo hi x : Int) : Bool := decide (lo ≤ x) && decide (x ≤ hi)

/-- A DIFF delta lies in -2..1 (30_encoding.md R110). -/
def diffDeltaOk (x : Int) : Bool := inRange (-2) 1 x

/-- A LUMA green delta lies in -32..31 (30_encoding.md R111). -/
def lumaGreenOk (x : Int) : Bool := inRange (-32) 31 x

/-- A LUMA relative delta lies in -8..7 (30_encoding.md R111). -/
def lumaRelativeOk (x : Int) : Bool := inRange (-8) 7 x

/-- A run length lies in 1..62 (30_encoding.md R112). -/
def runLengthOk (n : Nat) : Bool := decide (1 ≤ n) && decide (n ≤ 62)

/-- The instruction has an encoding. INDEX, RGB and RGBA operands are bit fields, every value of which is legal
(30_encoding.md R117). -/
def Instr.wellFormed : Instr → Bool
  | .index _ => true
  | .diff dr dg db => diffDeltaOk dr && diffDeltaOk dg && diffDeltaOk db
  | .luma dg drDg dbDg => lumaGreenOk dg && lumaRelativeOk drDg && lumaRelativeOk dbDg
  | .run n => runLengthOk n
  | .rgb _ _ _ => true
  | .rgba _ _ _ _ => true

end Sys2Proof
end

