-- ==== Sys2Proof/Decode.lean ====
section
/-! DEFINITION. The chunk grammar: the type and length of a chunk from its first byte (30_encoding.md R107, R116), the
decoder of chunks and, after it, the encoder, both from the formats of 30_encoding.md R109 to R114; the end marker and
the header (R101, R115); and the host's view of an instruction as one number. -/

namespace Sys2Proof

/-- TAG_RGB (00_scope.md R7). -/
def tagRgb : TagAssignment → Byte
  | .source => 0xFF
  | .swapped => 0xFE

/-- TAG_RGBA (00_scope.md R7). -/
def tagRgba : TagAssignment → Byte
  | .source => 0xFE
  | .swapped => 0xFF

/-- The six chunk types of 30_encoding.md R107. -/
inductive ChunkKind where
  | index
  | diff
  | luma
  | run
  | rgb
  | rgba
deriving DecidableEq, Repr

/-- The chunk type selected by the first byte, in the priority order of 30_encoding.md R107. -/
def chunkKind (t : TagAssignment) (b : Byte) : ChunkKind :=
  if b = tagRgb t then .rgb
  else if b = tagRgba t then .rgba
  else if b.extractLsb' 6 2 = 0#2 then .index
  else if b.extractLsb' 6 2 = 1#2 then .diff
  else if b.extractLsb' 6 2 = 2#2 then .luma
  else .run

/-- The chunk length from the first byte, as 30_encoding.md R116 states it. -/
def chunkLen (t : TagAssignment) (b : Byte) : Nat :=
  if b = tagRgb t then 4
  else if b = tagRgba t then 5
  else if b.extractLsb' 6 2 = 2#2 then 2
  else 1

/-- The unsigned field of `len` bits from bit `lo` of `b`, less its bias (30_encoding.md R110, R111). -/
def biasedField (b : Byte) (lo len : Nat) (bias : Int) : Int :=
  ((b.extractLsb' lo len).toNat : Int) - bias

/-- Why bytes are no chunk. 30_encoding.md R117: the only malformed chunk is an incomplete one. -/
inductive DecodeError where
  /-- There is no byte at all (42_decoder.md R206, first check). -/
  | noBytes
  /-- The bytes end inside the chunk (42_decoder.md R206, second check). -/
  | incomplete
deriving DecidableEq, Repr

/-- Reads one chunk off the front of `bs` and gives the bytes after it (30_encoding.md R107 to R116). -/
def decode (t : TagAssignment) : List Byte → Except DecodeError (Instr × List Byte)
  | [] => .error .noBytes
  | b :: rest =>
    match chunkKind t b with
    | .index => .ok (.index (b.extractLsb' 0 6), rest)
    | .diff => .ok (.diff (biasedField b 4 2 2) (biasedField b 2 2 2) (biasedField b 0 2 2), rest)
    | .luma =>
      match rest with
      | b1 :: rest => .ok (.luma (biasedField b 0 6 32) (biasedField b1 4 4 8) (biasedField b1 0 4 8), rest)
      | _ => .error .incomplete
    | .run => .ok (.run ((b.extractLsb' 0 6).toNat + 1), rest)
    | .rgb =>
      match rest with
      | r :: g :: bl :: rest => .ok (.rgb r g bl, rest)
      | _ => .error .incomplete
    | .rgba =>
      match rest with
      | r :: g :: bl :: a :: rest => .ok (.rgba r g bl a, rest)
      | _ => .error .incomplete

/-- The bytes of a chunk, first byte first; `++` on bit vectors puts its left part in the higher bits, so each byte is
written from bit 7 down (30_encoding.md R109 to R114; 00_scope.md R9). -/
def encode (t : TagAssignment) : Instr → List Byte
  | .index i => [0#2 ++ i]
  | .diff dr dg db => [1#2 ++ BitVec.ofInt 2 (dr + 2) ++ BitVec.ofInt 2 (dg + 2) ++ BitVec.ofInt 2 (db + 2)]
  | .luma dg drDg dbDg => [2#2 ++ BitVec.ofInt 6 (dg + 32), BitVec.ofInt 4 (drDg + 8) ++ BitVec.ofInt 4 (dbDg + 8)]
  | .run n => [3#2 ++ BitVec.ofNat 6 (n - 1)]
  | .rgb r g b => [tagRgb t, r, g, b]
  | .rgba r g b a => [tagRgba t, r, g, b, a]

/-- END_MARKER (30_encoding.md R115). -/
def endMarker : List Byte := [0, 0, 0, 0, 0, 0, 0, 1]

/-- `be32(v)`: the four bytes of a 32-bit integer, most significant first (20_memory.md R73; 41_encoder.md R162). -/
def be32 (v : Word32) : List Byte :=
  [v.extractLsb' 24 8, v.extractLsb' 16 8, v.extractLsb' 8 8, v.extractLsb' 0 8]

/-- The 32-bit integer of four bytes, most significant first (42_decoder.md R202). -/
def ofBe32 (b3 b2 b1 b0 : Byte) : Word32 := b3 ++ b2 ++ b1 ++ b0

/-- MAGIC_LEN (00_scope.md R7). -/
def magicLen (c : Config) : Nat := c.magic.length

/-- HDR_LEN = MAGIC_LEN + 10 (30_encoding.md R106). -/
def hdrLen (c : Config) : Nat := magicLen c + 10

/-- The header bytes (30_encoding.md R101). -/
def headerBytes (c : Config) (w h : Word32) (ch cs : Byte) : List Byte :=
  c.magic ++ be32 w ++ be32 h ++ [ch, cs]

/-- The longest chunk is five bytes (30_encoding.md R116). -/
def maxChunkLen : Nat := 5

/-- The bytes of an instruction that the host gives as one number: byte `k` is bits `8k+7 .. 8k`, and every bit from
`nbits` up is 0. -/
def tableBytes (nbits w : Nat) : List Byte :=
  (List.range maxChunkLen).map fun k => BitVec.ofNat 8 (w % 2 ^ nbits / 2 ^ (8 * k))

/-- The instruction the decoder reads from the opcode table's bits, with the default tags (00_scope.md R7). -/
def decodeTableWord (nbits w : Nat) : Option Instr :=
  match decode Config.standard.tags (tableBytes nbits w) with
  | .ok (i, _) => some i
  | .error _ => none

end Sys2Proof
end

