-- ==== Sys2Proof/Machine/State.lean ====
section
/-! DEFINITION. The state of the block as plain data (10_state.md), the moves of its agents, the reasons a step can stop,
and the state right after reset (10_state.md R60; 70_reset_and_hazards.md R280). -/

namespace Sys2Proof.Machine

/-- A Pixel: four bytes (00_scope.md R11). -/
structure Pixel where
  r : Byte
  g : Byte
  b : Byte
  a : Byte
deriving DecidableEq, Repr

/-- PHASE (10_state.md R31); its 2-bit code is `phaseCode` in Flags.lean. -/
inductive Phase where
  | idle
  | busy
  | done
  | error
deriving DecidableEq, Repr

/-- The stage register (10_state.md R38, R46). -/
inductive Stage where
  | init
  | body
deriving DecidableEq, Repr

/-- The error codes 0..8 of 60_exceptions.md R250; 9..15 are never produced. The number is `errCode` in Flags.lean. -/
inductive ErrCode where
  | none
  | shapeMismatch
  | truncatedHeader
  | invalidChannelOrColorspace
  | truncatedStream
  | missingEndMarker
  | badMagic
  | invalidDimensions
  | trailingBytes
deriving DecidableEq, Repr

/-- A color cache: 64 slots of one Pixel each (10_state.md R37, R45). -/
abbrev Cache := Vector Pixel 64

/-- The contents of a byte buffer (20_memory.md R70): (address, byte) pairs in the canonical form `Memory.wf`. -/
abbrev Memory := List Host.Cell

/-- An encoder engine: interface registers (10_state.md R48), internal registers (R31 to R39) and its two buffers
(20_memory.md R70). -/
structure Encoder where
  /-- PHASE (R31). -/
  phase : Phase
  /-- e.err, shown in STATUS.ERR (R39, R50). -/
  err : ErrCode
  /-- e.stage (R38). -/
  stage : Stage
  /-- ENC_WIDTH (R48). -/
  regWidth : Word32
  /-- ENC_HEIGHT (R48). -/
  regHeight : Word32
  /-- ENC_CHANNELS (R48). -/
  regChannels : Byte
  /-- ENC_COLORSPACE (R48). -/
  regColorspace : Byte
  /-- ENC_IN_LEN (R48, R52). -/
  regInLen : Nat
  /-- ENC_OUT_LEN (R48, R52). -/
  outLen : Nat
  /-- e.W (R32). -/
  w : Word32
  /-- e.H (R32). -/
  h : Word32
  /-- e.CH (R32). -/
  ch : Byte
  /-- e.CS (R32). -/
  cs : Byte
  /-- e.IN_LEN (R32). -/
  inLen : Nat
  /-- e.N (R32). -/
  n : Nat
  /-- e.pix (R33). -/
  pix : Nat
  /-- e.opos (R34). -/
  opos : Nat
  /-- e.prev (R35). -/
  prev : Pixel
  /-- e.run (R36). -/
  run : BitVec 6
  /-- e.cache (R37). -/
  cache : Cache
  /-- ENC_IN (20_memory.md R70). -/
  input : Memory
  /-- ENC_OUT (20_memory.md R70). -/
  output : Memory
  /-- The host has read ENC_STATUS with PHASE = DONE since the last START (20_memory.md R82;
  notes/assumptions/22.md). -/
  observed : Bool
deriving DecidableEq, Repr

/-- A decoder engine: interface registers (10_state.md R53), internal registers (R31, R40 to R46) and its two buffers
(20_memory.md R70). -/
structure Decoder where
  /-- PHASE (R31). -/
  phase : Phase
  /-- d.err, shown in STATUS.ERR (R46, R55). -/
  err : ErrCode
  /-- d.stage (R46). -/
  stage : Stage
  /-- DEC_IN_LEN (R53, R56). -/
  regInLen : Nat
  /-- DEC_WIDTH (R53, R57). -/
  outWidth : Word32
  /-- DEC_HEIGHT (R53, R57). -/
  outHeight : Word32
  /-- DEC_CHANNELS (R53, R57). -/
  outChannels : Byte
  /-- DEC_COLORSPACE (R53, R57). -/
  outColorspace : Byte
  /-- DEC_OUT_LEN (R53, R57). -/
  outLen : Nat
  /-- DEC_CONSUMED (R53, R57). -/
  consumed : Nat
  /-- d.IN_LEN (R40). -/
  inLen : Nat
  /-- d.W (R40). -/
  w : Word32
  /-- d.H (R40). -/
  h : Word32
  /-- d.CH (R40). -/
  ch : Byte
  /-- d.CS (R40). -/
  cs : Byte
  /-- d.N (R40). -/
  n : Nat
  /-- d.prev (R41). -/
  prev : Pixel
  /-- d.run (R42). -/
  run : BitVec 6
  /-- d.pos (R43). -/
  pos : Nat
  /-- d.pix (R44). -/
  pix : Nat
  /-- d.cache (R45). -/
  cache : Cache
  /-- The decoder's own memory for DEC_IN (20_memory.md R70). -/
  input : Memory
  /-- Which memory DEC_IN names: `some k` is ENC_OUT of encoder `k`, `none` the decoder's own (20_memory.md R86). -/
  inputFrom : Option Nat
  /-- The model's own: `some n` while the running decode reads a stream whose bytes the spec leaves open, the `n`-th one
  drawn; `none` while it reads the memory that DEC_IN names (notes/assumptions/14.md). -/
  openStream : Option Nat
  /-- DEC_OUT (20_memory.md R70). -/
  output : Memory
  /-- The host has read DEC_STATUS with PHASE = DONE since the last START (20_memory.md R82;
  notes/assumptions/22.md). -/
  observed : Bool
deriving DecidableEq, Repr

/-- A byte buffer of an engine (20_memory.md R70); `k` is the number of the engine. -/
inductive Buffer where
  | encIn (k : Nat)
  | encOut (k : Nat)
  | decIn (k : Nat)
  | decOut (k : Nat)
deriving DecidableEq, Repr

/-- A move of the host (10_state.md R30; 00_scope.md R14). -/
inductive HostAction where
  /-- Asserts RESET (70_reset_and_hazards.md R280). -/
  | assertReset
  /-- Writes register `reg` of encoder `k` (10_state.md R48). -/
  | writeEncReg (k reg value : Nat)
  /-- Reads register `reg` of encoder `k` (10_state.md R48). -/
  | readEncReg (k reg : Nat)
  /-- Writes register `reg` of decoder `k` (10_state.md R53). -/
  | writeDecReg (k reg value : Nat)
  /-- Reads register `reg` of decoder `k` (10_state.md R53). -/
  | readDecReg (k reg : Nat)
  /-- Writes bytes to a buffer from an address up (20_memory.md R70, R71). -/
  | writeBuffer (buf : Buffer) (addr : Nat) (bytes : List Byte)
  /-- Reads bytes of a buffer (20_memory.md R70, R71). -/
  | readBuffer (buf : Buffer) (addr len : Nat)
  /-- Copies the stream encoder `k` produced to the start of the input of decoder `j` (20_memory.md R86). -/
  | copyStream (k j : Nat)
  /-- Names the memory that DEC_IN of decoder `j` is: `some k` the memory of ENC_OUT of encoder `k`, `none` the
  decoder's own (20_memory.md R86). -/
  | nameInput (j : Nat) (source : Option Nat)
deriving DecidableEq, Repr

/-- What moves next (10_state.md R30): an engine takes its next step, or the host makes a move.
DESIGN CHOICE, safe: the interleaving of the agents is data (notes/assumptions/4.md). -/
inductive Move where
  | enc (k : Nat)
  | dec (k : Nat)
  | host (a : HostAction)
deriving DecidableEq, Repr

/-- The whole system: N_ENC encoders, N_DEC decoders (60_exceptions.md R268) and the fields of the model's own. -/
structure State where
  /-- The parameters of 00_scope.md R7; no step changes them. -/
  cfg : Config
  /-- The encoder engines. -/
  encs : List Encoder
  /-- The decoder engines. -/
  decs : List Decoder
  /-- The model's own: the decoder whose step is being taken (notes/assumptions/13.md). -/
  cur : Nat
  /-- The model's own: the moves to come, first one first (notes/assumptions/4.md). -/
  agenda : List Move
  /-- The model's own: how many free values were drawn (notes/assumptions/5.md). -/
  draws : Nat
  /-- The model's own: what the host's last register read returned (notes/assumptions/5.md). -/
  readData : Nat
  /-- The model's own: what the host's last buffer read returned (notes/assumptions/5.md). -/
  readBytes : List Byte
deriving DecidableEq, Repr

/-- Why the machine stops with a fault. No chunk and no engine step raises one. -/
inductive Fault where
  /-- Raised by a host access to an address the buffer does not have (20_memory.md R70): a read at or past the buffer's
  length, or any access at an address of more than LEN_WIDTH bits. Safe: the model stops (notes/assumptions/9.md). -/
  | outsideBuffer
deriving DecidableEq, Repr

/-- Why a move is refused. -/
inductive Refusal where
  /-- Raised by exec's arm of an instruction that has no meaning yet (none is left). Safe. -/
  | notModelled (mnemonic : String)
  /-- Raised by a move that names an engine the system does not have, N_ENC or N_DEC being too small
  (60_exceptions.md R268). Safe: there is no such agent (notes/assumptions/13.md). -/
  | noSuchEngine
  /-- Raised by a host write to a buffer of a BUSY engine, under either name of a shared memory, and by naming another
  memory as DEC_IN of a BUSY decoder; 93_implementation_defined.md U5 says `refuse` (70_reset_and_hazards.md R285).
  Safe: the host has no such move (notes/assumptions/8.md). -/
  | hostWriteWhileBusy
  /-- Raised by naming an encoder's output as DEC_IN when the host has not observed DONE on that encoder: 20_memory.md R86
  allows it only after that. Safe: the host has no such move (notes/assumptions/14.md). -/
  | streamNotObserved
deriving DecidableEq, Repr

/-- The Pixel (0,0,0,0): a cache slot's initial value (00_scope.md R6). -/
def Pixel.zero : Pixel := { r := 0, g := 0, b := 0, a := 0 }

/-- The Pixel (0,0,0,255): the initial previous pixel (00_scope.md R6). -/
def Pixel.initial : Pixel := { r := 0, g := 0, b := 0, a := 255 }

/-- The cache that INIT leaves (40_cache_hash.md R143). -/
def Cache.zero : Cache := Vector.replicate 64 Pixel.zero

/-- An encoder after power-on (10_state.md R60): IDLE, NONE, INIT and ENC_OUT_LEN = 0 are the spec's.
DESIGN CHOICE, unsafe: every other register is 0 (notes/assumptions/2.md) and no buffer byte is listed
(notes/assumptions/3.md). -/
def Encoder.powerOn : Encoder :=
  { phase := .idle, err := .none, stage := .init,
    regWidth := 0, regHeight := 0, regChannels := 0, regColorspace := 0, regInLen := 0, outLen := 0,
    w := 0, h := 0, ch := 0, cs := 0, inLen := 0, n := 0, pix := 0, opos := 0,
    prev := Pixel.zero, run := 0, cache := Cache.zero, input := [], output := [], observed := false }

/-- A decoder after power-on (10_state.md R60): IDLE, NONE, INIT, DEC_OUT_LEN = 0 and DEC_CONSUMED = 0 are the spec's.
DESIGN CHOICE, unsafe: every other register is 0 (notes/assumptions/2.md), no buffer byte is listed
(notes/assumptions/3.md) and DEC_IN is the decoder's own memory (notes/assumptions/14.md). -/
def Decoder.powerOn : Decoder :=
  { phase := .idle, err := .none, stage := .init,
    regInLen := 0, outWidth := 0, outHeight := 0, outChannels := 0, outColorspace := 0, outLen := 0, consumed := 0,
    inLen := 0, w := 0, h := 0, ch := 0, cs := 0, n := 0, prev := Pixel.zero, run := 0, pos := 0, pix := 0,
    cache := Cache.zero, input := [], inputFrom := none, openStream := none, output := [], observed := false }

/-- The system after power-on, for any choice of the parameters (70_reset_and_hazards.md R280). -/
def State.resetWith (c : Config) : State :=
  { cfg := c, encs := List.replicate c.nEnc Encoder.powerOn, decs := List.replicate c.nDec Decoder.powerOn,
    cur := 0, agenda := [], draws := 0, readData := 0, readBytes := [] }

/-- The system right after reset, with the parameters' defaults (00_scope.md R7; 70_reset_and_hazards.md R280). -/
def State.reset : State := State.resetWith Config.standard

end Sys2Proof.Machine
end

