-- ==== Sys2Proof/Machine/Operands.lean ====
section
/-! DEFINITION. The values the engines compute on: wrap8 and s8 (00_scope.md R10), the hash (40_cache_hash.md R141), the
deltas (41_encoder.md R168), the encoder's choice of a chunk (R164) and the pixel each chunk stands for (42_decoder.md
R207 to R212). -/

namespace Sys2Proof.Machine

/-- `wrap8(x) = x mod 256` (00_scope.md R10). -/
def wrap8 (x : Int) : Byte := BitVec.ofInt 8 x

/-- `s8(v)`: a byte read as two's complement, in -128..127 (00_scope.md R10). -/
def s8 (v : Byte) : Int := v.toInt

/-- The value of a byte as an exact integer (00_scope.md R8). -/
def u8 (v : Byte) : Int := (v.toNat : Int)

/-- The hash sum in exact arithmetic (40_cache_hash.md R141). -/
def hashSum (px : Pixel) : Nat := px.r.toNat * 3 + px.g.toNat * 5 + px.b.toNat * 7 + px.a.toNat * 11

/-- `hash(px)`, the low six bits of the sum (40_cache_hash.md R141). -/
def hashOf (px : Pixel) : Slot := BitVec.ofNat 6 (hashSum px)

/-- `Deltas`: one lane of the wrapped signed difference (41_encoder.md R168). -/
def delta (cur prev : Byte) : Int := s8 (wrap8 (u8 cur - u8 prev))

/-- The pixel of DIFF (42_decoder.md R210). -/
def diffPixel (prev : Pixel) (dr dg db : Int) : Pixel :=
  { r := wrap8 (u8 prev.r + dr), g := wrap8 (u8 prev.g + dg), b := wrap8 (u8 prev.b + db), a := prev.a }

/-- The pixel of LUMA (42_decoder.md R211). -/
def lumaPixel (prev : Pixel) (dg drDg dbDg : Int) : Pixel :=
  { r := wrap8 (u8 prev.r + dg + drDg), g := wrap8 (u8 prev.g + dg), b := wrap8 (u8 prev.b + dg + dbDg), a := prev.a }

/-- The pixel of RGB: the previous alpha is kept (42_decoder.md R207). -/
def rgbPixel (prev : Pixel) (r g b : Byte) : Pixel := { r := r, g := g, b := b, a := prev.a }

/-- The pixel of RGBA (42_decoder.md R208). -/
def rgbaPixel (r g b a : Byte) : Pixel := { r := r, g := g, b := b, a := a }

/-- The DIFF test (41_encoder.md R164, R169). -/
def fitsDiff (dr dg db : Int) : Bool := inRange (-2) 1 dr && inRange (-2) 1 dg && inRange (-2) 1 db

/-- The LUMA test, on exact differences (41_encoder.md R164, R168, R170). -/
def fitsLuma (dr dg db : Int) : Bool := inRange (-32) 31 dg && inRange (-8) 7 (dr - dg) && inRange (-8) 7 (db - dg)

/-- The chunk for a pixel that differs from the previous one, where `slotPixel` is what its cache slot holds
(41_encoder.md R164, R167 to R172, R177). -/
def chooseChunk (px prev slotPixel : Pixel) : Instr :=
  if slotPixel = px then .index (hashOf px)
  else if px.a = prev.a then
    if fitsDiff (delta px.r prev.r) (delta px.g prev.g) (delta px.b prev.b) then
      .diff (delta px.r prev.r) (delta px.g prev.g) (delta px.b prev.b)
    else if fitsLuma (delta px.r prev.r) (delta px.g prev.g) (delta px.b prev.b) then
      .luma (delta px.g prev.g) (delta px.r prev.r - delta px.g prev.g) (delta px.b prev.b - delta px.g prev.g)
    else .rgb px.r px.g px.b
  else .rgba px.r px.g px.b px.a

/-- A channels value the formats allow (30_encoding.md R104). -/
def channelsOk (ch : Byte) : Bool := decide (ch = 3) || decide (ch = 4)

/-- A colorspace value the formats allow (30_encoding.md R105). -/
def colorspaceOk (cs : Byte) : Bool := decide (cs = 0) || decide (cs = 1)

/-- `MAX_PIXELS != NONE and n > MAX_PIXELS` (41_encoder.md R162; 42_decoder.md R202). -/
def overMaxPixels (c : Config) (n : Nat) : Bool :=
  match c.maxPixels with
  | none => false
  | some m => decide (m < n)

/-- Every address from `addr` below `addr + len` has LEN_WIDTH bits (20_memory.md R70). -/
def addressesOk (c : Config) (addr len : Nat) : Bool :=
  match c.lenWidth with
  | none => true
  | some width => decide (addr + len ≤ 2 ^ width)

/-- What a length register of LEN_WIDTH bits holds after `v` was put in it (00_scope.md R7). DESIGN CHOICE, safe: a value
that does not fit leaves a free value of that width (notes/assumptions/6.md). -/
def lengthRegister (c : Config) (v : Nat) : Nat :=
  match c.lenWidth with
  | none => v
  | some width => if v < 2 ^ width then v else Config.lenOverflow width v % 2 ^ width

end Sys2Proof.Machine
end

