-- ==== Sys2Proof/Machine/Ops.lean ====
section
/-! DEFINITION. The shared operations: byte buffers (20_memory.md), cache slots (40_cache_hash.md), pixel reads and writes,
Emit, the abort `raise Err(code)` (60_exceptions.md R260) with START, the way out of it (R263), and PixelCommit
(42_decoder.md R213). -/

namespace Sys2Proof.Machine

/-- What an address that no entry lists reads as. DESIGN CHOICE, unsafe (notes/assumptions/3.md). -/
def unwrittenByte : Byte := 0

/-- The byte at an address. -/
def Memory.read : Memory → Nat → Byte
  | [], _ => unwrittenByte
  | (k, v) :: m, a => if k = a then v else Memory.read m a

/-- Lists `v` at `a`, before the first entry of a higher address and in place of an entry of `a`. -/
def Memory.insert : Memory → Nat → Byte → Memory
  | [], a, v => [(a, v)]
  | (k, u) :: m, a, v =>
    if a < k then (a, v) :: (k, u) :: m
    else if k = a then (a, v) :: m
    else (k, u) :: Memory.insert m a v

/-- Stores one byte; storing what an unlisted address reads as removes the entry. -/
def Memory.write (m : Memory) (a : Nat) (v : Byte) : Memory :=
  if v = unwrittenByte then m.filter (fun cell => cell.1 ≠ a) else Memory.insert m a v

/-- `MemRead(BUF, a, n)` (00_scope.md R12). -/
def Memory.readBytes (m : Memory) (a : Nat) : Nat → List Byte
  | 0 => []
  | n + 1 => Memory.read m a :: Memory.readBytes m (a + 1) n

/-- `MemWrite(BUF, a, |bytes|, bytes)` (00_scope.md R12). -/
def Memory.writeBytes (m : Memory) (a : Nat) : List Byte → Memory
  | [] => m
  | v :: bytes => Memory.writeBytes (Memory.write m a v) (a + 1) bytes

/-- The canonical form: addresses strictly rising, and no entry equal to what an unlisted address reads as. -/
def Memory.wf : Memory → Bool
  | [] => true
  | (k, v) :: m => decide (v ≠ unwrittenByte) && m.all (fun cell => decide (k < cell.1)) && Memory.wf m

/-- `cache[i]` (40_cache_hash.md R144). -/
def cacheRead (cache : Cache) (i : Slot) : Pixel := cache[i.toNat]'i.isLt

/-- `CacheUpdate(px)`: `cache[hash(px)] <- px` (40_cache_hash.md R145). -/
def cacheUpdate (cache : Cache) (px : Pixel) : Cache := cache.set (hashOf px).toNat px (hashOf px).isLt

/-- The same list with element `k` replaced, engine `k`'s new state among the others'. -/
def State.setEnc (s : State) (k : Nat) (e : Encoder) : State := { s with encs := s.encs.set k e }

/-- The same list with element `k` replaced, engine `k`'s new state among the others'. -/
def State.setDec (s : State) (k : Nat) (d : Decoder) : State := { s with decs := s.decs.set k d }

/-- `raise Err(code)` in an encoder: the code, PHASE = ERROR, ENC_OUT_LEN = 0, and nothing else (60_exceptions.md R260). -/
def Encoder.raise (e : Encoder) (code : ErrCode) : Encoder := { e with err := code, phase := .error, outLen := 0 }

/-- `raise Err(code)` in a decoder: the code, PHASE = ERROR, DEC_OUT_LEN = DEC_CONSUMED = 0, and nothing else
(60_exceptions.md R260). -/
def Decoder.raise (d : Decoder) (code : ErrCode) : Decoder :=
  { d with err := code, phase := .error, outLen := 0, consumed := 0 }

/-- ENC_CTRL.START: the way out of IDLE, DONE and ERROR; ignored in BUSY (10_state.md R49, R63; 60_exceptions.md R263). -/
def Encoder.start (e : Encoder) : Encoder :=
  if e.phase = .busy then e
  else
    { e with
      w := e.regWidth, h := e.regHeight, ch := e.regChannels, cs := e.regColorspace, inLen := e.regInLen,
      err := .none, stage := .init, phase := .busy, outLen := 0, observed := false }

/-- DEC_CTRL.START: the way out of IDLE, DONE and ERROR; ignored in BUSY (10_state.md R54, R63; 60_exceptions.md R263). -/
def Decoder.start (d : Decoder) : Decoder :=
  if d.phase = .busy then d
  else
    { d with
      inLen := d.regInLen, err := .none, stage := .init, phase := .busy, outLen := 0, consumed := 0, observed := false,
      openStream := none }

/-- The host's read of ENC_STATUS: with PHASE = DONE it is the DONE observation (20_memory.md R82, R83). -/
def Encoder.observe (e : Encoder) : Encoder := if e.phase = .done then { e with observed := true } else e

/-- The host's read of DEC_STATUS: with PHASE = DONE it is the DONE observation (20_memory.md R82, R83). -/
def Decoder.observe (d : Decoder) : Decoder := if d.phase = .done then { d with observed := true } else d

/-- The memory that DEC_IN of a decoder names: its own, or the ENC_OUT of an encoder (20_memory.md R86). The last case
does not occur: only an encoder the system has can be named. DESIGN CHOICE, unsafe: past the published stream a named
memory holds the bytes kept there (notes/assumptions/23.md). -/
def State.decInput (s : State) (d : Decoder) : Memory :=
  match d.inputFrom with
  | none => d.input
  | some k =>
    match s.encs[k]? with
    | some e => e.output
    | none => d.input

/-- The `n`-th stream drawn, `len` free bytes long (notes/assumptions/14.md). -/
def freeStream (n len : Nat) : Memory := Memory.writeBytes [] 0 ((List.range len).map (Config.freeStreamByte n))

/-- What the running decode of a decoder reads: the memory that DEC_IN names, or an open stream of d.IN_LEN bytes
(20_memory.md R78, R82, R86; notes/assumptions/14.md). -/
def State.decStream (s : State) (d : Decoder) : Memory :=
  match d.openStream with
  | none => s.decInput d
  | some n => freeStream n d.inLen

/-- `Emit(v)` (00_scope.md R12; 10_state.md R34). -/
def Encoder.emit (e : Encoder) (bytes : List Byte) : Encoder :=
  { e with output := e.output.writeBytes e.opos bytes, opos := e.opos + bytes.length }

/-- `ReadPixel(i)` (41_encoder.md R163; 20_memory.md R72): alpha is 255 unless CH = 4. -/
def Encoder.readPixel (e : Encoder) (i : Nat) : Pixel :=
  { r := e.input.read (i * e.ch.toNat), g := e.input.read (i * e.ch.toNat + 1), b := e.input.read (i * e.ch.toNat + 2),
    a := if e.ch = 4 then e.input.read (i * e.ch.toNat + 3) else 255 }

/-- How many bytes of a pixel go to DEC_OUT (42_decoder.md R214). -/
def Decoder.pixelBytes (d : Decoder) : Nat := if d.ch = 4 then 4 else 3

/-- The address in DEC_OUT that the decoder's next pixel goes to (42_decoder.md R214). -/
def Decoder.pixelAddr (d : Decoder) : Nat := d.pix * d.pixelBytes

/-- The bytes of a pixel as `WritePixel` stores them (42_decoder.md R214). -/
def Decoder.pixelList (d : Decoder) (px : Pixel) : List Byte :=
  if d.ch = 4 then [px.r, px.g, px.b, px.a] else [px.r, px.g, px.b]

/-- `PixelCommit(px)`: the cache, d.prev, DEC_OUT and d.pix (42_decoder.md R213, R214). -/
def Decoder.commit (d : Decoder) (px : Pixel) : Decoder :=
  { d with
    cache := cacheUpdate d.cache px, prev := px,
    output := d.output.writeBytes d.pixelAddr (d.pixelList px), pix := d.pix + 1 }

/-- The effect of one chunk on the decoder whose step is being taken. Refused by name when the system has no such
decoder (60_exceptions.md R268; notes/assumptions/13.md). -/
def onDecoder (f : Decoder → Decoder) (s : State) : Host.Outcome State Fault Refusal :=
  match s.decs[s.cur]? with
  | none => .refused .noSuchEngine
  | some d => .next (s.setDec s.cur (f d))

end Sys2Proof.Machine
end

