-- ==== Sys2Proof/Machine/Cached.lean ====
section
/-! DEFINITION. The meanings of INDEX and RUN, the chunks that repeat a pixel the decoder holds (42_decoder.md R209, R212).
Each ends in PixelCommit (R204, R213); the fetch has moved d.pos already (R206). -/

namespace Sys2Proof.Machine

/-- INDEX i: the pixel in slot i (42_decoder.md R209). -/
def execIndex (i : Slot) (s : State) : Host.Outcome State Fault Refusal :=
  onDecoder (fun d => d.commit (cacheRead d.cache i)) s

/-- RUN n: the previous pixel now, and n - 1 times more by replay (42_decoder.md R212). -/
def execRun (n : Nat) (s : State) : Host.Outcome State Fault Refusal :=
  onDecoder (fun d => Decoder.commit { d with run := BitVec.ofNat 6 (n - 1) } d.prev) s

end Sys2Proof.Machine
end

