-- ==== Sys2Proof/Machine/Delta.lean ====
section
/-! DEFINITION. The meanings of DIFF and LUMA, the chunks that change the previous pixel (42_decoder.md R210, R211).
Each ends in PixelCommit (R204, R213); the fetch has moved d.pos already (R206). -/

namespace Sys2Proof.Machine

/-- DIFF dr, dg, db (42_decoder.md R210). -/
def execDiff (dr dg db : Int) (s : State) : Host.Outcome State Fault Refusal :=
  onDecoder (fun d => d.commit (diffPixel d.prev dr dg db)) s

/-- LUMA dg, dr_dg, db_dg (42_decoder.md R211). -/
def execLuma (dg drDg dbDg : Int) (s : State) : Host.Outcome State Fault Refusal :=
  onDecoder (fun d => d.commit (lumaPixel d.prev dg drDg dbDg)) s

end Sys2Proof.Machine
end

