-- ==== Sys2Proof/Machine/Raw.lean ====
section
/-! DEFINITION. The meanings of RGB and RGBA, the chunks that carry raw channels (42_decoder.md R207, R208).
Each ends in PixelCommit (R204, R213); the fetch has moved d.pos already (R206). -/

namespace Sys2Proof.Machine

/-- RGB r, g, b: alpha is kept (42_decoder.md R207). -/
def execRgb (r g b : Byte) (s : State) : Host.Outcome State Fault Refusal :=
  onDecoder (fun d => d.commit (rgbPixel d.prev r g b)) s

/-- RGBA r, g, b, a: accepted for either channel count (42_decoder.md R208). -/
def execRgba (r g b a : Byte) (s : State) : Host.Outcome State Fault Refusal :=
  onDecoder (fun d => d.commit (rgbaPixel r g b a)) s

end Sys2Proof.Machine
end

