-- ==== Sys2Proof/Machine/Dispatch.lean ====
section
/-! DEFINITION. What each chunk does, one arm per constructor of Instr. -/

namespace Sys2Proof.Machine

-- The effect of a fetched chunk on the decoder whose step is being taken (42_decoder.md R204).
def exec (i : Instr) (s : State) : Host.Outcome State Fault Refusal :=
  match i with
  | .index slot => Sys2Proof.Machine.execIndex slot s
  | .diff dr dg db => Sys2Proof.Machine.execDiff dr dg db s
  | .luma dg drDg dbDg => Sys2Proof.Machine.execLuma dg drDg dbDg s
  | .run n => Sys2Proof.Machine.execRun n s
  | .rgb r g b => Sys2Proof.Machine.execRgb r g b s
  | .rgba r g b a => Sys2Proof.Machine.execRgba r g b a s

end Sys2Proof.Machine
end

