-- ==== Sys2Proof/Machine/DecoderEngine.lean ====
section
/-! DEFINITION. The decoder engine (42_decoder.md): the INIT step (R202, R203), run replay (R205), the chunk fetch (R206),
the pixel step (R204), the FINAL step (R215), and which of them a BUSY engine takes (10_state.md R31, R46). `m` is what
the decode reads, `State.decStream` (20_memory.md R86). -/

namespace Sys2Proof.Machine

/-- The byte of the stream `m` at `offset` past the magic (30_encoding.md R101). -/
def headerByte (c : Config) (m : Memory) (offset : Nat) : Byte := m.read (magicLen c + offset)

/-- The registers the header parse gives their values (42_decoder.md R202). -/
def Decoder.parseHeader (c : Config) (m : Memory) (d : Decoder) : Decoder :=
  { d with
    w := ofBe32 (headerByte c m 0) (headerByte c m 1) (headerByte c m 2) (headerByte c m 3)
    h := ofBe32 (headerByte c m 4) (headerByte c m 5) (headerByte c m 6) (headerByte c m 7)
    ch := headerByte c m 8
    cs := headerByte c m 9 }

/-- The initialisation part of INIT (42_decoder.md R203). -/
def Decoder.clearWorking (c : Config) (d : Decoder) : Decoder :=
  { d with cache := Cache.zero, prev := Pixel.initial, run := 0, pix := 0, pos := hdrLen c, stage := .body }

/-- The INIT step (42_decoder.md R202, R203), its checks in the order of 60_exceptions.md R258. -/
def Decoder.initStep (c : Config) (m : Memory) (d : Decoder) : Decoder :=
  if d.inLen < hdrLen c then d.raise .truncatedHeader
  else if m.readBytes 0 (magicLen c) ≠ c.magic then d.raise .badMagic
  else
    let d := d.parseHeader c m
    if (channelsOk d.ch && colorspaceOk d.cs) = false then d.raise .invalidChannelOrColorspace
    else if d.w = 0 ∨ d.h = 0 then d.raise .invalidDimensions
    else
      let d := { d with n := d.w.toNat * d.h.toNat }
      if overMaxPixels c d.n = true then d.raise .invalidDimensions
      else d.clearWorking c

/-- A pixel step of an open run: `RunReplay()` and PixelCommit (42_decoder.md R205, R213). -/
def Decoder.replay (d : Decoder) : Decoder := Decoder.commit { d with run := d.run - 1 } d.prev

/-- `FetchChunk()` without its write to d.pos: the chunk at d.pos and its length, or nothing where TruncatedStream is
raised (42_decoder.md R206). The last case does not occur: `chunkLen` bytes always decode. -/
def Decoder.fetchChunk (c : Config) (m : Memory) (d : Decoder) : Option (Instr × Nat) :=
  if d.inLen ≤ d.pos then none
  else
    let len := chunkLen c.tags (m.read d.pos)
    if d.inLen < d.pos + len then none
    else
      match decode c.tags (m.readBytes d.pos len) with
      | .ok (i, _) => some (i, len)
      | .error _ => none

/-- The FINAL step (42_decoder.md R215), its checks in the order of 60_exceptions.md R258. -/
def Decoder.finalStep (c : Config) (m : Memory) (d : Decoder) : Decoder :=
  if d.inLen - d.pos < 8 then d.raise .truncatedStream
  else if m.readBytes d.pos 8 ≠ endMarker then d.raise .missingEndMarker
  else
    let d := { d with pos := d.pos + 8 }
    if c.trailing = .reject ∧ d.pos ≠ d.inLen then d.raise .trailingBytes
    else
      { d with
        run := 0, outWidth := d.w, outHeight := d.h, outChannels := d.ch, outColorspace := d.cs,
        outLen := lengthRegister c (d.n * d.ch.toNat), consumed := lengthRegister c d.pos, phase := .done }

/-- The pixel step of decoder `k`, whose state is `d` (42_decoder.md R204): a replay, or the fetched chunk's meaning
with d.pos moved past the chunk (R206). -/
def runPixelStep (k : Nat) (m : Memory) (d : Decoder) (s : State) : Host.Outcome State Fault Refusal :=
  if d.run ≠ 0 then .next (s.setDec k d.replay)
  else
    match d.fetchChunk s.cfg m with
    | none => .next (s.setDec k (d.raise .truncatedStream))
    | some (i, len) => exec i (s.setDec k { d with pos := d.pos + len })

/-- The step decoder `k` takes when it is its turn: none unless BUSY (10_state.md R31), else by stage (R46). DEDUCED,
safe: a pixel counter past d.N, which no run reaches, counts as d.N (notes/assumptions/16.md). -/
def runDecoder (k : Nat) (s : State) : Host.Outcome State Fault Refusal :=
  match s.decs[k]? with
  | none => .refused .noSuchEngine
  | some d =>
    if d.phase = .busy then
      match d.stage with
      | .init => .next ({ s with cur := k }.setDec k (d.initStep s.cfg (s.decStream d)))
      | .body =>
        if d.pix < d.n then runPixelStep k (s.decStream d) d { s with cur := k }
        else .next ({ s with cur := k }.setDec k (d.finalStep s.cfg (s.decStream d)))
    else .next { s with cur := k }

end Sys2Proof.Machine
end

