-- ==== Sys2Proof/Machine/EncoderEngine.lean ====
section
/-! DEFINITION. The encoder engine (41_encoder.md): the INIT step (R162), the pixel step (R164 to R173), the FINAL step
(R174), and which of them a BUSY engine takes (10_state.md R31, R38). -/

namespace Sys2Proof.Machine

/-- The registers INIT gives their first values, before it emits the header (41_encoder.md R162). -/
def Encoder.clearWorking (e : Encoder) : Encoder :=
  { e with cache := Cache.zero, prev := Pixel.initial, run := 0, pix := 0, opos := 0 }

/-- The INIT step (41_encoder.md R162), its checks in the order of 60_exceptions.md R258. -/
def Encoder.initStep (c : Config) (e : Encoder) : Encoder :=
  if (channelsOk e.ch && colorspaceOk e.cs) = false then e.raise .invalidChannelOrColorspace
  else if e.w = 0 ∨ e.h = 0 then e.raise .shapeMismatch
  else
    let e := { e with n := e.w.toNat * e.h.toNat }
    if overMaxPixels c e.n = true then e.raise .shapeMismatch
    else if e.inLen ≠ e.n * e.ch.toNat then e.raise .shapeMismatch
    else { e.clearWorking.emit (headerBytes c e.w e.h e.ch e.cs) with stage := .body }

/-- `EmitRUN(n); e.run <- 0` (41_encoder.md R176). -/
def Encoder.emitRun (c : Config) (e : Encoder) (n : Nat) : Encoder :=
  { e.emit (encode c.tags (.run n)) with run := 0 }

/-- `RunContinue(px)` (41_encoder.md R165). -/
def Encoder.runContinue (c : Config) (e : Encoder) (px : Pixel) : Encoder :=
  let e := { e with run := e.run + 1 }
  let e := if e.run = 62 then e.emitRun c 62 else e
  if c.encCacheOnRun then { e with cache := cacheUpdate e.cache px } else e

/-- `RunFlush()` (41_encoder.md R166), which FINAL does too (R174). -/
def Encoder.runFlush (c : Config) (e : Encoder) : Encoder :=
  if e.run = 0 then e else e.emitRun c e.run.toNat

/-- The chunk for a pixel that differs from the previous one, and the cache write after it (41_encoder.md R164, R167 to
R173). -/
def Encoder.emitPixel (c : Config) (e : Encoder) (px : Pixel) : Encoder :=
  { e.emit (encode c.tags (chooseChunk px e.prev (cacheRead e.cache (hashOf px)))) with
    cache := cacheUpdate e.cache px }

/-- The part of the pixel step that depends on whether the pixel repeats the previous one (41_encoder.md R164). -/
def Encoder.encodePixel (c : Config) (e : Encoder) (px : Pixel) : Encoder :=
  if px = e.prev then e.runContinue c px else (e.runFlush c).emitPixel c px

/-- The pixel step (41_encoder.md R164, R173). -/
def Encoder.pixelStep (c : Config) (e : Encoder) : Encoder :=
  let px := e.readPixel e.pix
  { e.encodePixel c px with prev := px, pix := e.pix + 1 }

/-- The FINAL step (41_encoder.md R174). -/
def Encoder.finalStep (c : Config) (e : Encoder) : Encoder :=
  let e := (e.runFlush c).emit endMarker
  { e with outLen := lengthRegister c e.opos, phase := .done }

/-- The step an encoder takes when it is its turn: none unless BUSY (10_state.md R31), else by stage (R38). DEDUCED, safe:
a pixel counter past e.N, which no run reaches, counts as e.N (notes/assumptions/16.md). -/
def Encoder.step (c : Config) (e : Encoder) : Encoder :=
  if e.phase = .busy then
    match e.stage with
    | .init => e.initStep c
    | .body => if e.pix < e.n then e.pixelStep c else e.finalStep c
  else e

end Sys2Proof.Machine
end

