-- ==== Sys2Proof/Machine/Flags.lean ====
section
/-! DEFINITION. The status flags. The block has no condition codes; its only flags are PHASE and the error code
(10_state.md R47), which the host sees in the STATUS registers (R50, R55). -/

namespace Sys2Proof.Machine

/-- The 2-bit value of PHASE (10_state.md R31). -/
def phaseCode : Phase → BitVec 2
  | .idle => 0
  | .busy => 1
  | .done => 2
  | .error => 3

/-- The 4-bit error code (60_exceptions.md R250). -/
def errCode : ErrCode → BitVec 4
  | .none => 0
  | .shapeMismatch => 1
  | .truncatedHeader => 2
  | .invalidChannelOrColorspace => 3
  | .truncatedStream => 4
  | .missingEndMarker => 5
  | .badMagic => 6
  | .invalidDimensions => 7
  | .trailingBytes => 8

/-- A STATUS register: ERR in bits 7:4, zeros in bits 3:2, PHASE in bits 1:0 (10_state.md R50, R55). -/
def statusWord (p : Phase) (e : ErrCode) : Byte := errCode e ++ 0#2 ++ phaseCode p

/-- START is bit 0 of a CTRL write; bits 7:1 are ignored (10_state.md R49, R54). -/
def startBit (value : Nat) : Bool := decide (value % 2 = 1)

end Sys2Proof.Machine
end

