-- ==== Sys2Proof/Machine/HostPort.lean ====
section
/-! DEFINITION. The host's moves: register reads and writes (10_state.md R48 to R63), buffer reads and writes
(20_memory.md R70, R71, R77, R85), the ways a stream goes from an encoder to a decoder (R86), the DONE observation (R82) and
RESET (70_reset_and_hazards.md R280). -/

namespace Sys2Proof.Machine

/-- A host write to an encoder register (10_state.md R48, R49, R51, R62). A register keeps the low bits of the written
value (notes/assumptions/11.md); ENC_STATUS, ENC_OUT_LEN and reserved numbers ignore it (R48, R50;
notes/assumptions/10.md). -/
def Encoder.writeReg (c : Config) (e : Encoder) (reg value : Nat) : Encoder :=
  match reg with
  | 0 => if startBit value then e.start else e
  | 2 => { e with regWidth := BitVec.ofNat 32 value }
  | 3 => { e with regHeight := BitVec.ofNat 32 value }
  | 4 => { e with regChannels := BitVec.ofNat 8 value }
  | 5 => { e with regColorspace := BitVec.ofNat 8 value }
  | 6 => { e with regInLen := lengthRegister c value }
  | _ => e

/-- What a host read of an encoder register returns; `none` is "an unspecified value" (10_state.md R48, R50, R52). -/
def Encoder.readReg (e : Encoder) (reg : Nat) : Option Nat :=
  match reg with
  | 0 => some 0
  | 1 => some (statusWord e.phase e.err).toNat
  | 2 => some e.regWidth.toNat
  | 3 => some e.regHeight.toNat
  | 4 => some e.regChannels.toNat
  | 5 => some e.regColorspace.toNat
  | 6 => some e.regInLen
  | 7 => some e.outLen
  | _ => none

/-- A host write to a decoder register (10_state.md R53, R54, R62). The result registers, DEC_STATUS and reserved
numbers ignore it (R48, R50, R57; notes/assumptions/10.md). -/
def Decoder.writeReg (c : Config) (d : Decoder) (reg value : Nat) : Decoder :=
  match reg with
  | 0 => if startBit value then d.start else d
  | 2 => { d with regInLen := lengthRegister c value }
  | _ => d

/-- A result register's value in DONE; outside DONE it is unspecified (10_state.md R61). -/
def Decoder.result (d : Decoder) (value : Nat) : Option Nat := if d.phase = .done then some value else none

/-- What a host read of a decoder register returns; `none` is "an unspecified value" (10_state.md R48, R53, R55, R61). -/
def Decoder.readReg (d : Decoder) (reg : Nat) : Option Nat :=
  match reg with
  | 0 => some 0
  | 1 => some (statusWord d.phase d.err).toNat
  | 2 => some d.regInLen
  | 3 => d.result d.outWidth.toNat
  | 4 => d.result d.outHeight.toNat
  | 5 => d.result d.outChannels.toNat
  | 6 => d.result d.outColorspace.toNat
  | 7 => some d.outLen
  | 8 => some d.consumed
  | _ => none

/-- The width in bits of a decoder result register, which bounds the value drawn for it (10_state.md R53); reserved
numbers have no width. -/
def Decoder.drawWidth (reg : Nat) : Option Nat :=
  match reg with
  | 3 => some 32
  | 4 => some 32
  | 5 => some 8
  | 6 => some 8
  | _ => none

/-- A drawn register value of the given width, if there is one. -/
def drawOf (width : Option Nat) (draw : Nat) : Nat :=
  match width with
  | none => Config.freeNat draw
  | some bits => Config.freeNat draw % 2 ^ bits

/-- The host's register read ends: the value, or a free value of the given width (notes/assumptions/5.md). -/
def State.deliverData (s : State) (width : Option Nat) : Option Nat → State
  | some value => { s with readData := value }
  | none => { s with readData := drawOf width s.draws, draws := s.draws + 1 }

/-- `len` free bytes from draw `n` on (notes/assumptions/5.md). -/
def freeBytes (n : Nat) : Nat → List Byte
  | 0 => []
  | len + 1 => Config.freeByte n :: freeBytes (n + 1) len

/-- What a host read of a buffer gives. -/
inductive ReadResult where
  /-- The host may rely on the bytes. -/
  | bytes (bs : List Byte)
  /-- The contents are unspecified (20_memory.md R77, R82; 93_implementation_defined.md U2). -/
  | unspecified
  /-- The buffer has no such address (20_memory.md R70). -/
  | outside
deriving DecidableEq, Repr

/-- A read of a buffer of `bufferLen` bytes: its addresses are below its length and have LEN_WIDTH bits (20_memory.md
R70). -/
def readWithin (c : Config) (bufferLen : Nat) (m : Memory) (addr len : Nat) : ReadResult :=
  if addressesOk c addr len = true ∧ addr + len ≤ bufferLen then .bytes (m.readBytes addr len) else .outside

/-- The host's read of an output buffer: its bytes below the published length, once the host has observed DONE; before
that they are unspecified (20_memory.md R70, R77, R82). DESIGN CHOICE, safe: also those that the host wrote there itself
(notes/assumptions/24.md). -/
def readOutput (c : Config) (phase : Phase) (observed : Bool) (outLen : Nat) (m : Memory) (addr len : Nat) :
    ReadResult :=
  if phase = .done ∧ observed = true then readWithin c outLen m addr len
  else if addressesOk c addr len then .unspecified
  else .outside

/-- DEC_IN holds bytes the host may rely on: it is the decoder's own memory, or the output of an encoder on which the
host has observed DONE (20_memory.md R82, R86). DESIGN CHOICE, safe: of such an output before that, also the bytes that
the host wrote there itself are open (notes/assumptions/24.md). -/
def State.streamReady (s : State) (d : Decoder) : Bool :=
  match d.inputFrom with
  | none => true
  | some k =>
    match s.encs[k]? with
    | some e => decide (e.phase = .done) && e.observed
    | none => true

/-- The host's read of DEC_IN (20_memory.md R70, R82, R86; notes/assumptions/18.md). DESIGN CHOICE, unsafe: of a named
memory it gives the bytes kept there also past ENC_OUT_LEN, up to DEC_IN_LEN (notes/assumptions/23.md). -/
def State.readDecInput (s : State) (d : Decoder) (addr len : Nat) : ReadResult :=
  if s.streamReady d then readWithin s.cfg d.regInLen (s.decInput d) addr len
  else if addressesOk s.cfg addr len then .unspecified
  else .outside

/-- The host's buffer read ends: the bytes, or free bytes, or a fault (notes/assumptions/5.md and 9.md). -/
def State.deliverBytes (s : State) (len : Nat) : ReadResult → Host.Outcome State Fault Refusal
  | .bytes bs => .next { s with readBytes := bs }
  | .unspecified => .next { s with readBytes := freeBytes s.draws len, draws := s.draws + len }
  | .outside => .fault .outsideBuffer

/-- A host read of a buffer. Input buffers are the host's own memory (20_memory.md R71, R76;
notes/assumptions/18.md). -/
def hostReadBuffer (buf : Buffer) (addr len : Nat) (s : State) : Host.Outcome State Fault Refusal :=
  match buf with
  | .encIn k =>
    match s.encs[k]? with
    | none => .refused .noSuchEngine
    | some e => s.deliverBytes len (readWithin s.cfg e.regInLen e.input addr len)
  | .encOut k =>
    match s.encs[k]? with
    | none => .refused .noSuchEngine
    | some e => s.deliverBytes len (readOutput s.cfg e.phase e.observed e.outLen e.output addr len)
  | .decIn k =>
    match s.decs[k]? with
    | none => .refused .noSuchEngine
    | some d => s.deliverBytes len (s.readDecInput d addr len)
  | .decOut k =>
    match s.decs[k]? with
    | none => .refused .noSuchEngine
    | some d => s.deliverBytes len (readOutput s.cfg d.phase d.observed d.outLen d.output addr len)

/-- ENC_OUT of encoder `k` is the DEC_IN of a BUSY decoder (20_memory.md R86). -/
def State.streamInUse (s : State) (k : Nat) : Bool :=
  s.decs.any fun d => decide (d.phase = .busy) && decide (d.inputFrom = some k)

/-- A host write that `busy` forbids (20_memory.md R85) and that needs addresses of LEN_WIDTH bits (R70), and otherwise
leaves `t`. -/
def hostStore (c : Config) (busy : Bool) (addr len : Nat) (t : State) : Host.Outcome State Fault Refusal :=
  if busy then .refused .hostWriteWhileBusy
  else if addressesOk c addr len then .next t
  else .fault .outsideBuffer

/-- A host write to the memory of ENC_OUT of encoder `k`, under either of its names: neither that encoder nor a decoder
that reads it may be BUSY (20_memory.md R85, R86). -/
def hostWriteEncOut (k addr : Nat) (bytes : List Byte) (s : State) : Host.Outcome State Fault Refusal :=
  match s.encs[k]? with
  | none => .refused .noSuchEngine
  | some e =>
    hostStore s.cfg (decide (e.phase = .busy) || s.streamInUse k) addr bytes.length
      (s.setEnc k { e with output := e.output.writeBytes addr bytes })

/-- A host write to a buffer, which the host owns unless its engine is BUSY (20_memory.md R71, R85;
notes/assumptions/8.md and 19.md). -/
def hostWriteBuffer (buf : Buffer) (addr : Nat) (bytes : List Byte) (s : State) : Host.Outcome State Fault Refusal :=
  match buf with
  | .encIn k =>
    match s.encs[k]? with
    | none => .refused .noSuchEngine
    | some e =>
      hostStore s.cfg (decide (e.phase = .busy)) addr bytes.length
        (s.setEnc k { e with input := e.input.writeBytes addr bytes })
  | .encOut k => hostWriteEncOut k addr bytes s
  | .decIn k =>
    match s.decs[k]? with
    | none => .refused .noSuchEngine
    | some d =>
      if d.phase = .busy then .refused .hostWriteWhileBusy
      else
        match d.inputFrom with
        | some k' => hostWriteEncOut k' addr bytes s
        | none =>
          hostStore s.cfg false addr bytes.length (s.setDec k { d with input := d.input.writeBytes addr bytes })
  | .decOut k =>
    match s.decs[k]? with
    | none => .refused .noSuchEngine
    | some d =>
      hostStore s.cfg (decide (d.phase = .busy)) addr bytes.length
        (s.setDec k { d with output := d.output.writeBytes addr bytes })

/-- The host copies the published stream of encoder `k`, ENC_OUT_LEN bytes, to DEC_IN of decoder `j` from address 0
(20_memory.md R86; notes/assumptions/14.md). Before the host has observed DONE the bytes are unspecified (R77, R82). -/
def hostCopyStream (k j : Nat) (s : State) : Host.Outcome State Fault Refusal :=
  match s.encs[k]? with
  | none => .refused .noSuchEngine
  | some e =>
    match readOutput s.cfg e.phase e.observed e.outLen e.output 0 e.outLen with
    | .bytes bs => hostWriteBuffer (.decIn j) 0 bs s
    | .unspecified => hostWriteBuffer (.decIn j) 0 (freeBytes s.draws e.outLen) { s with draws := s.draws + e.outLen }
    | .outside => .fault .outsideBuffer

/-- The host names the memory of ENC_OUT of encoder `k` as DEC_IN of decoder `j`, after observing DONE on the encoder
and before START of the decoder, or gives DEC_IN its own memory again (20_memory.md R86). -/
def hostNameInput (j : Nat) (source : Option Nat) (s : State) : Host.Outcome State Fault Refusal :=
  match s.decs[j]? with
  | none => .refused .noSuchEngine
  | some d =>
    if d.phase = .busy then .refused .hostWriteWhileBusy
    else
      match source with
      | none => .next (s.setDec j { d with inputFrom := none })
      | some k =>
        if s.encs.length ≤ k then .refused .noSuchEngine
        else if s.streamReady { d with inputFrom := some k } then .next (s.setDec j { d with inputFrom := some k })
        else .refused .streamNotObserved

/-- The write starts an operation: START to CTRL of an engine that is not BUSY (10_state.md R49, R54, R63). -/
def startsOperation (phase : Phase) (reg value : Nat) : Bool :=
  decide (reg = 0) && startBit value && decide (phase ≠ .busy)

/-- BUSY decoders whose DEC_IN names the output of encoder `k` read open streams from now on, one each: an encode that
starts now writes their input, and nothing orders its writes and their reads (20_memory.md R82, R83, R85;
notes/assumptions/14.md). -/
def State.openStreams (s : State) (k : Nat) : State :=
  { s with
    decs := s.decs.mapIdx fun j d =>
      if d.phase = .busy ∧ d.inputFrom = some k then { d with openStream := some (s.draws + j) } else d
    draws := s.draws + s.decs.length }

/-- A host write to a register of encoder `k`. START starts the encode (10_state.md R49) also while a BUSY decoder reads
the encoder's output, and that decoder's stream is open from then on. -/
def hostWriteEncReg (k reg value : Nat) (s : State) : Host.Outcome State Fault Refusal :=
  match s.encs[k]? with
  | none => .refused .noSuchEngine
  | some e =>
    if startsOperation e.phase reg value && s.streamInUse k then
      .next ((s.setEnc k (e.writeReg s.cfg reg value)).openStreams k)
    else .next (s.setEnc k (e.writeReg s.cfg reg value))

/-- A host write to a register of decoder `k`. START starts the decode (10_state.md R54) also where DEC_IN names the output
of an encoder on which the host has not observed DONE; the decode then reads an open stream
(93_implementation_defined.md U2; notes/assumptions/14.md). DESIGN CHOICE, safe: it does so also where the host wrote
bytes of that memory before START, which 20_memory.md R82(a) would show it (notes/assumptions/24.md). -/
def hostWriteDecReg (k reg value : Nat) (s : State) : Host.Outcome State Fault Refusal :=
  match s.decs[k]? with
  | none => .refused .noSuchEngine
  | some d =>
    if startsOperation d.phase reg value && !s.streamReady d then
      .next { s.setDec k { d.writeReg s.cfg reg value with openStream := some s.draws } with draws := s.draws + 1 }
    else .next (s.setDec k (d.writeReg s.cfg reg value))

/-- A host read of a register of encoder `k`; of ENC_STATUS it may be the DONE observation (20_memory.md R82). -/
def hostReadEncReg (k reg : Nat) (s : State) : Host.Outcome State Fault Refusal :=
  match s.encs[k]? with
  | none => .refused .noSuchEngine
  | some e => .next ((s.setEnc k (if reg = 1 then e.observe else e)).deliverData none (e.readReg reg))

/-- A host read of a register of decoder `k`; of DEC_STATUS it may be the DONE observation (20_memory.md R82). -/
def hostReadDecReg (k reg : Nat) (s : State) : Host.Outcome State Fault Refusal :=
  match s.decs[k]? with
  | none => .refused .noSuchEngine
  | some d =>
    .next ((s.setDec k (if reg = 1 then d.observe else d)).deliverData (Decoder.drawWidth reg) (d.readReg reg))

/-- An encoder after RESET: as after power-on, but for its buffers, whose bytes the model keeps
(70_reset_and_hazards.md R280, R281; notes/assumptions/12.md). -/
def Encoder.reset (e : Encoder) : Encoder := { Encoder.powerOn with input := e.input, output := e.output }

/-- A decoder after RESET: as after power-on, its own memory named as DEC_IN, but for its buffers, whose bytes the model
keeps (70_reset_and_hazards.md R280, R281; notes/assumptions/12.md). -/
def Decoder.reset (d : Decoder) : Decoder := { Decoder.powerOn with input := d.input, output := d.output }

/-- RESET is asserted: every engine goes to its reset state (70_reset_and_hazards.md R280). -/
def State.assertReset (s : State) : State :=
  { s with encs := s.encs.map Encoder.reset, decs := s.decs.map Decoder.reset }

/-- One move of the host (10_state.md R30). -/
def runHost (a : HostAction) (s : State) : Host.Outcome State Fault Refusal :=
  match a with
  | .assertReset => .next s.assertReset
  | .writeEncReg k reg value => hostWriteEncReg k reg value s
  | .readEncReg k reg => hostReadEncReg k reg s
  | .writeDecReg k reg value => hostWriteDecReg k reg value s
  | .readDecReg k reg => hostReadDecReg k reg s
  | .writeBuffer buf addr bytes => hostWriteBuffer buf addr bytes s
  | .readBuffer buf addr len => hostReadBuffer buf addr len s
  | .copyStream k j => hostCopyStream k j s
  | .nameInput j source => hostNameInput j source s

end Sys2Proof.Machine
end

