-- ==== Sys2Proof/Machine/Schedule.lean ====
section
/-! DEFINITION. Which agent moves (10_state.md R30; 93_implementation_defined.md U15): the first move of the agenda, and
with an empty agenda the first BUSY decoder, else the first BUSY encoder, else nothing (notes/assumptions/4.md). -/

namespace Sys2Proof.Machine

/-- The step of encoder `k` when it is its turn. -/
def runEncoder (k : Nat) (s : State) : Host.Outcome State Fault Refusal :=
  match s.encs[k]? with
  | none => .refused .noSuchEngine
  | some e => .next (s.setEnc k (e.step s.cfg))

/-- The engine that moves when the agenda is empty: any choice that is fair to BUSY engines is allowed
(93_implementation_defined.md U15). DESIGN CHOICE, unsafe (notes/assumptions/4.md). -/
def State.idleMove (s : State) : Option Move :=
  match s.decs.findIdx? (fun d => decide (d.phase = .busy)) with
  | some k => some (.dec k)
  | none =>
    match s.encs.findIdx? (fun e => decide (e.phase = .busy)) with
    | some k => some (.enc k)
    | none => none

/-- The move to make now, if there is one. -/
def State.nextMove (s : State) : Option Move :=
  match s.agenda with
  | m :: _ => some m
  | [] => s.idleMove

/-- Makes a move. -/
def runMove (m : Move) (s : State) : Host.Outcome State Fault Refusal :=
  match m with
  | .enc k => runEncoder k s
  | .dec k => runDecoder k s
  | .host a => runHost a s

/-- Takes the first move off the agenda and makes it; with no move to make, nothing changes (10_state.md R31). -/
def runNext (s : State) : Host.Outcome State Fault Refusal :=
  match s.nextMove with
  | none => .next s
  | some m => runMove m { s with agenda := s.agenda.tail }

/-- The decoder with an instruction's bytes placed where its next chunk is fetched, and what that fetch needs: BUSY,
in BODY, no open run, a pixel still to produce, its own memory as DEC_IN and read as such, and the bytes inside the input (42_decoder.md
R204, R206). -/
def Decoder.withChunk (d : Decoder) (bytes : List Byte) : Decoder :=
  { d with
    phase := .busy, stage := .body, run := 0, n := max d.n (d.pix + 1),
    inLen := max d.inLen (d.pos + bytes.length), inputFrom := none, openStream := none,
    input := d.input.writeBytes d.pos bytes }

/-- The state whose next step is the pixel step of decoder 0 on the given bytes (notes/assumptions/15.md). -/
def State.withChunk (s : State) (bytes : List Byte) : State :=
  match s.decs with
  | [] => s
  | d :: ds => { s with decs := d.withChunk bytes :: ds, agenda := .dec 0 :: s.agenda }

end Sys2Proof.Machine
end

