-- ==== Sys2Proof/Machine/Step.lean ====
section
/-! DEFINITION. One step of the system, and how the host places an instruction where the next step fetches it. -/

namespace Sys2Proof.Machine

/-- One step: the next move of the agenda, or of a BUSY engine (Schedule.lean). -/
def step (s : State) : Host.Outcome State Fault Refusal := runNext s

/-- `s` with the instruction whose bits are `w` placed as the next chunk of decoder 0, which moves next
(notes/assumptions/15.md). -/
def State.withFetchWord (s : State) (nbits w : Nat) : State := s.withChunk (tableBytes nbits w)

end Sys2Proof.Machine
end

