-- ==== Sys2Proof/Safety.lean ====
section
/-! DEFINITION. The terms the claims are stated in: runs, whose turn it is, what a pixel step and an abort leave, which
encode requests are legal, and the invariants of the machine. -/

namespace Sys2Proof

/-- Every length up to `bound` fits the length registers: the host's duty of 92_eei_decisions.md D29. -/
def Config.fits (c : Config) (bound : Nat) : Prop := ∀ width, c.lenWidth = some width → bound < 2 ^ width

/-- `len` bytes from `addr` on have addresses of LEN_WIDTH bits (20_memory.md R70). -/
def Config.addressable (c : Config) (addr len : Nat) : Prop := ∀ width, c.lenWidth = some width → addr + len ≤ 2 ^ width

end Sys2Proof

namespace Sys2Proof.Machine

/-- `n` steps, stopping at the first fault or refusal (the host's `Core.run`, on this machine's own types). -/
def runSteps : Nat → State → Host.Outcome State Fault Refusal
  | 0, s => .next s
  | n + 1, s =>
    match step s with
    | .next t => runSteps n t
    | .fault r => .fault r
    | .refused r => .refused r

/-- The next step of `s` is a host read of `len` bytes that gives the same as in `s'`, and changes nothing but what the
host has read, the draw counter and the agenda. -/
def State.ReadsNothingOf (s s' : State) (len : Nat) : Prop :=
  ∃ t t', step s = .next t ∧ step s' = .next t' ∧ t.readBytes = t'.readBytes ∧ t.readBytes.length = len ∧
    t.draws = t'.draws ∧ { t with readBytes := s.readBytes, draws := s.draws, agenda := s.agenda } = s

/-- The next move is encoder `k`'s, and `e` is its state. -/
def State.encTurn (s : State) (k : Nat) (e : Encoder) : Prop :=
  s.nextMove = some (.enc k) ∧ s.encs[k]? = some e

/-- The next move is decoder `k`'s, and `d` is its state. -/
def State.decTurn (s : State) (k : Nat) (d : Decoder) : Prop :=
  s.nextMove = some (.dec k) ∧ s.decs[k]? = some d

/-- `s` after a step of encoder `k` that left it in state `e`. -/
def State.afterEnc (s : State) (k : Nat) (e : Encoder) : State :=
  { s with agenda := s.agenda.tail, encs := s.encs.set k e }

/-- `s` after a step of decoder `k` that left it in state `d`. -/
def State.afterDec (s : State) (k : Nat) (d : Decoder) : State :=
  { s with agenda := s.agenda.tail, cur := k, decs := s.decs.set k d }

/-- The BUSY engine takes a pixel step next (42_decoder.md R204). -/
def Decoder.atPixel (d : Decoder) : Prop := d.phase = .busy ∧ d.stage = .body ∧ d.pix < d.n

/-- The BUSY engine takes a pixel step next (41_encoder.md R164). -/
def Encoder.atPixel (e : Encoder) : Prop := e.phase = .busy ∧ e.stage = .body ∧ e.pix < e.n

/-- `d'` is `d` after a pixel step that produced `px` and left the run counter and the byte sequencer at `run` and `pos`
(42_decoder.md R213, R214): the pixel is in its cache slot, in d.prev and at its address of DEC_OUT; every other slot,
every other byte of DEC_OUT and every other register is as before. -/
def Decoder.Produces (d d' : Decoder) (px : Pixel) (run : BitVec 6) (pos : Nat) : Prop :=
  d'.prev = px ∧ d'.pix = d.pix + 1 ∧ d'.run = run ∧ d'.pos = pos ∧
  (∀ i : Slot, cacheRead d'.cache i = if i = hashOf px then px else cacheRead d.cache i) ∧
  d'.output.read d.pixelAddr = px.r ∧ d'.output.read (d.pixelAddr + 1) = px.g ∧
  d'.output.read (d.pixelAddr + 2) = px.b ∧ (d.ch = 4 → d'.output.read (d.pixelAddr + 3) = px.a) ∧
  (∀ a, a < d.pixelAddr ∨ d.pixelAddr + d.pixelBytes ≤ a → d'.output.read a = d.output.read a) ∧
  { d' with prev := d.prev, pix := d.pix, run := d.run, pos := d.pos, cache := d.cache, output := d.output } = d

/-- `d'` is `d` after an abort with `code`, as far as a claim may say (60_exceptions.md R260): the code, PHASE = ERROR,
DEC_OUT_LEN = DEC_CONSUMED = 0; no other interface register, no input byte and not the name of DEC_IN changes. The
internal registers (R261) and the bytes of the output buffer (20_memory.md R77) are left out, because no claim may read
them. -/
def Decoder.Aborts (d d' : Decoder) (code : ErrCode) : Prop :=
  d'.phase = .error ∧ d'.err = code ∧ d'.outLen = 0 ∧ d'.consumed = 0 ∧
  d'.regInLen = d.regInLen ∧ d'.outWidth = d.outWidth ∧ d'.outHeight = d.outHeight ∧
  d'.outChannels = d.outChannels ∧ d'.outColorspace = d.outColorspace ∧ d'.input = d.input ∧
  d'.inputFrom = d.inputFrom

/-- `e'` is `e` after an abort with `code`, as far as a claim may say (60_exceptions.md R260): the code, PHASE = ERROR,
ENC_OUT_LEN = 0; no other interface register and no input byte changes. The internal registers (R261) and the bytes of
the output buffer (20_memory.md R77) are left out, because no claim may read them. -/
def Encoder.Aborts (e e' : Encoder) (code : ErrCode) : Prop :=
  e'.phase = .error ∧ e'.err = code ∧ e'.outLen = 0 ∧
  e'.regWidth = e.regWidth ∧ e'.regHeight = e.regHeight ∧ e'.regChannels = e.regChannels ∧
  e'.regColorspace = e.regColorspace ∧ e'.regInLen = e.regInLen ∧ e'.input = e.input

/-- `e'` is `e` after `bytes` were appended to ENC_OUT (10_state.md R34): they stand from e.opos on, every other byte of
ENC_OUT is as before, and e.opos is past them. -/
def Encoder.Appends (e e' : Encoder) (bytes : List Byte) : Prop :=
  e'.opos = e.opos + bytes.length ∧ e'.output.readBytes e.opos bytes.length = bytes ∧
  ∀ a, a < e.opos ∨ e.opos + bytes.length ≤ a → e'.output.read a = e.output.read a

/-- `m'` is `m` after `bytes` were stored from `addr` on; every other byte is as before (00_scope.md R12). -/
def Memory.Stores (m m' : Memory) (addr : Nat) (bytes : List Byte) : Prop :=
  m'.readBytes addr bytes.length = bytes ∧ ∀ a, a < addr ∨ addr + bytes.length ≤ a → m'.read a = m.read a

/-- The big-endian 32-bit integer at an address (20_memory.md R73). -/
def be32At (m : Memory) (a : Nat) : Nat :=
  (m.read a).toNat * 2 ^ 24 + (m.read (a + 1)).toNat * 2 ^ 16 + (m.read (a + 2)).toNat * 2 ^ 8 + (m.read (a + 3)).toNat

/-- The pixel count that the header of the stream states (30_encoding.md R101). -/
def Memory.headerPixels (c : Config) (m : Memory) : Nat := be32At m (magicLen c) * be32At m (magicLen c + 4)

/-- The header is long enough and starts with MAGIC (42_decoder.md R202). -/
def Decoder.magicOk (c : Config) (m : Memory) (d : Decoder) : Prop :=
  hdrLen c ≤ d.inLen ∧ m.readBytes 0 (magicLen c) = c.magic

/-- The header's channels and colorspace are legal (30_encoding.md R104, R105). -/
def Memory.formatOk (c : Config) (m : Memory) : Prop :=
  (m.read (magicLen c + 8) = 3 ∨ m.read (magicLen c + 8) = 4) ∧
  (m.read (magicLen c + 9) = 0 ∨ m.read (magicLen c + 9) = 1)

/-- The header's dimensions are legal (30_encoding.md R103). -/
def Memory.dimensionsOk (c : Config) (m : Memory) : Prop :=
  be32At m (magicLen c) ≠ 0 ∧ be32At m (magicLen c + 4) ≠ 0 ∧
  ∀ most, c.maxPixels = some most → m.headerPixels c ≤ most

/-- The pixel step of decoder `k` in state `d` consumes a chunk of `len` bytes and produces `px`, leaving the run
counter at `run`; with fewer bytes left it aborts with TruncatedStream (42_decoder.md R206, R213). -/
def State.yields (s : State) (k : Nat) (d : Decoder) (len : Nat) (px : Pixel) (run : BitVec 6) : Prop :=
  (d.pos + len ≤ d.inLen → ∃ d', step s = .next (s.afterDec k d') ∧ d.Produces d' px run (d.pos + len)) ∧
  (d.inLen < d.pos + len → ∃ d', step s = .next (s.afterDec k d') ∧ d.Aborts d' .truncatedStream)

/-- The RUN chunk that closes an open run, if there is one (41_encoder.md R166, R174). -/
def Encoder.openRun (e : Encoder) : List Byte := if e.run = 0 then [] else [BitVec.ofNat 8 (0xC0 + (e.run.toNat - 1))]

/-- The latched request passes every check of the encoder's INIT (41_encoder.md R162). -/
def Encoder.legal (c : Config) (e : Encoder) : Prop :=
  (e.ch = 3 ∨ e.ch = 4) ∧ (e.cs = 0 ∨ e.cs = 1) ∧ e.w ≠ 0 ∧ e.h ≠ 0 ∧
  (∀ m, c.maxPixels = some m → e.w.toNat * e.h.toNat ≤ m) ∧ e.inLen = e.w.toNat * e.h.toNat * e.ch.toNat

/-- The size bound of a stream (41_encoder.md R175). -/
def streamBound (c : Config) (n ch : Nat) : Nat := hdrLen c + n * (ch + 1) + 8

/-- Every byte buffer is in its canonical form. -/
def State.memoryInv (s : State) : Prop :=
  (∀ e ∈ s.encs, e.input.wf = true ∧ e.output.wf = true) ∧ ∀ d ∈ s.decs, d.input.wf = true ∧ d.output.wf = true

/-- The slot invariant of 40_cache_hash.md R147 for one cache. -/
def slotsOk (cache : Cache) : Prop :=
  ∀ i : Slot, cacheRead cache i = Pixel.zero ∨ hashOf (cacheRead cache i) = i

/-- The slot invariant of 40_cache_hash.md R147 in every engine. -/
def State.slotInv (s : State) : Prop := (∀ e ∈ s.encs, slotsOk e.cache) ∧ ∀ d ∈ s.decs, slotsOk d.cache

/-- STATUS.ERR is 0 exactly outside ERROR, the length registers read 0 outside DONE (10_state.md R50, R52, R61), and only
in DONE has the host observed DONE (20_memory.md R82). -/
def State.statusInv (s : State) : Prop :=
  (∀ e ∈ s.encs, (e.err = .none ↔ e.phase ≠ .error) ∧ (e.phase ≠ .done → e.outLen = 0 ∧ e.observed = false)) ∧
  ∀ d ∈ s.decs,
    (d.err = .none ↔ d.phase ≠ .error) ∧ (d.phase ≠ .done → d.outLen = 0 ∧ d.consumed = 0 ∧ d.observed = false)

/-- The host has observed DONE on encoder `k` (20_memory.md R82, R86). -/
def State.observedDone (s : State) (k : Nat) : Prop := ∃ e, s.encs[k]? = some e ∧ e.phase = .done ∧ e.observed = true

/-- What holds of every shared memory (20_memory.md R82, R86): DEC_IN names the output of an encoder there is, and a
running decode reads it, and no open stream, only while the host has observed DONE on that encoder. -/
def State.sharedInv (s : State) : Prop :=
  ∀ d ∈ s.decs, ∀ k, d.inputFrom = some k → k < s.encs.length ∧ 
    (d.phase = .busy → d.openStream = none → s.observedDone k)

/-- A running encoder past INIT: what INIT checked still holds, the sequencer is in range (10_state.md R33), the run
counter is at most 61 (R36), and the bytes emitted are within the bounds from which 41_encoder.md R175 follows. -/
def Encoder.bodyInv (c : Config) (e : Encoder) : Prop :=
  e.legal c ∧ e.n = e.w.toNat * e.h.toNat ∧ e.pix ≤ e.n ∧ e.run.toNat ≤ 61 ∧ (e.ch = 3 → e.prev.a = 255) ∧
  hdrLen c ≤ e.opos ∧ e.opos + e.run.toNat ≤ hdrLen c + e.pix * (e.ch.toNat + 1) ∧
  e.pix ≤ 62 * (e.opos - hdrLen c) + e.run.toNat

/-- A finished encoder: the stream's length is published (10_state.md R34, R52) and within 41_encoder.md R175. -/
def Encoder.doneInv (c : Config) (e : Encoder) : Prop :=
  e.outLen = lengthRegister c e.opos ∧ e.opos ≤ streamBound c e.n e.ch.toNat ∧
  hdrLen c + (e.n + 61) / 62 + 8 ≤ e.opos

/-- A running decoder past INIT: what INIT checked still holds, the sequencers are in range (10_state.md R43, R44) and
the run counter is at most 61 (R42). -/
def Decoder.bodyInv (c : Config) (d : Decoder) : Prop :=
  (d.ch = 3 ∨ d.ch = 4) ∧ (d.cs = 0 ∨ d.cs = 1) ∧ d.w ≠ 0 ∧ d.h ≠ 0 ∧ d.n = d.w.toNat * d.h.toNat ∧
  (∀ m, c.maxPixels = some m → d.n ≤ m) ∧ d.pix ≤ d.n ∧ hdrLen c ≤ d.pos ∧ d.pos ≤ d.inLen ∧ d.run.toNat ≤ 61

/-- A finished decoder: the result registers show the header's fields and the lengths (10_state.md R57;
42_decoder.md R215, R216). -/
def Decoder.doneInv (c : Config) (d : Decoder) : Prop :=
  d.outWidth = d.w ∧ d.outHeight = d.h ∧ d.outChannels = d.ch ∧ d.outColorspace = d.cs ∧
  d.outLen = lengthRegister c (d.n * d.ch.toNat) ∧ d.consumed = lengthRegister c d.pos ∧ d.run = 0 ∧
  (d.ch = 3 ∨ d.ch = 4) ∧ (d.cs = 0 ∨ d.cs = 1) ∧ d.w ≠ 0 ∧ d.h ≠ 0 ∧ d.n = d.w.toNat * d.h.toNat ∧
  hdrLen c + 8 ≤ d.pos ∧ d.pos ≤ d.inLen ∧ (c.trailing = .reject → d.pos = d.inLen)

/-- Every engine's sequencers and results are as its phase and stage say. -/
def State.sequencerInv (s : State) : Prop :=
  (∀ e ∈ s.encs,
    (e.phase = .busy → e.stage = .body → e.bodyInv s.cfg) ∧ (e.phase = .done → e.doneInv s.cfg)) ∧
  ∀ d ∈ s.decs,
    (d.phase = .busy → d.stage = .body → d.bodyInv s.cfg) ∧ (d.phase = .done → d.doneInv s.cfg)

end Sys2Proof.Machine
end

