-- ==== Sys2Proof/Certificates/Slice0/Obligations.lean ====
section
/-! DEFINITION. The statements for the provers, one per entry of OBLIGATIONS.json, in its order. -/

open Sys2Proof Sys2Proof.Machine

/-! ### The chunk grammar -/

/-- 30_encoding.md R109 to R114: decoding an encoded chunk gives the chunk back and leaves the bytes after it. -/
def Obligations.DecodeOfEncode : Prop :=
  ∀ (t : TagAssignment) (i : Instr) (rest : List Byte),
    i.wellFormed = true → decode t (encode t i ++ rest) = .ok (i, rest)

/-- 30_encoding.md R117, 42_decoder.md R220: what the decoder reads is well-formed and has no other encoding than the
bytes it was read from. -/
def Obligations.EncodeOfDecode : Prop :=
  ∀ (t : TagAssignment) (bytes : List Byte) (i : Instr) (rest : List Byte),
    decode t bytes = .ok (i, rest) → i.wellFormed = true ∧ bytes = encode t i ++ rest

/-- 30_encoding.md R116: the first byte alone fixes the length; a chunk is rejected only where its bytes run out. -/
def Obligations.FirstByteFixesLength : Prop :=
  ∀ (t : TagAssignment) (b : Byte) (rest : List Byte),
    (let len := if b = tagRgb t then 4 else if b = tagRgba t then 5 else if b.toNat / 64 = 2 then 2 else 1
     if len ≤ rest.length + 1 then ∃ i tail, decode t (b :: rest) = .ok (i, tail) ∧ tail = (b :: rest).drop len
     else decode t (b :: rest) = .error .incomplete) ∧
    decode t [] = .error .noBytes

/-- 30_encoding.md R108: the opcode map by first-byte value, operands included, for both tag assignments. -/
def Obligations.OpcodeMapByValue : Prop :=
  ∀ (t : TagAssignment) (b c r g bl a : Byte) (rest : List Byte),
    (b.toNat ≤ 0x3F → decode t (b :: rest) = .ok (.index (BitVec.ofNat 6 b.toNat), rest)) ∧
    (0x40 ≤ b.toNat ∧ b.toNat ≤ 0x7F →
      decode t (b :: rest) =
        .ok (.diff (((b.toNat / 16 % 4 : Nat) : Int) - 2) (((b.toNat / 4 % 4 : Nat) : Int) - 2)
          (((b.toNat % 4 : Nat) : Int) - 2), rest)) ∧
    (0x80 ≤ b.toNat ∧ b.toNat ≤ 0xBF →
      decode t (b :: c :: rest) =
        .ok (.luma (((b.toNat % 64 : Nat) : Int) - 32) (((c.toNat / 16 : Nat) : Int) - 8)
          (((c.toNat % 16 : Nat) : Int) - 8), rest)) ∧
    (0xC0 ≤ b.toNat ∧ b.toNat ≤ 0xFD → decode t (b :: rest) = .ok (.run (b.toNat - 0xC0 + 1), rest)) ∧
    decode .source (0xFE :: r :: g :: bl :: a :: rest) = .ok (.rgba r g bl a, rest) ∧
    decode .source (0xFF :: r :: g :: bl :: rest) = .ok (.rgb r g bl, rest) ∧
    decode .swapped (0xFE :: r :: g :: bl :: rest) = .ok (.rgb r g bl, rest) ∧
    decode .swapped (0xFF :: r :: g :: bl :: a :: rest) = .ok (.rgba r g bl a, rest)

/-- 30_encoding.md R109 to R114, the encode side, in arithmetic on the byte values. -/
def Obligations.ChunkBytesByArithmetic : Prop :=
  ∀ t : TagAssignment,
    (∀ i : Slot, (encode t (.index i)).map BitVec.toNat = [i.toNat]) ∧
    (∀ dr dg db : Int, (Instr.diff dr dg db).wellFormed = true →
      (encode t (.diff dr dg db)).map (fun b => (b.toNat : Int)) =
        [0x40 + 16 * (dr + 2) + 4 * (dg + 2) + (db + 2)]) ∧
    (∀ dg drDg dbDg : Int, (Instr.luma dg drDg dbDg).wellFormed = true →
      (encode t (.luma dg drDg dbDg)).map (fun b => (b.toNat : Int)) =
        [0x80 + (dg + 32), 16 * (drDg + 8) + (dbDg + 8)]) ∧
    (∀ n : Nat, (Instr.run n).wellFormed = true → (encode t (.run n)).map BitVec.toNat = [0xC0 + (n - 1)]) ∧
    (∀ r g b : Byte, encode t (.rgb r g b) = [tagRgb t, r, g, b]) ∧
    (∀ r g b a : Byte, encode t (.rgba r g b a) = [tagRgba t, r, g, b, a])

/-- Chunk bytes written out from 30_encoding.md R109 to R114, one or more for each chunk type. -/
def Obligations.SpecWordsDecode : Prop :=
  decode .source [0b00110101] = .ok (.index 53, []) ∧
  decode .source [0b01111100] = .ok (.diff 1 1 (-2), []) ∧
  decode .source [0b10100000, 0b10101000] = .ok (.luma 0 2 0, []) ∧
  decode .source [0b11000010] = .ok (.run 3, []) ∧
  decode .source [0b11111101] = .ok (.run 62, []) ∧
  decode .source [0b11111111, 10, 11, 12] = .ok (.rgb 10 11 12, []) ∧
  decode .source [0b11111110, 1, 2, 3, 64] = .ok (.rgba 1 2 3 64, []) ∧
  decodeTableWord 8 0x35 = some (.index 53) ∧
  decodeTableWord 16 0xA8A0 = some (.luma 0 2 0) ∧
  decodeTableWord 40 0x40030201FE = some (.rgba 1 2 3 64)

/-- 40_cache_hash.md R141: the hash, its range, and the corner cases the rule gives. -/
def Obligations.HashIsSumModSixtyFour : Prop :=
  (∀ px : Pixel, (hashOf px).toNat = (px.r.toNat * 3 + px.g.toNat * 5 + px.b.toNat * 7 + px.a.toNat * 11) % 64 ∧
    px.r.toNat * 3 + px.g.toNat * 5 + px.b.toNat * 7 + px.a.toNat * 11 ≤ 6630) ∧
  hashOf ⟨0, 0, 0, 0⟩ = 0 ∧ hashOf ⟨0, 0, 0, 255⟩ = 53 ∧ hashOf ⟨255, 255, 255, 255⟩ = 38 ∧ hashOf ⟨3, 1, 254, 255⟩ = 53 ∧
  hashOf ⟨1, 2, 3, 4⟩ = 14

/-! ### What each chunk does -/

/-- 42_decoder.md R207, R208, with the PixelCommit of R213: RGB and RGBA complete, and change nothing else. -/
def Obligations.RawChunksComplete : Prop :=
  ∀ (s : State) (d : Decoder), s.decs[s.cur]? = some d →
    (∀ r g b : Byte, ∃ d', exec (.rgb r g b) s = .next (s.setDec s.cur d') ∧
      d.Produces d' ⟨r, g, b, d.prev.a⟩ d.run d.pos) ∧
    (∀ r g b a : Byte, ∃ d', exec (.rgba r g b a) s = .next (s.setDec s.cur d') ∧
      d.Produces d' ⟨r, g, b, a⟩ d.run d.pos)

/-- 42_decoder.md R210, R211, with the PixelCommit of R213: DIFF and LUMA complete, and change nothing else. -/
def Obligations.DeltaChunksComplete : Prop :=
  ∀ (s : State) (d : Decoder), s.decs[s.cur]? = some d →
    (∀ dr dg db : Int, ∃ d' px, exec (.diff dr dg db) s = .next (s.setDec s.cur d') ∧
      d.Produces d' px d.run d.pos ∧ px.a = d.prev.a ∧
      (px.r.toNat : Int) = (d.prev.r.toNat + dr) % 256 ∧ (px.g.toNat : Int) = (d.prev.g.toNat + dg) % 256 ∧
      (px.b.toNat : Int) = (d.prev.b.toNat + db) % 256) ∧
    (∀ dg drDg dbDg : Int, ∃ d' px, exec (.luma dg drDg dbDg) s = .next (s.setDec s.cur d') ∧
      d.Produces d' px d.run d.pos ∧ px.a = d.prev.a ∧
      (px.r.toNat : Int) = (d.prev.r.toNat + dg + drDg) % 256 ∧ (px.g.toNat : Int) = (d.prev.g.toNat + dg) % 256 ∧
      (px.b.toNat : Int) = (d.prev.b.toNat + dg + dbDg) % 256)

/-- 42_decoder.md R209, R212, with the PixelCommit of R213: INDEX and RUN complete, and change nothing else. -/
def Obligations.CachedChunksComplete : Prop :=
  ∀ (s : State) (d : Decoder), s.decs[s.cur]? = some d →
    (∀ i : Slot, ∃ d', exec (.index i) s = .next (s.setDec s.cur d') ∧
      d.Produces d' (cacheRead d.cache i) d.run d.pos) ∧
    (∀ n : Nat, 1 ≤ n → n ≤ 62 → ∃ d' run, exec (.run n) s = .next (s.setDec s.cur d') ∧
      d.Produces d' d.prev run d.pos ∧ run.toNat = n - 1)

/-- The model's own stop (notes/assumptions/13.md): a chunk runs only on a decoder the system has (60_exceptions.md
R268). -/
def Obligations.ChunkNeedsADecoder : Prop :=
  ∀ (i : Instr) (s : State), s.decs[s.cur]? = none → exec i s = .refused .noSuchEngine

/-! ### The decoder's steps -/

/-- 42_decoder.md R204, R206: when the bytes left in DEC_IN decode to `i`, the pixel step is exec of `i`, with d.pos past
the chunk. `s.afterDec` takes the move off the agenda and says whose step it is. -/
def Obligations.StepRunsDecodedChunk : Prop :=
  ∀ (s : State) (k : Nat) (d : Decoder) (i : Instr) (rest : List Byte),
    s.decTurn k d → d.atPixel → d.run = 0 →
    decode s.cfg.tags ((s.decStream d).readBytes d.pos (d.inLen - d.pos)) = .ok (i, rest) →
    step s = exec i (s.afterDec k { d with pos := d.inLen - rest.length })

/-- 42_decoder.md R206, 60_exceptions.md R254 and R260: when they do not, the pixel step aborts with TruncatedStream. -/
def Obligations.IncompleteChunkAborts : Prop :=
  ∀ (s : State) (k : Nat) (d : Decoder) (r : DecodeError),
    s.decTurn k d → d.atPixel → d.run = 0 →
    decode s.cfg.tags ((s.decStream d).readBytes d.pos (d.inLen - d.pos)) = .error r →
    ∃ d', step s = .next (s.afterDec k d') ∧ d.Aborts d' .truncatedStream

/-- 42_decoder.md R205: an open run gives the previous pixel again, consumes no byte and counts down. -/
def Obligations.OpenRunReplays : Prop :=
  ∀ (s : State) (k : Nat) (d : Decoder), s.decTurn k d → d.atPixel → d.run ≠ 0 →
    ∃ d' run, step s = .next (s.afterDec k d') ∧ d.Produces d' d.prev run d.pos ∧ run.toNat = d.run.toNat - 1

/-- 42_decoder.md R204 to R213 on the bytes of the stream: for every first byte, the pixel the decoder's step produces,
the bytes it consumes and the run it opens, in byte arithmetic alone; or the abort where the bytes run out. -/
def Obligations.PixelStepByBytes : Prop :=
  ∀ (s : State) (k : Nat) (d : Decoder), s.decTurn k d → d.atPixel → d.run = 0 →
    let at_ := fun i => (s.decStream d).read (d.pos + i)
    let b := at_ 0
    let p := d.prev
    (b = tagRgb s.cfg.tags → s.yields k d 4 ⟨at_ 1, at_ 2, at_ 3, p.a⟩ 0) ∧
    (b = tagRgba s.cfg.tags → s.yields k d 5 ⟨at_ 1, at_ 2, at_ 3, at_ 4⟩ 0) ∧
    (b.toNat < 0x40 → s.yields k d 1 (cacheRead d.cache (BitVec.ofNat 6 b.toNat)) 0) ∧
    (0x40 ≤ b.toNat ∧ b.toNat < 0x80 →
      s.yields k d 1
        ⟨p.r + BitVec.ofNat 8 (b.toNat / 16 % 4) - 2, p.g + BitVec.ofNat 8 (b.toNat / 4 % 4) - 2,
          p.b + BitVec.ofNat 8 (b.toNat % 4) - 2, p.a⟩ 0) ∧
    (0x80 ≤ b.toNat ∧ b.toNat < 0xC0 →
      let dg := BitVec.ofNat 8 (b.toNat % 64) - 32
      s.yields k d 2
        ⟨p.r + dg + BitVec.ofNat 8 ((at_ 1).toNat / 16) - 8, p.g + dg,
          p.b + dg + BitVec.ofNat 8 ((at_ 1).toNat % 16) - 8, p.a⟩ 0) ∧
    (0xC0 ≤ b.toNat ∧ b.toNat < 0xFE → s.yields k d 1 p (BitVec.ofNat 6 (b.toNat - 0xC0)))

/-- 42_decoder.md R202, R203, with the order of 60_exceptions.md R258: the INIT step's checks and what it leaves. -/
def Obligations.DecoderInitStep : Prop :=
  ∀ (s : State) (k : Nat) (d : Decoder), s.decTurn k d → d.phase = .busy → d.stage = .init →
    let m := s.decStream d
    ∃ d', step s = .next (s.afterDec k d') ∧
      (d.inLen < hdrLen s.cfg → d.Aborts d' .truncatedHeader) ∧
      (hdrLen s.cfg ≤ d.inLen → ¬d.magicOk s.cfg m → d.Aborts d' .badMagic) ∧
      (d.magicOk s.cfg m → ¬m.formatOk s.cfg → d.Aborts d' .invalidChannelOrColorspace) ∧
      (d.magicOk s.cfg m → m.formatOk s.cfg → ¬m.dimensionsOk s.cfg → d.Aborts d' .invalidDimensions) ∧
      (d.magicOk s.cfg m → m.formatOk s.cfg → m.dimensionsOk s.cfg →
        d'.w.toNat = be32At m (magicLen s.cfg) ∧ d'.h.toNat = be32At m (magicLen s.cfg + 4) ∧
        d'.ch = m.read (magicLen s.cfg + 8) ∧ d'.cs = m.read (magicLen s.cfg + 9) ∧
        d'.n = m.headerPixels s.cfg ∧ (∀ i : Slot, cacheRead d'.cache i = ⟨0, 0, 0, 0⟩) ∧
        d'.prev = ⟨0, 0, 0, 255⟩ ∧ d'.run = 0 ∧ d'.pix = 0 ∧ d'.pos = magicLen s.cfg + 10 ∧ d'.stage = .body ∧
        { d' with
          w := d.w, h := d.h, ch := d.ch, cs := d.cs, n := d.n, cache := d.cache, prev := d.prev, run := d.run,
          pix := d.pix, pos := d.pos, stage := d.stage } = d)

/-- 42_decoder.md R215, with the order of 60_exceptions.md R258: the FINAL step's checks and what it publishes. -/
def Obligations.DecoderFinalStep : Prop :=
  ∀ (s : State) (k : Nat) (d : Decoder),
    s.decTurn k d → d.phase = .busy → d.stage = .body → d.pix = d.n →
    let m := s.decStream d
    ∃ d', step s = .next (s.afterDec k d') ∧
      (d.inLen < d.pos + 8 → d.Aborts d' .truncatedStream) ∧
      (d.pos + 8 ≤ d.inLen → m.readBytes d.pos 8 ≠ [0, 0, 0, 0, 0, 0, 0, 1] → d.Aborts d' .missingEndMarker) ∧
      (d.pos + 8 ≤ d.inLen → m.readBytes d.pos 8 = [0, 0, 0, 0, 0, 0, 0, 1] → s.cfg.trailing = .reject →
        d.pos + 8 ≠ d.inLen → d.Aborts d' .trailingBytes) ∧
      (d.pos + 8 ≤ d.inLen → m.readBytes d.pos 8 = [0, 0, 0, 0, 0, 0, 0, 1] →
        (s.cfg.trailing = .reject → d.pos + 8 = d.inLen) →
        (s.cfg.fits (d.n * d.ch.toNat) → d'.outLen = d.n * d.ch.toNat) ∧
        (s.cfg.fits (d.pos + 8) → d'.consumed = d.pos + 8) ∧
        { d' with outLen := d.outLen, consumed := d.consumed } = { d with
          pos := d.pos + 8, run := 0, outWidth := d.w, outHeight := d.h, outChannels := d.ch, outColorspace := d.cs,
          phase := .done })

/-! ### The encoder's steps -/

/-- 41_encoder.md R162: the INIT step's checks, the header it emits and the registers it leaves. -/
def Obligations.EncoderInitStep : Prop :=
  ∀ (s : State) (k : Nat) (e : Encoder), s.encTurn k e → e.phase = .busy → e.stage = .init →
    ∃ e', step s = .next (s.afterEnc k e') ∧
      (¬((e.ch = 3 ∨ e.ch = 4) ∧ (e.cs = 0 ∨ e.cs = 1)) → e.Aborts e' .invalidChannelOrColorspace) ∧
      ((e.ch = 3 ∨ e.ch = 4) ∧ (e.cs = 0 ∨ e.cs = 1) → ¬e.legal s.cfg → e.Aborts e' .shapeMismatch) ∧
      (e.legal s.cfg →
        e'.output.readBytes 0 (magicLen s.cfg) = s.cfg.magic ∧
        be32At e'.output (magicLen s.cfg) = e.w.toNat ∧ be32At e'.output (magicLen s.cfg + 4) = e.h.toNat ∧
        e'.output.read (magicLen s.cfg + 8) = e.ch ∧ e'.output.read (magicLen s.cfg + 9) = e.cs ∧
        (∀ a, magicLen s.cfg + 10 ≤ a → e'.output.read a = e.output.read a) ∧
        e'.n = e.w.toNat * e.h.toNat ∧ (∀ i : Slot, cacheRead e'.cache i = ⟨0, 0, 0, 0⟩) ∧
        e'.prev = ⟨0, 0, 0, 255⟩ ∧ e'.run = 0 ∧ e'.pix = 0 ∧ e'.opos = magicLen s.cfg + 10 ∧ e'.stage = .body ∧
        { e' with
          n := e.n, cache := e.cache, prev := e.prev, run := e.run, pix := e.pix, opos := e.opos, stage := e.stage,
          output := e.output } = e)

/-- 41_encoder.md R163, 20_memory.md R72: where the encoder's next pixel stands in ENC_IN. -/
def Obligations.EncoderReadsPixelLayout : Prop :=
  ∀ (e : Encoder) (i : Nat),
    (e.ch = 4 → e.readPixel i =
      ⟨e.input.read (i * 4), e.input.read (i * 4 + 1), e.input.read (i * 4 + 2), e.input.read (i * 4 + 3)⟩) ∧
    (e.ch ≠ 4 → e.readPixel i =
      ⟨e.input.read (i * e.ch.toNat), e.input.read (i * e.ch.toNat + 1), e.input.read (i * e.ch.toNat + 2), 255⟩)

/-- 41_encoder.md R165: a pixel that repeats the previous one counts up the run, which is flushed at 62; the cache is
written only under ENC_CACHE_ON_RUN. -/
def Obligations.EncoderContinuesRun : Prop :=
  ∀ (s : State) (k : Nat) (e : Encoder),
    s.encTurn k e → e.atPixel → e.run.toNat ≤ 61 → e.readPixel e.pix = e.prev →
    ∃ e', step s = .next (s.afterEnc k e') ∧
      (e.run.toNat < 61 → e'.run.toNat = e.run.toNat + 1 ∧ e.Appends e' []) ∧
      (e.run.toNat = 61 → e'.run = 0 ∧ e.Appends e' [0xFD]) ∧
      (∀ i : Slot, cacheRead e'.cache i =
        if s.cfg.encCacheOnRun = true ∧ i = hashOf e.prev then e.prev else cacheRead e.cache i) ∧
      e'.pix = e.pix + 1 ∧
      { e' with run := e.run, pix := e.pix, cache := e.cache, opos := e.opos, output := e.output } = e

/-- 41_encoder.md R164, R166 to R173: a pixel that differs closes the open run and is emitted, byte for byte, as the first
chunk type whose test it passes, then goes to the cache and to e.prev. The deltas are the signed values of the byte
differences (R168). -/
def Obligations.EncoderEmitsChunk : Prop :=
  ∀ (s : State) (k : Nat) (e : Encoder), s.encTurn k e → e.atPixel → e.readPixel e.pix ≠ e.prev →
    let px := e.readPixel e.pix
    let dr := (px.r - e.prev.r).toInt
    let dg := (px.g - e.prev.g).toInt
    let db := (px.b - e.prev.b).toInt
    let hit := cacheRead e.cache (hashOf px) = px
    let small := (-2 ≤ dr ∧ dr ≤ 1) ∧ (-2 ≤ dg ∧ dg ≤ 1) ∧ (-2 ≤ db ∧ db ≤ 1)
    let middle := (-32 ≤ dg ∧ dg ≤ 31) ∧ (-8 ≤ dr - dg ∧ dr - dg ≤ 7) ∧ (-8 ≤ db - dg ∧ db - dg ≤ 7)
    ∃ e' chunk, step s = .next (s.afterEnc k e') ∧ e.Appends e' (e.openRun ++ chunk) ∧
      (hit → chunk = [BitVec.ofNat 8 (hashOf px).toNat]) ∧
      (¬hit → px.a = e.prev.a → small → chunk = [BitVec.ofInt 8 (0x40 + 16 * (dr + 2) + 4 * (dg + 2) + (db + 2))]) ∧
      (¬hit → px.a = e.prev.a → ¬small → middle →
        chunk = [BitVec.ofInt 8 (0x80 + (dg + 32)), BitVec.ofInt 8 (16 * (dr - dg + 8) + (db - dg + 8))]) ∧
      (¬hit → px.a = e.prev.a → ¬small → ¬middle → chunk = [tagRgb s.cfg.tags, px.r, px.g, px.b]) ∧
      (¬hit → px.a ≠ e.prev.a → chunk = [tagRgba s.cfg.tags, px.r, px.g, px.b, px.a]) ∧
      (∀ j : Slot, cacheRead e'.cache j = if j = hashOf px then px else cacheRead e.cache j) ∧
      e'.run = 0 ∧ e'.prev = px ∧ e'.pix = e.pix + 1 ∧
      { e' with
        run := e.run, prev := e.prev, pix := e.pix, cache := e.cache, opos := e.opos, output := e.output } = e

/-- 41_encoder.md R174: the FINAL step flushes the open run, appends the end marker and publishes the length. -/
def Obligations.EncoderFinalStep : Prop :=
  ∀ (s : State) (k : Nat) (e : Encoder),
    s.encTurn k e → e.phase = .busy → e.stage = .body → e.pix = e.n →
    ∃ e', step s = .next (s.afterEnc k e') ∧ e.Appends e' (e.openRun ++ [0, 0, 0, 0, 0, 0, 0, 1]) ∧
      (s.cfg.fits e'.opos → e'.outLen = e'.opos) ∧ e'.run = 0 ∧ e'.phase = .done ∧
      { e' with run := e.run, opos := e.opos, output := e.output, outLen := e.outLen, phase := e.phase } = e

/-- 41_encoder.md R164 to R172 against 42_decoder.md R207 to R213: the chunk the encoder chooses for a pixel, executed by
a decoder with the same previous pixel and the same cache slot, produces that pixel. -/
def Obligations.ChosenChunkProducesPixel : Prop :=
  ∀ (s : State) (d : Decoder) (px : Pixel), s.decs[s.cur]? = some d →
    ∃ d', exec (chooseChunk px d.prev (cacheRead d.cache (hashOf px))) s = .next (s.setDec s.cur d') ∧
      d.Produces d' px d.run d.pos

/-- 30_encoding.md R118, R109 to R114: the chunk chosen for a pixel that differs from the previous one has an encoding,
is no RUN, and is none of the non-canonical chunks of R118's list (its entries on RUN chunks and on whole images are about
sequences of chunks and not stated here). The deltas are the signed values of the byte differences (41_encoder.md R168). -/
def Obligations.ChosenChunkIsCanonical : Prop :=
  ∀ (px prev slotPixel : Pixel), px ≠ prev →
    let dr := (px.r - prev.r).toInt
    let dg := (px.g - prev.g).toInt
    let db := (px.b - prev.b).toInt
    (chooseChunk px prev slotPixel).wellFormed = true ∧
    (∀ n, chooseChunk px prev slotPixel ≠ .run n) ∧
    chooseChunk px prev slotPixel ≠ .diff 0 0 0 ∧
    (∀ g rg bg, chooseChunk px prev slotPixel = .luma g rg bg →
      (Instr.diff (g + rg) g (g + bg)).wellFormed = false) ∧
    (∀ r g b, chooseChunk px prev slotPixel = .rgb r g b → slotPixel ≠ px ∧
      (Instr.diff dr dg db).wellFormed = false ∧ (Instr.luma dg (dr - dg) (db - dg)).wellFormed = false) ∧
    (∀ r g b a, chooseChunk px prev slotPixel = .rgba r g b a → slotPixel ≠ px ∧ a ≠ prev.a) ∧
    (∀ i, chooseChunk px prev slotPixel = .index i → i = hashOf slotPixel ∧ slotPixel = px)

/-! ### The host's moves -/

/-- 10_state.md R31, R50, R55, 60_exceptions.md R250: the STATUS word and its numbers. -/
def Obligations.StatusWordLayout : Prop :=
  (∀ p e, (statusWord p e).toNat = 16 * (errCode e).toNat + (phaseCode p).toNat) ∧
  [Phase.idle, .busy, .done, .error].map (fun p => (phaseCode p).toNat) = [0, 1, 2, 3] ∧
  [ErrCode.none, .shapeMismatch, .truncatedHeader, .invalidChannelOrColorspace, .truncatedStream, .missingEndMarker,
    .badMagic, .invalidDimensions, .trailingBytes].map (fun e => (errCode e).toNat) = [0, 1, 2, 3, 4, 5, 6, 7, 8]

/-- 10_state.md R49, R63: START of an encoder latches the request; in BUSY, and with bit 0 clear, nothing changes. What a
BUSY decoder whose DEC_IN names the output reads from then on, which nothing orders with the encode (20_memory.md R82,
R83), is the model's free value, whatever the buffers hold (notes/assumptions/14.md). -/
def Obligations.EncoderStart : Prop :=
  ∀ (s : State) (k v : Nat) (e : Encoder),
    s.nextMove = some (.host (.writeEncReg k 0 v)) → s.encs[k]? = some e →
    (v % 2 = 1 → e.phase ≠ .busy →
      ∃ decs draws, step s = .next { s.afterEnc k { e with
          w := e.regWidth, h := e.regHeight, ch := e.regChannels, cs := e.regColorspace, inLen := e.regInLen,
          err := .none, stage := .init, phase := .busy, outLen := 0, observed := false } with
          decs := decs, draws := draws } ∧
        ((∀ d ∈ s.decs, d.inputFrom = some k → d.phase ≠ .busy) → decs = s.decs ∧ draws = s.draws) ∧
        decs.length = s.decs.length ∧
        ∀ (j : Nat) (d d' : Decoder), s.decs[j]? = some d → decs[j]? = some d' →
          { d' with openStream := d.openStream } = d ∧
          (d.phase ≠ .busy ∨ d.inputFrom ≠ some k → d' = d) ∧
          (d.phase = .busy → d.inputFrom = some k → ∀ u u' : State, u.decStream d' = u'.decStream d')) ∧
    (v % 2 = 0 ∨ e.phase = .busy → step s = .next (s.afterEnc k e))

/-- 10_state.md R54, R63: START of a decoder latches the length; in BUSY, and with bit 0 clear, nothing changes. The decode
reads the memory that DEC_IN names; but where that is the output of an encoder on which the host has not observed DONE
(20_memory.md R77, R82; 93_implementation_defined.md U2), the model's free values, whatever the buffers hold
(notes/assumptions/14.md), bytes that the host wrote there among them (the model's choice, notes/assumptions/24.md). -/
def Obligations.DecoderStart : Prop :=
  ∀ (s : State) (j v : Nat) (d : Decoder),
    s.nextMove = some (.host (.writeDecReg j 0 v)) → s.decs[j]? = some d →
    (v % 2 = 1 → d.phase ≠ .busy →
      ∃ d' draws, step s = .next { s with
          agenda := s.agenda.tail, decs := s.decs.set j d', draws := draws } ∧
        { d' with openStream := d.openStream } = { d with
          inLen := d.regInLen, err := .none, stage := .init, phase := .busy, outLen := 0, consumed := 0,
          observed := false } ∧
        ((∀ k, d.inputFrom = some k → s.observedDone k) → s.decStream d' = s.decInput d ∧ draws = s.draws) ∧
        ∀ k e, d.inputFrom = some k → s.encs[k]? = some e → (e.phase ≠ .done ∨ e.observed = false) →
          ∀ u u' : State, u.decStream d' = u'.decStream d') ∧
    (v % 2 = 0 ∨ d.phase = .busy → step s = .next { s with agenda := s.agenda.tail })

/-- 10_state.md R48, R51, R62: a write to an encoder register other than ENC_CTRL, in any phase, is stored where the
register is writable and has no other effect. -/
def Obligations.EncoderRegisterWrite : Prop :=
  ∀ (s : State) (k reg v : Nat) (e : Encoder),
    s.nextMove = some (.host (.writeEncReg k reg v)) → s.encs[k]? = some e → reg ≠ 0 →
    ∃ e', step s = .next (s.afterEnc k e') ∧
      (∀ j, j ≠ reg → e'.readReg j = e.readReg j) ∧
      ((reg = 2 ∨ reg = 3) → v < 2 ^ 32 → e'.readReg reg = some v) ∧
      ((reg = 4 ∨ reg = 5) → v < 2 ^ 8 → e'.readReg reg = some v) ∧
      (reg = 6 → s.cfg.fits v → e'.readReg reg = some v) ∧
      (reg = 1 ∨ 7 ≤ reg → e' = e) ∧
      { e' with
        regWidth := e.regWidth, regHeight := e.regHeight, regChannels := e.regChannels,
        regColorspace := e.regColorspace, regInLen := e.regInLen } = e

/-- 10_state.md R53, R57, R62: a write to a decoder register other than DEC_CTRL, in any phase, is stored in DEC_IN_LEN
and has no effect elsewhere. -/
def Obligations.DecoderRegisterWrite : Prop :=
  ∀ (s : State) (k reg v : Nat) (d : Decoder),
    s.nextMove = some (.host (.writeDecReg k reg v)) → s.decs[k]? = some d → reg ≠ 0 →
    ∃ d', step s = .next { s with agenda := s.agenda.tail, decs := s.decs.set k d' } ∧
      (reg = 2 → s.cfg.fits v → d'.readReg 2 = some v) ∧ (reg ≠ 2 → d' = d) ∧
      { d' with regInLen := d.regInLen } = d

/-- 10_state.md R62, R287: a register write other than START and an engine's step, in either order, come to the same
state, so the running operation does not see the write. -/
def Obligations.RegisterWriteCommutesWithStep : Prop :=
  (∀ (s : State) (k reg v : Nat) (e : Encoder), s.encs[k]? = some e → reg ≠ 0 →
    runSteps 2 { s with agenda := [.host (.writeEncReg k reg v), .enc k] } =
      runSteps 2 { s with agenda := [.enc k, .host (.writeEncReg k reg v)] }) ∧
  (∀ (s : State) (k reg v : Nat) (d : Decoder), s.decs[k]? = some d → reg ≠ 0 →
    runSteps 2 { s with agenda := [.host (.writeDecReg k reg v), .dec k] } =
      runSteps 2 { s with agenda := [.dec k, .host (.writeDecReg k reg v)] })

/-- 10_state.md R48, R50, R52, R53, R55, R57: what the host reads from the registers of either engine, and that a read
changes nothing but what the host has read, and that it has observed DONE if it read STATUS in DONE (20_memory.md R82).
That in DONE the result and length registers show their content also before the host has observed DONE is the model's
reading of R52, R53 and R61 against R82 (notes/assumptions/22.md). -/
def Obligations.RegisterReads : Prop :=
  (∀ (s : State) (k reg : Nat) (e : Encoder),
    s.nextMove = some (.host (.readEncReg k reg)) → s.encs[k]? = some e → reg ≤ 7 →
    step s = .next { s with
      agenda := s.agenda.tail
      encs := s.encs.set k { e with observed := e.observed || decide (reg = 1 ∧ e.phase = .done) }
      readData := [0, (statusWord e.phase e.err).toNat, e.regWidth.toNat, e.regHeight.toNat, e.regChannels.toNat,
        e.regColorspace.toNat, e.regInLen, e.outLen].getD reg 0 }) ∧
  (∀ (s : State) (k reg : Nat) (d : Decoder),
    s.nextMove = some (.host (.readDecReg k reg)) → s.decs[k]? = some d → reg ≤ 8 →
    (d.phase = .done ∨ reg ≤ 2 ∨ 7 ≤ reg) →
    step s = .next { s with
      agenda := s.agenda.tail
      decs := s.decs.set k { d with observed := d.observed || decide (reg = 1 ∧ d.phase = .done) }
      readData := [0, (statusWord d.phase d.err).toNat, d.regInLen, d.outWidth.toNat, d.outHeight.toNat,
        d.outChannels.toNat, d.outColorspace.toNat, d.outLen, d.consumed].getD reg 0 })

/-- 10_state.md R48, R53, 93_implementation_defined.md U6: a read of a reserved register number gives a free value. -/
def Obligations.ReservedReadsAreFree : Prop :=
  (∀ (s : State) (k reg : Nat) (e : Encoder),
    s.nextMove = some (.host (.readEncReg k reg)) → s.encs[k]? = some e → 8 ≤ reg →
    step s = .next { s with
      agenda := s.agenda.tail, readData := Config.freeNat s.draws, draws := s.draws + 1 }) ∧
  (∀ (s : State) (k reg : Nat) (d : Decoder),
    s.nextMove = some (.host (.readDecReg k reg)) → s.decs[k]? = some d → 9 ≤ reg →
    step s = .next { s with
      agenda := s.agenda.tail, readData := Config.freeNat s.draws, draws := s.draws + 1 })

/-- 10_state.md R61, R286: outside DONE the host's read of a descriptor result register learns nothing of its content, and
changes nothing but what the host has read, the draw counter and the agenda. -/
def Obligations.EarlyResultReadLearnsNothing : Prop :=
  ∀ (s : State) (k reg : Nat) (d : Decoder) (w h : Word32) (ch cs : Byte),
    s.nextMove = some (.host (.readDecReg k reg)) → s.decs[k]? = some d → d.phase ≠ .done →
    3 ≤ reg → reg ≤ 6 →
    ∃ t t', step s = .next t ∧
      step (s.setDec k { d with outWidth := w, outHeight := h, outChannels := ch, outColorspace := cs }) = .next t' ∧
      t.readData = t'.readData ∧ t.draws = t'.draws ∧ (reg ≤ 4 → t.readData < 2 ^ 32) ∧
      (5 ≤ reg → t.readData < 2 ^ 8) ∧
      { t with readData := s.readData, draws := s.draws, agenda := s.agenda } = s

/-- 20_memory.md R77, R82, 70_reset_and_hazards.md R286: until the host has observed DONE, its read of an output buffer,
also under the name DEC_IN (20_memory.md R86), learns nothing of its bytes, and changes nothing but what the host has read,
the draw counter and the agenda. That this includes bytes that the host wrote there itself is the model's choice
(notes/assumptions/24.md). At an address of more than LEN_WIDTH bits the model stops (notes/assumptions/9.md). -/
def Obligations.EarlyOutputReadLearnsNothing : Prop :=
  (∀ (s : State) (k addr len : Nat) (e : Encoder) (m : Memory),
    s.nextMove = some (.host (.readBuffer (.encOut k) addr len)) → s.encs[k]? = some e →
    (e.phase ≠ .done ∨ e.observed = false) →
    (s.cfg.addressable addr len → s.ReadsNothingOf (s.setEnc k { e with output := m }) len) ∧
    (¬s.cfg.addressable addr len → step s = .fault .outsideBuffer)) ∧
  (∀ (s : State) (k addr len : Nat) (d : Decoder) (m : Memory),
    s.nextMove = some (.host (.readBuffer (.decOut k) addr len)) → s.decs[k]? = some d →
    (d.phase ≠ .done ∨ d.observed = false) →
    (s.cfg.addressable addr len → s.ReadsNothingOf (s.setDec k { d with output := m }) len) ∧
    (¬s.cfg.addressable addr len → step s = .fault .outsideBuffer)) ∧
  (∀ (s : State) (j k addr len : Nat) (d : Decoder) (e : Encoder) (m : Memory),
    s.nextMove = some (.host (.readBuffer (.decIn j) addr len)) → s.decs[j]? = some d → d.inputFrom = some k →
    s.encs[k]? = some e → (e.phase ≠ .done ∨ e.observed = false) →
    (s.cfg.addressable addr len → s.ReadsNothingOf (s.setEnc k { e with output := m }) len) ∧
    (¬s.cfg.addressable addr len → step s = .fault .outsideBuffer))

/-- 20_memory.md R70, R82: once the host has observed DONE it reads the bytes the engine wrote, up to the published length.
Past it, and at an address of more than LEN_WIDTH bits, the model stops with a fault of its own
(notes/assumptions/9.md). -/
def Obligations.PublishedOutputReads : Prop :=
  (∀ (s : State) (k addr len : Nat) (e : Encoder),
    s.nextMove = some (.host (.readBuffer (.encOut k) addr len)) → s.encs[k]? = some e →
    e.phase = .done → e.observed = true →
    (addr + len ≤ e.outLen → s.cfg.addressable addr len →
      step s = .next { s with agenda := s.agenda.tail, readBytes := e.output.readBytes addr len }) ∧
    (e.outLen < addr + len ∨ ¬s.cfg.addressable addr len → step s = .fault .outsideBuffer)) ∧
  (∀ (s : State) (k addr len : Nat) (d : Decoder),
    s.nextMove = some (.host (.readBuffer (.decOut k) addr len)) → s.decs[k]? = some d →
    d.phase = .done → d.observed = true →
    (addr + len ≤ d.outLen → s.cfg.addressable addr len →
      step s = .next { s with agenda := s.agenda.tail, readBytes := d.output.readBytes addr len }) ∧
    (d.outLen < addr + len ∨ ¬s.cfg.addressable addr len → step s = .fault .outsideBuffer))

/-- 20_memory.md R70, R71, R76: the host reads back an input buffer below its length register; past it, and at an address
of more than LEN_WIDTH bits, the model stops with a fault of its own (notes/assumptions/9.md, 18.md). The second clause
includes the memory that DEC_IN names (R86), once the host has observed DONE on its encoder; that such a memory shows the
bytes kept past ENC_OUT_LEN is the model's choice (notes/assumptions/23.md). -/
def Obligations.HostInputReads : Prop :=
  (∀ (s : State) (k addr len : Nat) (e : Encoder),
    s.nextMove = some (.host (.readBuffer (.encIn k) addr len)) → s.encs[k]? = some e →
    (addr + len ≤ e.regInLen → s.cfg.addressable addr len →
      step s = .next { s with agenda := s.agenda.tail, readBytes := e.input.readBytes addr len }) ∧
    (e.regInLen < addr + len ∨ ¬s.cfg.addressable addr len → step s = .fault .outsideBuffer)) ∧
  (∀ (s : State) (j addr len : Nat) (d : Decoder),
    s.nextMove = some (.host (.readBuffer (.decIn j) addr len)) → s.decs[j]? = some d →
    (∀ k, d.inputFrom = some k → s.observedDone k) →
    (addr + len ≤ d.regInLen → s.cfg.addressable addr len →
      step s = .next { s with agenda := s.agenda.tail, readBytes := (s.decInput d).readBytes addr len }) ∧
    (d.regInLen < addr + len ∨ ¬s.cfg.addressable addr len → step s = .fault .outsideBuffer))

/-- 20_memory.md R85, 70_reset_and_hazards.md R285, 93_implementation_defined.md U5: the host cannot write a buffer of a
BUSY engine, under either name of a memory that two engines share (20_memory.md R86). -/
def Obligations.BusyBufferWritesAreRefused : Prop :=
  (∀ (s : State) (k addr : Nat) (bytes : List Byte) (e : Encoder), s.encs[k]? = some e → e.phase = .busy →
    (s.nextMove = some (.host (.writeBuffer (.encIn k) addr bytes)) ∨
      s.nextMove = some (.host (.writeBuffer (.encOut k) addr bytes)) ∨
      ∃ j d, s.nextMove = some (.host (.writeBuffer (.decIn j) addr bytes)) ∧ s.decs[j]? = some d ∧
        d.inputFrom = some k) →
    step s = .refused .hostWriteWhileBusy) ∧
  (∀ (s : State) (j addr : Nat) (bytes : List Byte) (d : Decoder), s.decs[j]? = some d → d.phase = .busy →
    (s.nextMove = some (.host (.writeBuffer (.decIn j) addr bytes)) ∨
      s.nextMove = some (.host (.writeBuffer (.decOut j) addr bytes)) ∨
      ∃ k e, d.inputFrom = some k ∧ s.encs[k]? = some e ∧
        (s.nextMove = some (.host (.writeBuffer (.encOut k) addr bytes)) ∨
          ∃ i f, s.nextMove = some (.host (.writeBuffer (.decIn i) addr bytes)) ∧ s.decs[i]? = some f ∧
            f.inputFrom = some k)) →
    step s = .refused .hostWriteWhileBusy)

/-- 20_memory.md R70, R71, R86: a host write to an input buffer of an engine that is not BUSY stores the bytes at the
addresses given, in the memory that the buffer names, and nothing else changes. At an address of more than LEN_WIDTH bits
the model stops with a fault of its own (notes/assumptions/9.md). -/
def Obligations.HostBufferWrite : Prop :=
  (∀ (s : State) (k addr : Nat) (bytes : List Byte) (e : Encoder),
    s.nextMove = some (.host (.writeBuffer (.encIn k) addr bytes)) → s.encs[k]? = some e → e.phase ≠ .busy →
    (s.cfg.addressable addr bytes.length →
      ∃ m, step s = .next (s.afterEnc k { e with input := m }) ∧ e.input.Stores m addr bytes) ∧
    (¬s.cfg.addressable addr bytes.length → step s = .fault .outsideBuffer)) ∧
  (∀ (s : State) (j addr : Nat) (bytes : List Byte) (d : Decoder),
    s.nextMove = some (.host (.writeBuffer (.decIn j) addr bytes)) → s.decs[j]? = some d → d.phase ≠ .busy →
    (d.inputFrom = none → s.cfg.addressable addr bytes.length →
      ∃ m, step s = .next { s with agenda := s.agenda.tail, decs := s.decs.set j { d with input := m } } ∧
        d.input.Stores m addr bytes) ∧
    (∀ k e, d.inputFrom = some k → s.encs[k]? = some e → e.phase ≠ .busy →
      (∀ f ∈ s.decs, f.inputFrom = some k → f.phase ≠ .busy) →
      (s.cfg.addressable addr bytes.length →
        ∃ m, step s = .next (s.afterEnc k { e with output := m }) ∧ e.output.Stores m addr bytes) ∧
      (¬s.cfg.addressable addr bytes.length → step s = .fault .outsideBuffer)) ∧
    (d.inputFrom = none → ¬s.cfg.addressable addr bytes.length → step s = .fault .outsideBuffer))

/-- 20_memory.md R86: copying a stream on whose encoder the host has observed DONE puts its bytes at the start of the
decoder's input, in the memory that DEC_IN names, and nothing else changes. That the copy is one move, to address 0, which
leaves DEC_IN_LEN alone, is the model's choice (notes/assumptions/14.md). -/
def Obligations.CopyStreamCopiesBytes : Prop :=
  ∀ (s : State) (k j : Nat) (e : Encoder) (d : Decoder),
    s.nextMove = some (.host (.copyStream k j)) → s.encs[k]? = some e → e.phase = .done → e.observed = true →
    s.cfg.addressable 0 e.outLen → s.decs[j]? = some d → d.phase ≠ .busy →
    ∃ m, (∀ a, a < e.outLen → m.read a = e.output.read a) ∧
      (∀ a, e.outLen ≤ a → m.read a = (s.decInput d).read a) ∧
      (d.inputFrom = none →
        step s = .next { s with agenda := s.agenda.tail, decs := s.decs.set j { d with input := m } }) ∧
      ∀ i f, d.inputFrom = some i → s.encs[i]? = some f → f.phase ≠ .busy →
        (∀ d' ∈ s.decs, d'.inputFrom = some i → d'.phase ≠ .busy) →
        step s = .next (s.afterEnc i { f with output := m })

/-- 20_memory.md R86: after observing DONE on an encoder the host names its output as DEC_IN of a decoder, which then reads
that memory; nothing is copied and nothing else changes. Before that observation, and while the decoder is BUSY, the model
refuses the move (notes/assumptions/14.md); it may also give DEC_IN the decoder's own memory again. That DEC_IN is the
whole of that memory, also past ENC_OUT_LEN, is the model's choice (notes/assumptions/23.md). -/
def Obligations.NameInputSharesMemory : Prop :=
  ∀ (s : State) (j : Nat) (source : Option Nat) (d : Decoder),
    s.nextMove = some (.host (.nameInput j source)) → s.decs[j]? = some d →
    (d.phase = .busy → step s = .refused .hostWriteWhileBusy) ∧
    (∀ k e, source = some k → s.encs[k]? = some e → d.phase ≠ .busy →
      (e.phase = .done → e.observed = true → ∃ t d', step s = .next t ∧ t.decs[j]? = some d' ∧
        t.decInput d' = e.output ∧
        t = { s with agenda := s.agenda.tail, decs := s.decs.set j { d with inputFrom := some k } }) ∧
      (e.phase ≠ .done ∨ e.observed = false → step s = .refused .streamNotObserved)) ∧
    (∀ k, source = some k → s.encs[k]? = none → d.phase ≠ .busy → step s = .refused .noSuchEngine) ∧
    (source = none → d.phase ≠ .busy → ∃ t d', step s = .next t ∧ t.decs[j]? = some d' ∧ t.decInput d' = d.input ∧
      t = { s with agenda := s.agenda.tail, decs := s.decs.set j { d with inputFrom := none } })

/-- 70_reset_and_hazards.md R280, 10_state.md R60: RESET puts every engine in IDLE with no error and length registers 0.
That no DONE counts as observed and that every DEC_IN is the decoder's own memory again is the model's choice
(notes/assumptions/12.md). -/
def Obligations.ResetInput : Prop :=
  ∀ s : State, s.nextMove = some (.host .assertReset) →
    ∃ t, step s = .next t ∧ t.cfg = s.cfg ∧ t.encs.length = s.encs.length ∧ t.decs.length = s.decs.length ∧
      (∀ e ∈ t.encs, e.phase = .idle ∧ e.err = .none ∧ e.stage = .init ∧ e.outLen = 0 ∧ e.observed = false) ∧
      ∀ d ∈ t.decs, d.phase = .idle ∧ d.err = .none ∧ d.stage = .init ∧ d.outLen = 0 ∧ d.consumed = 0 ∧
        d.observed = false ∧ d.inputFrom = none

/-- 10_state.md R60, 60_exceptions.md R268, 00_scope.md R7: after power-on there are N_ENC encoders and N_DEC decoders,
each IDLE with no error and length registers 0; State.reset has the parameters' defaults. -/
def Obligations.PowerOnState : Prop :=
  (∀ c : Config, (State.resetWith c).cfg = c ∧ (State.resetWith c).encs.length = c.nEnc ∧
    (State.resetWith c).decs.length = c.nDec ∧
    (∀ e ∈ (State.resetWith c).encs, e.phase = .idle ∧ e.err = .none ∧ e.stage = .init ∧ e.outLen = 0) ∧
    ∀ d ∈ (State.resetWith c).decs,
      d.phase = .idle ∧ d.err = .none ∧ d.stage = .init ∧ d.outLen = 0 ∧ d.consumed = 0) ∧
  State.reset = State.resetWith
    { magic := [0x71, 0x6F, 0x69, 0x66], tags := .source, encCacheOnRun := true, trailing := .ignore,
      maxPixels := none, lenWidth := none, nEnc := 1, nDec := 1 } ∧
  tagRgb .source = 0xFF ∧ tagRgba .source = 0xFE ∧ hdrLen State.reset.cfg = 14

/-! ### Invariants -/

/-- The buffers keep their canonical form (the model's own form, notes/assumptions/3.md). -/
def Obligations.StepKeepsMemoryCanonical : Prop :=
  ∀ s t : State, s.memoryInv → step s = .next t → t.memoryInv

/-- 40_cache_hash.md R147: in every engine, at every step, each slot k holds (0,0,0,0) or a pixel with hash k. For the step
that is the host's RESET, after which 10_state.md R60 leaves the slots unspecified, that is the model's choice
(notes/assumptions/2.md and 12.md). -/
def Obligations.StepKeepsSlotInvariant : Prop :=
  ∀ s t : State, s.slotInv → step s = .next t → t.slotInv

/-- 10_state.md R50, R52, R61: ERR is 0 exactly outside ERROR, the length registers are 0 outside DONE, and only in
DONE has the host observed DONE (20_memory.md R82). -/
def Obligations.StepKeepsStatusConsistent : Prop :=
  ∀ s t : State, s.statusInv → step s = .next t → t.statusInv

/-- 10_state.md R33, R36, R42 to R44, 20_memory.md R78, 41_encoder.md R175: the sequencers and run counters stay in
range, a running engine's request stays legal, and a finished stream's length is within its bounds. -/
def Obligations.StepKeepsSequencersInRange : Prop :=
  ∀ s t : State, s.sequencerInv → step s = .next t → t.sequencerInv

/-- 20_memory.md R82, R85, R86: every step keeps what a BUSY decoder reads its own memory, or the output of an encoder on
which the host has observed DONE, or open (notes/assumptions/14.md); and no step changes the input of an engine that is
BUSY and stays so, but for START of the encoder whose output a decoder reads, which opens its stream. -/
def Obligations.StepKeepsBusyInputs : Prop :=
  ∀ s t : State, s.sharedInv → step s = .next t →
    t.sharedInv ∧
    (∀ (k : Nat) (e e' : Encoder), s.encs[k]? = some e → t.encs[k]? = some e' → e.phase = .busy → e'.phase = .busy →
      e'.input = e.input) ∧
    ∀ (j : Nat) (d d' : Decoder), s.decs[j]? = some d → t.decs[j]? = some d' → d.phase = .busy → d'.phase = .busy →
      t.decStream d' = s.decStream d ∨
      ∃ k v, d.inputFrom = some k ∧ v % 2 = 1 ∧ s.nextMove = some (.host (.writeEncReg k 0 v)) ∧
        ∀ u u' : State, u.decStream d' = u'.decStream d'

/-- The five invariants hold after power-on, whatever the parameters. The registers' power-on values behind the slot
invariant are the model's choice (notes/assumptions/2.md), and so are those of the DONE observation and of the memory
that DEC_IN names (notes/assumptions/22.md, 14.md). -/
def Obligations.PowerOnMeetsInvariants : Prop :=
  ∀ c : Config, (State.resetWith c).memoryInv ∧ (State.resetWith c).slotInv ∧ (State.resetWith c).statusInv ∧
    (State.resetWith c).sequencerInv ∧ (State.resetWith c).sharedInv

/-- 41_encoder.md R175: a run from power-on publishes only streams within the size bound; 20_memory.md R78: a running
encoder's next pixel lies inside its input. -/
def Obligations.ReachableEncodersStayInBounds : Prop :=
  ∀ (c : Config) (agenda : List Move) (n : Nat) (t : State),
    runSteps n { State.resetWith c with agenda := agenda } = .next t → ∀ e ∈ t.encs,
      (e.phase = .done → e.opos ≤ hdrLen c + e.n * (e.ch.toNat + 1) + 8 ∧ hdrLen c + (e.n + 61) / 62 + 8 ≤ e.opos ∧
        (c.fits e.opos → e.outLen = e.opos)) ∧
      (e.atPixel → e.pix * e.ch.toNat + e.ch.toNat ≤ e.inLen)

/-! ### Whole-machine rules -/

/-- 00_scope.md R7, 60_exceptions.md R268: no step changes a parameter or the number of engines. -/
def Obligations.ParametersNeverChange : Prop :=
  ∀ s t : State, step s = .next t →
    t.cfg = s.cfg ∧ t.encs.length = s.encs.length ∧ t.decs.length = s.decs.length

/-- 10_state.md R31, R49, R54, R63, 60_exceptions.md R264, R266: the only events that change an engine's PHASE are its
own step (BUSY to DONE or ERROR), START (to BUSY, from any other phase) and RESET (to IDLE). -/
def Obligations.OnlyTheseEventsChangePhase : Prop :=
  (∀ (s t : State) (k : Nat) (e e' : Encoder),
    step s = .next t → s.encs[k]? = some e → t.encs[k]? = some e' → e'.phase ≠ e.phase →
    (e.phase = .busy ∧ s.nextMove = some (.enc k) ∧ (e'.phase = .done ∨ e'.phase = .error)) ∨
    (e.phase ≠ .busy ∧ e'.phase = .busy ∧ ∃ v, v % 2 = 1 ∧ s.nextMove = some (.host (.writeEncReg k 0 v))) ∨
    (e'.phase = .idle ∧ s.nextMove = some (.host .assertReset))) ∧
  (∀ (s t : State) (k : Nat) (d d' : Decoder),
    step s = .next t → s.decs[k]? = some d → t.decs[k]? = some d' → d'.phase ≠ d.phase →
    (d.phase = .busy ∧ s.nextMove = some (.dec k) ∧ (d'.phase = .done ∨ d'.phase = .error)) ∨
    (d.phase ≠ .busy ∧ d'.phase = .busy ∧ ∃ v, v % 2 = 1 ∧ s.nextMove = some (.host (.writeDecReg k 0 v))) ∨
    (d'.phase = .idle ∧ s.nextMove = some (.host .assertReset)))

/-- 10_state.md R30, 20_memory.md R83, 60_exceptions.md R268: an engine's step changes no other engine, and depends on
nothing but that engine, the bytes its input buffer gives it and the parameters. -/
def Obligations.EnginesAreIsolated : Prop :=
  (∀ (s s' : State) (k : Nat) (e : Encoder), s.encTurn k e → s'.encTurn k e → s.cfg = s'.cfg →
    ∃ t t', step s = .next t ∧ step s' = .next t' ∧ t.encs[k]? = t'.encs[k]? ∧ t.decs = s.decs ∧
      ∀ j, j ≠ k → t.encs[j]? = s.encs[j]?) ∧
  (∀ (s s' : State) (k : Nat) (d : Decoder), s.decTurn k d → s'.decTurn k d → s.cfg = s'.cfg →
    s.decStream d = s'.decStream d →
    ∃ t t', step s = .next t ∧ step s' = .next t' ∧ t.decs[k]? = t'.decs[k]? ∧ t.encs = s.encs ∧
      ∀ j, j ≠ k → t.decs[j]? = s.decs[j]?)

/-- 10_state.md R31: an engine that is not BUSY is quiescent: its turn changes nothing but the agenda and, for a decoder,
the model's note of whose turn it was (`cur`, notes/assumptions/13.md). That a system with an empty agenda and no BUSY
engine stays as it is, is the model's choice (notes/assumptions/4.md). -/
def Obligations.QuiescentOutsideBusy : Prop :=
  (∀ (s : State) (k : Nat) (e : Encoder), s.encTurn k e → e.phase ≠ .busy → step s = .next (s.afterEnc k e)) ∧
  (∀ (s : State) (k : Nat) (d : Decoder), s.decTurn k d → d.phase ≠ .busy → step s = .next (s.afterDec k d)) ∧
  (∀ s : State, s.agenda = [] → (∀ e ∈ s.encs, e.phase ≠ .busy) → (∀ d ∈ s.decs, d.phase ≠ .busy) →
    step s = .next s)

/-! ### Whole operations -/

/-- 41_encoder.md R160, R178, 60_exceptions.md R266: a legal encode is BUSY for exactly N+2 steps and ends in DONE; any
other ends in ERROR after one. -/
def Obligations.EncodeTakesExactlyTheseSteps : Prop :=
  ∀ (s : State) (k : Nat) (e : Encoder), s.encs[k]? = some e → e.phase = .busy → e.stage = .init →
    ∀ m : Nat, ∃ t e', runSteps m { s with agenda := List.replicate m (.enc k) } = .next t ∧
      t.encs[k]? = some e' ∧
      (e.legal s.cfg →
        (e'.phase = .busy ↔ m < e.w.toNat * e.h.toNat + 2) ∧ (e'.phase = .done ↔ e.w.toNat * e.h.toNat + 2 ≤ m)) ∧
      (¬e.legal s.cfg → 0 < m → e'.phase = .error)

/-- 42_decoder.md R200, 60_exceptions.md R266: a decode whose header passes ends within N+2 steps, in DONE only after
exactly N+2; any other ends in ERROR after one. -/
def Obligations.DecodeTakesAtMostTheseSteps : Prop :=
  ∀ (s : State) (k : Nat) (d : Decoder), s.decs[k]? = some d → d.phase = .busy → d.stage = .init →
    let b := s.decStream d
    ∀ m : Nat, ∃ t d', runSteps m { s with agenda := List.replicate m (.dec k) } = .next t ∧
      t.decs[k]? = some d' ∧
      (d.magicOk s.cfg b → b.formatOk s.cfg → b.dimensionsOk s.cfg →
        (m < b.headerPixels s.cfg + 2 → d'.phase = .busy ∨ d'.phase = .error) ∧
        (b.headerPixels s.cfg + 2 ≤ m → d'.phase = .done ∨ d'.phase = .error)) ∧
      (¬(d.magicOk s.cfg b ∧ b.formatOk s.cfg ∧ b.dimensionsOk s.cfg) → 0 < m → d'.phase = .error)

/-- 41_encoder.md R160, R178, 10_state.md R59, 70_reset_and_hazards.md R282: the result of an encode depends on the
latched request and the input bytes alone, not on what the engine did before. -/
def Obligations.EncodeDependsOnRequestOnly : Prop :=
  ∀ (s s' : State) (k : Nat) (e e' : Encoder), s.cfg = s'.cfg → s.encs[k]? = some e → s'.encs[k]? = some e' →
    e.phase = .busy → e.stage = .init → e'.phase = .busy → e'.stage = .init →
    e.w = e'.w → e.h = e'.h → e.ch = e'.ch → e.cs = e'.cs → e.inLen = e'.inLen →
    (∀ a, a < e.inLen → e.input.read a = e'.input.read a) →
    ∀ m : Nat, ∃ t t' f f', runSteps m { s with agenda := List.replicate m (.enc k) } = .next t ∧
      runSteps m { s' with agenda := List.replicate m (.enc k) } = .next t' ∧
      t.encs[k]? = some f ∧ t'.encs[k]? = some f' ∧ f.phase = f'.phase ∧ (f.phase = .error → f.err = f'.err) ∧
      (f.phase = .done → f.outLen = f'.outLen ∧ f.opos = f'.opos ∧
        ∀ a, a < f.opos → f.output.read a = f'.output.read a)

/-- 42_decoder.md R200, 10_state.md R59, 70_reset_and_hazards.md R282: the result of a decode depends on the stream
alone, not on what the engine did before. -/
def Obligations.DecodeDependsOnStreamOnly : Prop :=
  ∀ (s s' : State) (k : Nat) (d d' : Decoder), s.cfg = s'.cfg → s.decs[k]? = some d → s'.decs[k]? = some d' →
    d.phase = .busy → d.stage = .init → d'.phase = .busy → d'.stage = .init → d.inLen = d'.inLen →
    (∀ a, a < d.inLen → (s.decStream d).read a = (s'.decStream d').read a) →
    ∀ m : Nat, ∃ t t' f f', runSteps m { s with agenda := List.replicate m (.dec k) } = .next t ∧
      runSteps m { s' with agenda := List.replicate m (.dec k) } = .next t' ∧
      t.decs[k]? = some f ∧ t'.decs[k]? = some f' ∧ f.phase = f'.phase ∧ (f.phase = .error → f.err = f'.err) ∧
      (f.phase = .done → f.outWidth = f'.outWidth ∧ f.outHeight = f'.outHeight ∧ f.outChannels = f'.outChannels ∧
        f.outColorspace = f'.outColorspace ∧ f.outLen = f'.outLen ∧ f.consumed = f'.consumed ∧
        ∀ a, a < f.n * f.ch.toNat → f.output.read a = f'.output.read a)

/-- 40_cache_hash.md R148: while a decoder runs on the stream an encoder produced, the two engines hold the same
previous pixel after the same pixel, and the same cache, but for slot 53 when ENC_CACHE_ON_RUN is false. -/
def Obligations.EnginesRunInLockstep : Prop :=
  ∀ (s : State) (k j : Nat) (e : Encoder) (d : Decoder), s.encs[k]? = some e → e.phase = .busy → e.stage = .init →
    e.legal s.cfg → s.decs[j]? = some d → d.phase = .busy → d.stage = .init →
    ∃ t1 e1, runSteps (e.w.toNat * e.h.toNat + 2)
        { s with agenda := List.replicate (e.w.toNat * e.h.toNat + 2) (.enc k) } = .next t1 ∧
      t1.encs[k]? = some e1 ∧
      (d.inLen = e1.opos → (∀ a, a < e1.opos → (s.decStream d).read a = e1.output.read a) →
        ∀ m, m < e.w.toNat * e.h.toNat → ∃ te em td dm,
          runSteps (m + 2) { s with agenda := List.replicate (m + 2) (.enc k) } = .next te ∧
          te.encs[k]? = some em ∧
          runSteps (m + 2) { s with agenda := List.replicate (m + 2) (.dec j) } = .next td ∧
          td.decs[j]? = some dm ∧ dm.phase = .busy ∧ dm.pix = em.pix ∧ em.prev = e.readPixel m ∧ dm.prev = em.prev ∧
          (s.cfg.encCacheOnRun = true → ∀ i, cacheRead dm.cache i = cacheRead em.cache i) ∧
          (s.cfg.encCacheOnRun = false → ∀ i, cacheRead dm.cache i = cacheRead em.cache i ∨
            (i = 53 ∧ cacheRead em.cache i = ⟨0, 0, 0, 0⟩ ∧ cacheRead dm.cache i = ⟨0, 0, 0, 255⟩)))

/-- 42_decoder.md R218, 20_memory.md R86: a legal encode, the host's observation of DONE, its stream handed to a decoder in
either of R86's two ways, and a decode give back the descriptor and every byte of the pixel buffer, for every choice of the
parameters under which the lengths fit their registers. -/
def Obligations.RoundTrip : Prop :=
  ∀ (s : State) (k j : Nat) (e : Encoder) (d : Decoder) (handOver : List HostAction),
    s.encs[k]? = some e → e.phase = .busy → e.stage = .init →
    e.legal s.cfg → s.cfg.fits (streamBound s.cfg (e.w.toNat * e.h.toNat) e.ch.toNat) →
    s.decs[j]? = some d → d.phase ≠ .busy →
    handOver = [.nameInput j none, .copyStream k j] ∨ handOver = [.nameInput j (some k)] →
    ∃ t1 e1 t2 d2,
      runSteps (e.w.toNat * e.h.toNat + 2)
        { s with agenda := List.replicate (e.w.toNat * e.h.toNat + 2) (.enc k) } = .next t1 ∧
      t1.encs[k]? = some e1 ∧ e1.phase = .done ∧
      runSteps (e.w.toNat * e.h.toNat + 5 + handOver.length)
        { t1 with agenda := .host (.readEncReg k 1) :: handOver.map .host ++
          [.host (.writeDecReg j 2 e1.outLen), .host (.writeDecReg j 0 1)] ++
          List.replicate (e.w.toNat * e.h.toNat + 2) (.dec j) } = .next t2 ∧
      t2.decs[j]? = some d2 ∧ d2.phase = .done ∧
      d2.outWidth = e.w ∧ d2.outHeight = e.h ∧ d2.outChannels = e.ch ∧ d2.outColorspace = e.cs ∧
      d2.outLen = e.inLen ∧ d2.consumed = e1.outLen ∧ ∀ a, a < e.inLen → d2.output.read a = e.input.read a

/-- 42_decoder.md R219, R206, R215: if a decode of a stream ends in DONE, then a decode of any shorter part of what it
consumed ends in ERROR, with TruncatedHeader inside the header and TruncatedStream after it. -/
def Obligations.TruncatedStreamNeverDecodes : Prop :=
  ∀ (s t : State) (k m cut : Nat) (d f : Decoder),
    s.decs[k]? = some d → d.phase = .busy → d.stage = .init →
    runSteps m { s with agenda := List.replicate m (.dec k) } = .next t → t.decs[k]? = some f → f.phase = .done →
    cut < f.pos →
    ∃ t' f', runSteps m { s.setDec k { d with inLen := cut } with agenda := List.replicate m (.dec k) } = .next t' ∧
      t'.decs[k]? = some f' ∧ f'.phase = .error ∧
      f'.err = if cut < hdrLen s.cfg then .truncatedHeader else .truncatedStream
end

