-- ==== Sys2Proof/Laws/Decode.lean ====
section
/-! SUPPORT. Small facts about the chunk grammar: the length of a chunk is a function of its kind, and what the first
byte of each encoded chunk selects. -/

namespace Sys2Proof

/-- The two tag bytes are 0xFE and 0xFF (00_scope.md R7). -/
theorem tagRgb_ne_tagRgba (t : TagAssignment) : tagRgb t ≠ tagRgba t := by cases t <;> decide

/-- The chunk length in terms of the chunk kind (30_encoding.md R107, R116). -/
theorem chunkLen_eq (t : TagAssignment) (b : Byte) :
    chunkLen t b = match chunkKind t b with
      | .rgb => 4 | .rgba => 5 | .luma => 2 | .index => 1 | .diff => 1 | .run => 1 := by
  unfold chunkLen chunkKind
  split_ifs <;> simp_all

/-- A chunk has one to five bytes (30_encoding.md R116). -/
theorem chunkLen_pos (t : TagAssignment) (b : Byte) : 1 ≤ chunkLen t b := by
  rw [chunkLen_eq]; cases chunkKind t b <;> decide

theorem chunkLen_le (t : TagAssignment) (b : Byte) : chunkLen t b ≤ maxChunkLen := by
  rw [chunkLen_eq]; cases chunkKind t b <;> decide

theorem chunkKind_index (t : TagAssignment) : ∀ i : Slot, chunkKind t (0#2 ++ i) = .index := by
  cases t <;> decide

theorem chunkKind_diff (t : TagAssignment) : ∀ r g b : BitVec 2, chunkKind t (1#2 ++ r ++ g ++ b) = .diff := by
  cases t <;> decide

theorem chunkKind_luma (t : TagAssignment) : ∀ g : BitVec 6, chunkKind t (2#2 ++ g) = .luma := by
  cases t <;> decide

theorem chunkKind_run (t : TagAssignment) : ∀ m : BitVec 6, m.toNat ≤ 61 → chunkKind t (3#2 ++ m) = .run := by
  cases t <;> decide

@[simp] theorem chunkKind_tagRgb (t : TagAssignment) : chunkKind t (tagRgb t) = .rgb := by cases t <;> decide

@[simp] theorem chunkKind_tagRgba (t : TagAssignment) : chunkKind t (tagRgba t) = .rgba := by cases t <;> decide

/-- A run length in 1..62 is stored as a number of at most 61 (30_encoding.md R112). -/
theorem storedRun_le {n : Nat} (h : runLengthOk n = true) : (BitVec.ofNat 6 (n - 1)).toNat = n - 1 ∧ n - 1 ≤ 61 := by
  simp only [runLengthOk, Bool.and_eq_true, decide_eq_true_eq] at h
  refine ⟨?_, by omega⟩
  rw [BitVec.toNat_ofNat, Nat.mod_eq_of_lt (by omega)]

end Sys2Proof
end

