-- ==== Sys2Proof/Laws/Memory.lean ====
section
/-! SUPPORT. The laws of byte buffers: what a read gives after a write, and that every operation keeps the canonical form
`Memory.wf`. -/

namespace Sys2Proof.Machine

@[simp] theorem Memory.read_nil (a : Nat) : Memory.read [] a = unwrittenByte := rfl

theorem Memory.read_cons (k : Nat) (v : Byte) (m : Memory) (a : Nat) :
    Memory.read ((k, v) :: m) a = if k = a then v else Memory.read m a := rfl

theorem Memory.read_insert (m : Memory) (a : Nat) (v : Byte) (x : Nat) :
    Memory.read (Memory.insert m a v) x = if x = a then v else Memory.read m x := by
  induction m with
  | nil => simp [Memory.insert, Memory.read_cons, eq_comm]
  | cons cell m ih =>
    obtain ⟨k, u⟩ := cell
    simp only [Memory.insert]
    split
    · simp [Memory.read_cons, eq_comm]
    · split
      · subst_vars
        simp only [Memory.read_cons]
        grind
      · simp only [Memory.read_cons, ih]
        grind

theorem Memory.read_filter_ne (m : Memory) (a x : Nat) :
    Memory.read (m.filter (fun cell => cell.1 ≠ a)) x = if x = a then unwrittenByte else Memory.read m x := by
  induction m with
  | nil => simp
  | cons cell m ih =>
    obtain ⟨k, u⟩ := cell
    by_cases hk : k = a
    · subst hk
      simp only [List.filter_cons, ne_eq, not_true_eq_false, decide_false, Bool.false_eq_true, if_false, ih,
        Memory.read_cons]
      grind
    · simp only [List.filter_cons, ne_eq, hk, not_false_eq_true, decide_true, if_true, Memory.read_cons, ih]
      grind

/-- A read after a one-byte write. -/
theorem Memory.read_write (m : Memory) (a : Nat) (v : Byte) (x : Nat) :
    Memory.read (Memory.write m a v) x = if x = a then v else Memory.read m x := by
  unfold Memory.write
  split
  · subst_vars; exact Memory.read_filter_ne m a x
  · exact Memory.read_insert m a v x

@[simp] theorem Memory.read_write_same (m : Memory) (a : Nat) (v : Byte) :
    Memory.read (Memory.write m a v) a = v := by simp [Memory.read_write]

theorem Memory.read_write_ne (m : Memory) {a x : Nat} (v : Byte) (h : x ≠ a) :
    Memory.read (Memory.write m a v) x = Memory.read m x := by simp [Memory.read_write, h]

@[simp] theorem Memory.writeBytes_nil (m : Memory) (a : Nat) : Memory.writeBytes m a [] = m := rfl

/-- A read below the written bytes gives what it gave before. -/
theorem Memory.read_writeBytes_below (bytes : List Byte) (m : Memory) {a x : Nat} (h : x < a) :
    Memory.read (Memory.writeBytes m a bytes) x = Memory.read m x := by
  induction bytes generalizing m a with
  | nil => rfl
  | cons v bytes ih =>
    simp only [Memory.writeBytes]
    rw [ih _ (Nat.lt_succ_of_lt h), Memory.read_write_ne _ _ (Nat.ne_of_lt h)]

/-- A read above the written bytes gives what it gave before. -/
theorem Memory.read_writeBytes_above (bytes : List Byte) (m : Memory) {a x : Nat} (h : a + bytes.length ≤ x) :
    Memory.read (Memory.writeBytes m a bytes) x = Memory.read m x := by
  induction bytes generalizing m a with
  | nil => rfl
  | cons v bytes ih =>
    simp only [List.length_cons] at h
    simp only [Memory.writeBytes]
    rw [ih _ (by omega), Memory.read_write_ne _ _ (by omega)]

/-- A read of a written byte gives that byte. -/
theorem Memory.read_writeBytes_at (bytes : List Byte) (m : Memory) (a i : Nat) (h : i < bytes.length) :
    Memory.read (Memory.writeBytes m a bytes) (a + i) = bytes[i] := by
  induction bytes generalizing m a i with
  | nil => simp at h
  | cons v bytes ih =>
    simp only [Memory.writeBytes]
    cases i with
    | zero => simp [Memory.read_writeBytes_below bytes _ (Nat.lt_succ_self a)]
    | succ i =>
      have := ih (Memory.write m a v) (a + 1) i (by simpa using h)
      simpa [Nat.add_assoc, Nat.add_comm 1 i] using this

theorem Memory.writeBytes_append (b1 b2 : List Byte) (m : Memory) (a : Nat) :
    Memory.writeBytes m a (b1 ++ b2) = Memory.writeBytes (Memory.writeBytes m a b1) (a + b1.length) b2 := by
  induction b1 generalizing m a with
  | nil => rfl
  | cons v b1 ih => simp [Memory.writeBytes, ih, Nat.add_assoc, Nat.add_comm 1]

@[simp] theorem Memory.readBytes_length (m : Memory) (a n : Nat) : (Memory.readBytes m a n).length = n := by
  induction n generalizing a with
  | zero => rfl
  | succ n ih => simp [Memory.readBytes, ih]

theorem Memory.readBytes_getElem (m : Memory) (a n i : Nat) (h : i < (Memory.readBytes m a n).length) :
    (Memory.readBytes m a n)[i] = Memory.read m (a + i) := by
  induction n generalizing a i with
  | zero => simp [Memory.readBytes] at h
  | succ n ih =>
    cases i with
    | zero => simp [Memory.readBytes]
    | succ i =>
      simp only [Memory.readBytes, List.getElem_cons_succ]
      rw [ih, Nat.add_assoc, Nat.add_comm 1]

theorem Memory.readBytes_add (m : Memory) (a n1 n2 : Nat) :
    Memory.readBytes m a (n1 + n2) = Memory.readBytes m a n1 ++ Memory.readBytes m (a + n1) n2 := by
  induction n1 generalizing a with
  | zero => simp [Memory.readBytes]
  | succ n1 ih =>
    rw [Nat.add_right_comm]
    simp [Memory.readBytes, ih, Nat.add_assoc, Nat.add_comm 1]

/-- Reading back what was written. -/
theorem Memory.readBytes_writeBytes (m : Memory) (a : Nat) (bytes : List Byte) :
    Memory.readBytes (Memory.writeBytes m a bytes) a bytes.length = bytes := by
  apply List.ext_getElem (by simp)
  intro i h1 h2
  rw [Memory.readBytes_getElem, Memory.read_writeBytes_at bytes m a i h2]

/-- Equal bytes at every address read give equal byte sequences. -/
theorem Memory.readBytes_congr (m m' : Memory) (a n : Nat)
    (h : ∀ x, a ≤ x → x < a + n → Memory.read m x = Memory.read m' x) :
    Memory.readBytes m a n = Memory.readBytes m' a n := by
  apply List.ext_getElem (by simp)
  intro i h1 h2
  rw [Memory.readBytes_getElem, Memory.readBytes_getElem]
  simp only [Memory.readBytes_length] at h1
  exact h _ (by omega) (by omega)

/-- The canonical form, cell by cell. -/
theorem Memory.wf_cons (k : Nat) (v : Byte) (m : Memory) :
    Memory.wf ((k, v) :: m) = true ↔
      v ≠ unwrittenByte ∧ (∀ cell ∈ m, k < cell.1) ∧ Memory.wf m = true := by
  simp [Memory.wf, and_assoc]

theorem Memory.mem_insert {m : Memory} {a : Nat} {v : Byte} {cell : Host.Cell}
    (h : cell ∈ Memory.insert m a v) : cell = (a, v) ∨ cell ∈ m := by
  induction m with
  | nil => simpa [Memory.insert] using h
  | cons c m ih =>
    obtain ⟨k, u⟩ := c
    simp only [Memory.insert] at h
    split at h
    · simpa using h
    · split at h
      · simp only [List.mem_cons] at h ⊢; tauto
      · simp only [List.mem_cons] at h ⊢
        rcases h with h | h
        · exact Or.inr (Or.inl h)
        · exact (ih h).imp id Or.inr

theorem Memory.wf_insert {m : Memory} (hm : Memory.wf m = true) (a : Nat) {v : Byte} (hv : v ≠ unwrittenByte) :
    Memory.wf (Memory.insert m a v) = true := by
  induction m with
  | nil => simp [Memory.insert, Memory.wf, hv]
  | cons c m ih =>
    obtain ⟨k, u⟩ := c
    obtain ⟨hu, hk, hm⟩ := (Memory.wf_cons k u m).1 hm
    simp only [Memory.insert]
    split
    · rename_i hak
      refine (Memory.wf_cons _ _ _).2 ⟨hv, ?_, (Memory.wf_cons _ _ _).2 ⟨hu, hk, hm⟩⟩
      intro cell hcell
      rcases List.mem_cons.1 hcell with h | h
      · subst h; exact hak
      · exact lt_trans hak (hk _ h)
    · split
      · subst_vars; exact (Memory.wf_cons _ _ _).2 ⟨hv, hk, hm⟩
      · refine (Memory.wf_cons _ _ _).2 ⟨hu, ?_, ih hm⟩
        intro cell hcell
        rcases Memory.mem_insert hcell with h | h
        · subst h; show k < a; omega
        · exact hk _ h

theorem Memory.wf_filter {m : Memory} (hm : Memory.wf m = true) (p : Host.Cell → Bool) :
    Memory.wf (m.filter p) = true := by
  induction m with
  | nil => rfl
  | cons c m ih =>
    obtain ⟨k, u⟩ := c
    obtain ⟨hu, hk, hm⟩ := (Memory.wf_cons k u m).1 hm
    rw [List.filter_cons]
    split
    · exact (Memory.wf_cons _ _ _).2 ⟨hu, fun cell h => hk _ (List.mem_filter.1 h).1, ih hm⟩
    · exact ih hm

/-- A one-byte write keeps the canonical form. -/
theorem Memory.wf_write {m : Memory} (hm : Memory.wf m = true) (a : Nat) (v : Byte) :
    Memory.wf (Memory.write m a v) = true := by
  unfold Memory.write
  split
  · exact Memory.wf_filter hm _
  · exact Memory.wf_insert hm a ‹_›

/-- A write of bytes keeps the canonical form. -/
theorem Memory.wf_writeBytes {m : Memory} (hm : Memory.wf m = true) (a : Nat) (bytes : List Byte) :
    Memory.wf (Memory.writeBytes m a bytes) = true := by
  induction bytes generalizing m a with
  | nil => exact hm
  | cons v bytes ih => exact ih (Memory.wf_write hm a v) (a + 1)

/-- Below every listed address a buffer reads as unwritten. -/
theorem Memory.read_of_lt {m : Memory} {a : Nat} (h : ∀ cell ∈ m, a < cell.1) : Memory.read m a = unwrittenByte := by
  induction m with
  | nil => rfl
  | cons c m ih =>
    obtain ⟨k, u⟩ := c
    have hk : a < k := h (k, u) (by simp)
    rw [Memory.read_cons, if_neg (by omega), ih (fun cell hc => h cell (by simp [hc]))]

/-- The canonical form is canonical: buffers that read alike everywhere are equal data. -/
theorem Memory.ext_of_wf {m m' : Memory} (hm : Memory.wf m = true) (hm' : Memory.wf m' = true)
    (h : ∀ a, Memory.read m a = Memory.read m' a) : m = m' := by
  induction m generalizing m' with
  | nil =>
    cases m' with
    | nil => rfl
    | cons c m' =>
      obtain ⟨k, u⟩ := c
      have := h k
      rw [Memory.read_nil, Memory.read_cons, if_pos rfl] at this
      exact absurd this.symm ((Memory.wf_cons _ _ _).1 hm').1
  | cons c m ih =>
    obtain ⟨k, u⟩ := c
    obtain ⟨hu, hk, hm⟩ := (Memory.wf_cons k u m).1 hm
    cases m' with
    | nil =>
      have := h k
      rw [Memory.read_nil, Memory.read_cons, if_pos rfl] at this
      exact absurd this hu
    | cons c' m' =>
      obtain ⟨k', u'⟩ := c'
      obtain ⟨hu', hk', hm2⟩ := (Memory.wf_cons k' u' m').1 hm'
      have below : ∀ {j : Nat} {v : Byte} {l : Memory} {x : Nat}, (∀ cell ∈ l, j < cell.1) → x < j →
          Memory.read ((j, v) :: l) x = unwrittenByte := by
        intro j v l x hl hx
        rw [Memory.read_cons, if_neg (by omega)]
        exact Memory.read_of_lt fun cell hc => lt_trans hx (hl _ hc)
      have hkk : k = k' := by
        rcases Nat.lt_trichotomy k k' with hlt | heq | hgt
        · have h1 := h k
          rw [Memory.read_cons, if_pos rfl, below hk' hlt] at h1
          exact absurd h1 hu
        · exact heq
        · have h1 := h k'
          rw [below hk hgt, Memory.read_cons, if_pos rfl] at h1
          exact absurd h1.symm hu'
      subst hkk
      have huu : u = u' := by simpa [Memory.read_cons] using h k
      subst huu
      congr 1
      apply ih hm hm2
      intro a
      by_cases ha : a = k
      · subst ha
        rw [Memory.read_of_lt hk, Memory.read_of_lt hk']
      · simpa [Memory.read_cons, Ne.symm ha] using h a

end Sys2Proof.Machine
end

