-- ==== Sys2Proof/Laws/State.lean ====
section
/-! SUPPORT. One lemma per field per record update, true by rfl, so that no later proof unfolds an update. -/

namespace Sys2Proof.Machine

/-! ### `State.setEnc`: only `encs` changes -/

@[simp] theorem State.setEnc_cfg (s : State) (k : Nat) (e : Encoder) :
    (s.setEnc k e).cfg = s.cfg := rfl

@[simp] theorem State.setEnc_encs (s : State) (k : Nat) (e : Encoder) :
    (s.setEnc k e).encs = s.encs.set k e := rfl

@[simp] theorem State.setEnc_decs (s : State) (k : Nat) (e : Encoder) :
    (s.setEnc k e).decs = s.decs := rfl

@[simp] theorem State.setEnc_cur (s : State) (k : Nat) (e : Encoder) :
    (s.setEnc k e).cur = s.cur := rfl

@[simp] theorem State.setEnc_agenda (s : State) (k : Nat) (e : Encoder) :
    (s.setEnc k e).agenda = s.agenda := rfl

@[simp] theorem State.setEnc_draws (s : State) (k : Nat) (e : Encoder) :
    (s.setEnc k e).draws = s.draws := rfl

@[simp] theorem State.setEnc_readData (s : State) (k : Nat) (e : Encoder) :
    (s.setEnc k e).readData = s.readData := rfl

@[simp] theorem State.setEnc_readBytes (s : State) (k : Nat) (e : Encoder) :
    (s.setEnc k e).readBytes = s.readBytes := rfl


/-! ### `State.setDec`: only `decs` changes -/

@[simp] theorem State.setDec_cfg (s : State) (k : Nat) (d : Decoder) :
    (s.setDec k d).cfg = s.cfg := rfl

@[simp] theorem State.setDec_encs (s : State) (k : Nat) (d : Decoder) :
    (s.setDec k d).encs = s.encs := rfl

@[simp] theorem State.setDec_decs (s : State) (k : Nat) (d : Decoder) :
    (s.setDec k d).decs = s.decs.set k d := rfl

@[simp] theorem State.setDec_cur (s : State) (k : Nat) (d : Decoder) :
    (s.setDec k d).cur = s.cur := rfl

@[simp] theorem State.setDec_agenda (s : State) (k : Nat) (d : Decoder) :
    (s.setDec k d).agenda = s.agenda := rfl

@[simp] theorem State.setDec_draws (s : State) (k : Nat) (d : Decoder) :
    (s.setDec k d).draws = s.draws := rfl

@[simp] theorem State.setDec_readData (s : State) (k : Nat) (d : Decoder) :
    (s.setDec k d).readData = s.readData := rfl

@[simp] theorem State.setDec_readBytes (s : State) (k : Nat) (d : Decoder) :
    (s.setDec k d).readBytes = s.readBytes := rfl


/-! ### `Encoder.raise`: the abort (60_exceptions.md R260) -/

@[simp] theorem Encoder.raise_phase (e : Encoder) (code : ErrCode) :
    (e.raise code).phase = Phase.error := rfl

@[simp] theorem Encoder.raise_err (e : Encoder) (code : ErrCode) :
    (e.raise code).err = code := rfl

@[simp] theorem Encoder.raise_stage (e : Encoder) (code : ErrCode) :
    (e.raise code).stage = e.stage := rfl

@[simp] theorem Encoder.raise_regWidth (e : Encoder) (code : ErrCode) :
    (e.raise code).regWidth = e.regWidth := rfl

@[simp] theorem Encoder.raise_regHeight (e : Encoder) (code : ErrCode) :
    (e.raise code).regHeight = e.regHeight := rfl

@[simp] theorem Encoder.raise_regChannels (e : Encoder) (code : ErrCode) :
    (e.raise code).regChannels = e.regChannels := rfl

@[simp] theorem Encoder.raise_regColorspace (e : Encoder) (code : ErrCode) :
    (e.raise code).regColorspace = e.regColorspace := rfl

@[simp] theorem Encoder.raise_regInLen (e : Encoder) (code : ErrCode) :
    (e.raise code).regInLen = e.regInLen := rfl

@[simp] theorem Encoder.raise_outLen (e : Encoder) (code : ErrCode) :
    (e.raise code).outLen = 0 := rfl

@[simp] theorem Encoder.raise_w (e : Encoder) (code : ErrCode) :
    (e.raise code).w = e.w := rfl

@[simp] theorem Encoder.raise_h (e : Encoder) (code : ErrCode) :
    (e.raise code).h = e.h := rfl

@[simp] theorem Encoder.raise_ch (e : Encoder) (code : ErrCode) :
    (e.raise code).ch = e.ch := rfl

@[simp] theorem Encoder.raise_cs (e : Encoder) (code : ErrCode) :
    (e.raise code).cs = e.cs := rfl

@[simp] theorem Encoder.raise_inLen (e : Encoder) (code : ErrCode) :
    (e.raise code).inLen = e.inLen := rfl

@[simp] theorem Encoder.raise_n (e : Encoder) (code : ErrCode) :
    (e.raise code).n = e.n := rfl

@[simp] theorem Encoder.raise_pix (e : Encoder) (code : ErrCode) :
    (e.raise code).pix = e.pix := rfl

@[simp] theorem Encoder.raise_opos (e : Encoder) (code : ErrCode) :
    (e.raise code).opos = e.opos := rfl

@[simp] theorem Encoder.raise_prev (e : Encoder) (code : ErrCode) :
    (e.raise code).prev = e.prev := rfl

@[simp] theorem Encoder.raise_run (e : Encoder) (code : ErrCode) :
    (e.raise code).run = e.run := rfl

@[simp] theorem Encoder.raise_cache (e : Encoder) (code : ErrCode) :
    (e.raise code).cache = e.cache := rfl

@[simp] theorem Encoder.raise_input (e : Encoder) (code : ErrCode) :
    (e.raise code).input = e.input := rfl

@[simp] theorem Encoder.raise_output (e : Encoder) (code : ErrCode) :
    (e.raise code).output = e.output := rfl

@[simp] theorem Encoder.raise_observed (e : Encoder) (code : ErrCode) :
    (e.raise code).observed = e.observed := rfl


/-! ### `Decoder.raise`: the abort (60_exceptions.md R260) -/

@[simp] theorem Decoder.raise_phase (d : Decoder) (code : ErrCode) :
    (d.raise code).phase = Phase.error := rfl

@[simp] theorem Decoder.raise_err (d : Decoder) (code : ErrCode) :
    (d.raise code).err = code := rfl

@[simp] theorem Decoder.raise_stage (d : Decoder) (code : ErrCode) :
    (d.raise code).stage = d.stage := rfl

@[simp] theorem Decoder.raise_regInLen (d : Decoder) (code : ErrCode) :
    (d.raise code).regInLen = d.regInLen := rfl

@[simp] theorem Decoder.raise_outWidth (d : Decoder) (code : ErrCode) :
    (d.raise code).outWidth = d.outWidth := rfl

@[simp] theorem Decoder.raise_outHeight (d : Decoder) (code : ErrCode) :
    (d.raise code).outHeight = d.outHeight := rfl

@[simp] theorem Decoder.raise_outChannels (d : Decoder) (code : ErrCode) :
    (d.raise code).outChannels = d.outChannels := rfl

@[simp] theorem Decoder.raise_outColorspace (d : Decoder) (code : ErrCode) :
    (d.raise code).outColorspace = d.outColorspace := rfl

@[simp] theorem Decoder.raise_outLen (d : Decoder) (code : ErrCode) :
    (d.raise code).outLen = 0 := rfl

@[simp] theorem Decoder.raise_consumed (d : Decoder) (code : ErrCode) :
    (d.raise code).consumed = 0 := rfl

@[simp] theorem Decoder.raise_inLen (d : Decoder) (code : ErrCode) :
    (d.raise code).inLen = d.inLen := rfl

@[simp] theorem Decoder.raise_w (d : Decoder) (code : ErrCode) :
    (d.raise code).w = d.w := rfl

@[simp] theorem Decoder.raise_h (d : Decoder) (code : ErrCode) :
    (d.raise code).h = d.h := rfl

@[simp] theorem Decoder.raise_ch (d : Decoder) (code : ErrCode) :
    (d.raise code).ch = d.ch := rfl

@[simp] theorem Decoder.raise_cs (d : Decoder) (code : ErrCode) :
    (d.raise code).cs = d.cs := rfl

@[simp] theorem Decoder.raise_n (d : Decoder) (code : ErrCode) :
    (d.raise code).n = d.n := rfl

@[simp] theorem Decoder.raise_prev (d : Decoder) (code : ErrCode) :
    (d.raise code).prev = d.prev := rfl

@[simp] theorem Decoder.raise_run (d : Decoder) (code : ErrCode) :
    (d.raise code).run = d.run := rfl

@[simp] theorem Decoder.raise_pos (d : Decoder) (code : ErrCode) :
    (d.raise code).pos = d.pos := rfl

@[simp] theorem Decoder.raise_pix (d : Decoder) (code : ErrCode) :
    (d.raise code).pix = d.pix := rfl

@[simp] theorem Decoder.raise_cache (d : Decoder) (code : ErrCode) :
    (d.raise code).cache = d.cache := rfl

@[simp] theorem Decoder.raise_input (d : Decoder) (code : ErrCode) :
    (d.raise code).input = d.input := rfl

@[simp] theorem Decoder.raise_output (d : Decoder) (code : ErrCode) :
    (d.raise code).output = d.output := rfl

@[simp] theorem Decoder.raise_inputFrom (d : Decoder) (code : ErrCode) :
    (d.raise code).inputFrom = d.inputFrom := rfl

@[simp] theorem Decoder.raise_openStream (d : Decoder) (code : ErrCode) :
    (d.raise code).openStream = d.openStream := rfl

@[simp] theorem Decoder.raise_observed (d : Decoder) (code : ErrCode) :
    (d.raise code).observed = d.observed := rfl


/-! ### `Encoder.emit`: Emit (00_scope.md R12) -/

@[simp] theorem Encoder.emit_phase (e : Encoder) (bytes : List Byte) :
    (e.emit bytes).phase = e.phase := rfl

@[simp] theorem Encoder.emit_err (e : Encoder) (bytes : List Byte) :
    (e.emit bytes).err = e.err := rfl

@[simp] theorem Encoder.emit_stage (e : Encoder) (bytes : List Byte) :
    (e.emit bytes).stage = e.stage := rfl

@[simp] theorem Encoder.emit_regWidth (e : Encoder) (bytes : List Byte) :
    (e.emit bytes).regWidth = e.regWidth := rfl

@[simp] theorem Encoder.emit_regHeight (e : Encoder) (bytes : List Byte) :
    (e.emit bytes).regHeight = e.regHeight := rfl

@[simp] theorem Encoder.emit_regChannels (e : Encoder) (bytes : List Byte) :
    (e.emit bytes).regChannels = e.regChannels := rfl

@[simp] theorem Encoder.emit_regColorspace (e : Encoder) (bytes : List Byte) :
    (e.emit bytes).regColorspace = e.regColorspace := rfl

@[simp] theorem Encoder.emit_regInLen (e : Encoder) (bytes : List Byte) :
    (e.emit bytes).regInLen = e.regInLen := rfl

@[simp] theorem Encoder.emit_outLen (e : Encoder) (bytes : List Byte) :
    (e.emit bytes).outLen = e.outLen := rfl

@[simp] theorem Encoder.emit_w (e : Encoder) (bytes : List Byte) :
    (e.emit bytes).w = e.w := rfl

@[simp] theorem Encoder.emit_h (e : Encoder) (bytes : List Byte) :
    (e.emit bytes).h = e.h := rfl

@[simp] theorem Encoder.emit_ch (e : Encoder) (bytes : List Byte) :
    (e.emit bytes).ch = e.ch := rfl

@[simp] theorem Encoder.emit_cs (e : Encoder) (bytes : List Byte) :
    (e.emit bytes).cs = e.cs := rfl

@[simp] theorem Encoder.emit_inLen (e : Encoder) (bytes : List Byte) :
    (e.emit bytes).inLen = e.inLen := rfl

@[simp] theorem Encoder.emit_n (e : Encoder) (bytes : List Byte) :
    (e.emit bytes).n = e.n := rfl

@[simp] theorem Encoder.emit_pix (e : Encoder) (bytes : List Byte) :
    (e.emit bytes).pix = e.pix := rfl

@[simp] theorem Encoder.emit_opos (e : Encoder) (bytes : List Byte) :
    (e.emit bytes).opos = e.opos + bytes.length := rfl

@[simp] theorem Encoder.emit_prev (e : Encoder) (bytes : List Byte) :
    (e.emit bytes).prev = e.prev := rfl

@[simp] theorem Encoder.emit_run (e : Encoder) (bytes : List Byte) :
    (e.emit bytes).run = e.run := rfl

@[simp] theorem Encoder.emit_cache (e : Encoder) (bytes : List Byte) :
    (e.emit bytes).cache = e.cache := rfl

@[simp] theorem Encoder.emit_input (e : Encoder) (bytes : List Byte) :
    (e.emit bytes).input = e.input := rfl

@[simp] theorem Encoder.emit_output (e : Encoder) (bytes : List Byte) :
    (e.emit bytes).output = e.output.writeBytes e.opos bytes := rfl

@[simp] theorem Encoder.emit_observed (e : Encoder) (bytes : List Byte) :
    (e.emit bytes).observed = e.observed := rfl


/-! ### `Encoder.clearWorking`: the registers INIT clears (41_encoder.md R162) -/

@[simp] theorem Encoder.clearWorking_phase (e : Encoder) :
    (e.clearWorking).phase = e.phase := rfl

@[simp] theorem Encoder.clearWorking_err (e : Encoder) :
    (e.clearWorking).err = e.err := rfl

@[simp] theorem Encoder.clearWorking_stage (e : Encoder) :
    (e.clearWorking).stage = e.stage := rfl

@[simp] theorem Encoder.clearWorking_regWidth (e : Encoder) :
    (e.clearWorking).regWidth = e.regWidth := rfl

@[simp] theorem Encoder.clearWorking_regHeight (e : Encoder) :
    (e.clearWorking).regHeight = e.regHeight := rfl

@[simp] theorem Encoder.clearWorking_regChannels (e : Encoder) :
    (e.clearWorking).regChannels = e.regChannels := rfl

@[simp] theorem Encoder.clearWorking_regColorspace (e : Encoder) :
    (e.clearWorking).regColorspace = e.regColorspace := rfl

@[simp] theorem Encoder.clearWorking_regInLen (e : Encoder) :
    (e.clearWorking).regInLen = e.regInLen := rfl

@[simp] theorem Encoder.clearWorking_outLen (e : Encoder) :
    (e.clearWorking).outLen = e.outLen := rfl

@[simp] theorem Encoder.clearWorking_w (e : Encoder) :
    (e.clearWorking).w = e.w := rfl

@[simp] theorem Encoder.clearWorking_h (e : Encoder) :
    (e.clearWorking).h = e.h := rfl

@[simp] theorem Encoder.clearWorking_ch (e : Encoder) :
    (e.clearWorking).ch = e.ch := rfl

@[simp] theorem Encoder.clearWorking_cs (e : Encoder) :
    (e.clearWorking).cs = e.cs := rfl

@[simp] theorem Encoder.clearWorking_inLen (e : Encoder) :
    (e.clearWorking).inLen = e.inLen := rfl

@[simp] theorem Encoder.clearWorking_n (e : Encoder) :
    (e.clearWorking).n = e.n := rfl

@[simp] theorem Encoder.clearWorking_pix (e : Encoder) :
    (e.clearWorking).pix = 0 := rfl

@[simp] theorem Encoder.clearWorking_opos (e : Encoder) :
    (e.clearWorking).opos = 0 := rfl

@[simp] theorem Encoder.clearWorking_prev (e : Encoder) :
    (e.clearWorking).prev = Pixel.initial := rfl

@[simp] theorem Encoder.clearWorking_run (e : Encoder) :
    (e.clearWorking).run = 0 := rfl

@[simp] theorem Encoder.clearWorking_cache (e : Encoder) :
    (e.clearWorking).cache = Cache.zero := rfl

@[simp] theorem Encoder.clearWorking_input (e : Encoder) :
    (e.clearWorking).input = e.input := rfl

@[simp] theorem Encoder.clearWorking_output (e : Encoder) :
    (e.clearWorking).output = e.output := rfl

@[simp] theorem Encoder.clearWorking_observed (e : Encoder) :
    (e.clearWorking).observed = e.observed := rfl


/-! ### `Decoder.commit`: PixelCommit (42_decoder.md R213) -/

@[simp] theorem Decoder.commit_phase (d : Decoder) (px : Pixel) :
    (d.commit px).phase = d.phase := rfl

@[simp] theorem Decoder.commit_err (d : Decoder) (px : Pixel) :
    (d.commit px).err = d.err := rfl

@[simp] theorem Decoder.commit_stage (d : Decoder) (px : Pixel) :
    (d.commit px).stage = d.stage := rfl

@[simp] theorem Decoder.commit_regInLen (d : Decoder) (px : Pixel) :
    (d.commit px).regInLen = d.regInLen := rfl

@[simp] theorem Decoder.commit_outWidth (d : Decoder) (px : Pixel) :
    (d.commit px).outWidth = d.outWidth := rfl

@[simp] theorem Decoder.commit_outHeight (d : Decoder) (px : Pixel) :
    (d.commit px).outHeight = d.outHeight := rfl

@[simp] theorem Decoder.commit_outChannels (d : Decoder) (px : Pixel) :
    (d.commit px).outChannels = d.outChannels := rfl

@[simp] theorem Decoder.commit_outColorspace (d : Decoder) (px : Pixel) :
    (d.commit px).outColorspace = d.outColorspace := rfl

@[simp] theorem Decoder.commit_outLen (d : Decoder) (px : Pixel) :
    (d.commit px).outLen = d.outLen := rfl

@[simp] theorem Decoder.commit_consumed (d : Decoder) (px : Pixel) :
    (d.commit px).consumed = d.consumed := rfl

@[simp] theorem Decoder.commit_inLen (d : Decoder) (px : Pixel) :
    (d.commit px).inLen = d.inLen := rfl

@[simp] theorem Decoder.commit_w (d : Decoder) (px : Pixel) :
    (d.commit px).w = d.w := rfl

@[simp] theorem Decoder.commit_h (d : Decoder) (px : Pixel) :
    (d.commit px).h = d.h := rfl

@[simp] theorem Decoder.commit_ch (d : Decoder) (px : Pixel) :
    (d.commit px).ch = d.ch := rfl

@[simp] theorem Decoder.commit_cs (d : Decoder) (px : Pixel) :
    (d.commit px).cs = d.cs := rfl

@[simp] theorem Decoder.commit_n (d : Decoder) (px : Pixel) :
    (d.commit px).n = d.n := rfl

@[simp] theorem Decoder.commit_prev (d : Decoder) (px : Pixel) :
    (d.commit px).prev = px := rfl

@[simp] theorem Decoder.commit_run (d : Decoder) (px : Pixel) :
    (d.commit px).run = d.run := rfl

@[simp] theorem Decoder.commit_pos (d : Decoder) (px : Pixel) :
    (d.commit px).pos = d.pos := rfl

@[simp] theorem Decoder.commit_pix (d : Decoder) (px : Pixel) :
    (d.commit px).pix = d.pix + 1 := rfl

@[simp] theorem Decoder.commit_cache (d : Decoder) (px : Pixel) :
    (d.commit px).cache = cacheUpdate d.cache px := rfl

@[simp] theorem Decoder.commit_input (d : Decoder) (px : Pixel) :
    (d.commit px).input = d.input := rfl

@[simp] theorem Decoder.commit_output (d : Decoder) (px : Pixel) :
    (d.commit px).output = d.output.writeBytes d.pixelAddr (d.pixelList px) := rfl

@[simp] theorem Decoder.commit_inputFrom (d : Decoder) (px : Pixel) :
    (d.commit px).inputFrom = d.inputFrom := rfl

@[simp] theorem Decoder.commit_openStream (d : Decoder) (px : Pixel) :
    (d.commit px).openStream = d.openStream := rfl

@[simp] theorem Decoder.commit_observed (d : Decoder) (px : Pixel) :
    (d.commit px).observed = d.observed := rfl

theorem Encoder.start_busy {e : Encoder} (h : e.phase = .busy) : e.start = e := if_pos h

theorem Encoder.start_not_busy {e : Encoder} (h : e.phase ≠ .busy) :
    e.start = { e with
      w := e.regWidth, h := e.regHeight, ch := e.regChannels, cs := e.regColorspace, inLen := e.regInLen,
      err := .none, stage := .init, phase := .busy, outLen := 0, observed := false } := if_neg h

theorem Decoder.start_busy {d : Decoder} (h : d.phase = .busy) : d.start = d := if_pos h

theorem Decoder.start_not_busy {d : Decoder} (h : d.phase ≠ .busy) :
    d.start = { d with
      inLen := d.regInLen, err := .none, stage := .init, phase := .busy, outLen := 0, consumed := 0,
      observed := false, openStream := none } := if_neg h

/-! ### The memory that DEC_IN names (20_memory.md R86) -/

theorem State.decInput_own {s : State} {d : Decoder} (h : d.inputFrom = none) : s.decInput d = d.input := by
  simp [State.decInput, h]

theorem State.decInput_named {s : State} {d : Decoder} {k : Nat} {e : Encoder} (h : d.inputFrom = some k)
    (he : s.encs[k]? = some e) : s.decInput d = e.output := by
  simp [State.decInput, h, he]

/-- The memory depends on the encoders, the name and the decoder's own memory alone. -/
theorem State.decInput_congr {s s' : State} {d d' : Decoder} (he : s.encs = s'.encs) (hf : d.inputFrom = d'.inputFrom)
    (hi : d.input = d'.input) : s.decInput d = s'.decInput d' := by
  simp [State.decInput, he, hf, hi]

@[simp] theorem State.setDec_decInput (s : State) (k : Nat) (d d' : Decoder) :
    (s.setDec k d).decInput d' = s.decInput d' := rfl

/-! ### What a decode reads (notes/assumptions/14.md) -/

theorem State.decStream_settled {s : State} {d : Decoder} (h : d.openStream = none) : s.decStream d = s.decInput d := by
  simp [State.decStream, h]

theorem State.decStream_open {s : State} {d : Decoder} {n : Nat} (h : d.openStream = some n) :
    s.decStream d = freeStream n d.inLen := by
  simp [State.decStream, h]

/-- What a decode reads depends on the encoders, the name, the decoder's own memory and the open stream alone. -/
theorem State.decStream_congr {s s' : State} {d d' : Decoder} (he : s.encs = s'.encs) (hf : d.inputFrom = d'.inputFrom)
    (hi : d.input = d'.input) (ho : d.openStream = d'.openStream) (hl : d.inLen = d'.inLen) :
    s.decStream d = s'.decStream d' := by
  simp [State.decStream, State.decInput_congr he hf hi, ho, hl]

@[simp] theorem State.setDec_decStream (s : State) (k : Nat) (d d' : Decoder) :
    (s.setDec k d).decStream d' = s.decStream d' := rfl

/-! ### `observe`: only `observed` changes (20_memory.md R82) -/

/-- What a read of ENC_STATUS leaves. -/
theorem Encoder.observe_eq (e : Encoder) :
    e.observe = { e with observed := e.observed || decide (e.phase = .done) } := by
  unfold Encoder.observe
  split <;> simp_all

/-- What a read of DEC_STATUS leaves. -/
theorem Decoder.observe_eq (d : Decoder) :
    d.observe = { d with observed := d.observed || decide (d.phase = .done) } := by
  unfold Decoder.observe
  split <;> simp_all

end Sys2Proof.Machine
end

