-- ==== Sys2Proof/Laws/Ops.lean ====
section
/-! SUPPORT. One lemma per shared operation that says everything it can do; the proofs cite these and do not unfold. -/

namespace Sys2Proof.Machine

/-- A cache read after CacheUpdate (40_cache_hash.md R144, R145). -/
theorem cacheRead_cacheUpdate (cache : Cache) (px : Pixel) (i : Slot) :
    cacheRead (cacheUpdate cache px) i = if i = hashOf px then px else cacheRead cache i := by
  unfold cacheRead cacheUpdate
  by_cases h : i = hashOf px
  · subst h; simp
  · have hne : (hashOf px).toNat ≠ i.toNat := fun hh => h (BitVec.eq_of_toNat_eq hh.symm)
    simp [h, hne]

@[simp] theorem cacheRead_cacheUpdate_same (cache : Cache) (px : Pixel) :
    cacheRead (cacheUpdate cache px) (hashOf px) = px := by simp [cacheRead_cacheUpdate]

/-- Every slot of the cleared cache (40_cache_hash.md R143). -/
@[simp] theorem cacheRead_zero (i : Slot) : cacheRead Cache.zero i = Pixel.zero := by
  simp [cacheRead, Cache.zero]

/-- Caches that read alike at every slot are equal. -/
theorem cache_ext {c c' : Cache} (h : ∀ i, cacheRead c i = cacheRead c' i) : c = c' := by
  apply Vector.ext
  intro i hi
  have := h (BitVec.ofNat 6 i)
  unfold cacheRead at this
  simpa [Nat.mod_eq_of_lt hi] using this

/-- Rewriting a slot with what it holds changes nothing. -/
theorem cacheUpdate_of_read {cache : Cache} {px : Pixel} (h : cacheRead cache (hashOf px) = px) :
    cacheUpdate cache px = cache := by
  apply cache_ext
  intro i
  rw [cacheRead_cacheUpdate]
  split
  · subst_vars; exact h.symm
  · rfl

/-- Everything `onDecoder` can answer. -/
theorem onDecoder_some {f : Decoder → Decoder} {s : State} {d : Decoder} (h : s.decs[s.cur]? = some d) :
    onDecoder f s = .next (s.setDec s.cur (f d)) := by simp [onDecoder, h]

theorem onDecoder_none {f : Decoder → Decoder} {s : State} (h : s.decs[s.cur]? = none) :
    onDecoder f s = .refused .noSuchEngine := by simp [onDecoder, h]

theorem onDecoder_next {f : Decoder → Decoder} {s t : State} (h : onDecoder f s = .next t) :
    ∃ d, s.decs[s.cur]? = some d ∧ t = s.setDec s.cur (f d) := by
  cases hd : s.decs[s.cur]? with
  | none => simp [onDecoder_none hd] at h
  | some d => exact ⟨d, rfl, by simpa [onDecoder_some hd] using h.symm⟩

@[simp] theorem State.setDec_setDec (s : State) (k : Nat) (d d' : Decoder) :
    (s.setDec k d).setDec k d' = s.setDec k d' := by simp [State.setDec]

@[simp] theorem State.setEnc_setEnc (s : State) (k : Nat) (e e' : Encoder) :
    (s.setEnc k e).setEnc k e' = s.setEnc k e' := by simp [State.setEnc]

theorem State.setDec_self {s : State} {k : Nat} {d : Decoder} (h : s.decs[k]? = some d) : s.setDec k d = s := by
  obtain ⟨hk, rfl⟩ := List.getElem?_eq_some_iff.1 h
  simp [State.setDec]

theorem State.setEnc_self {s : State} {k : Nat} {e : Encoder} (h : s.encs[k]? = some e) : s.setEnc k e = s := by
  obtain ⟨hk, rfl⟩ := List.getElem?_eq_some_iff.1 h
  simp [State.setEnc]

theorem State.setDec_get {s : State} {k : Nat} {d : Decoder} (h : s.decs[k]? = some d) (d' : Decoder) :
    (s.setDec k d').decs[k]? = some d' := by
  obtain ⟨hk, -⟩ := List.getElem?_eq_some_iff.1 h
  simp [hk]

theorem State.setEnc_get {s : State} {k : Nat} {e : Encoder} (h : s.encs[k]? = some e) (e' : Encoder) :
    (s.setEnc k e').encs[k]? = some e' := by
  obtain ⟨hk, -⟩ := List.getElem?_eq_some_iff.1 h
  simp [hk]

/-- What `writeBytes` leaves, byte by byte. -/
theorem Memory.read_writeBytes_outside (m : Memory) (addr : Nat) (bytes : List Byte) {a : Nat}
    (h : a < addr ∨ addr + bytes.length ≤ a) : (m.writeBytes addr bytes).read a = m.read a :=
  h.elim (fun h => Memory.read_writeBytes_below _ _ h) (fun h => Memory.read_writeBytes_above _ _ h)

/-- The bytes WritePixel stores are as many as the pixel takes (42_decoder.md R214). -/
@[simp] theorem Decoder.pixelList_length (d : Decoder) (px : Pixel) : (d.pixelList px).length = d.pixelBytes := by
  unfold Decoder.pixelList Decoder.pixelBytes
  split <;> rfl

/-- Outside the pixel's bytes PixelCommit leaves DEC_OUT as it was. -/
theorem Decoder.commit_output_outside (d : Decoder) (px : Pixel) {a : Nat}
    (h : a < d.pixelAddr ∨ d.pixelAddr + d.pixelBytes ≤ a) :
    (d.commit px).output.read a = d.output.read a :=
  Memory.read_writeBytes_outside _ _ _ (by simpa using h)

/-- The pixel's bytes after PixelCommit. -/
theorem Decoder.commit_output_pixel (d : Decoder) (px : Pixel) (i : Nat) (h : i < (d.pixelList px).length) :
    (d.commit px).output.read (d.pixelAddr + i) = (d.pixelList px)[i] :=
  Memory.read_writeBytes_at _ _ _ _ h

/-- Emit leaves the bytes written before. -/
theorem Encoder.emit_output_below (e : Encoder) (bytes : List Byte) {a : Nat} (h : a < e.opos) :
    (e.emit bytes).output.read a = e.output.read a :=
  Memory.read_writeBytes_below _ _ h

/-- The bytes Emit wrote. -/
theorem Encoder.emit_output_at (e : Encoder) (bytes : List Byte) (i : Nat) (h : i < bytes.length) :
    (e.emit bytes).output.read (e.opos + i) = bytes[i] :=
  Memory.read_writeBytes_at _ _ _ _ h

theorem Encoder.emit_emit (e : Encoder) (b1 b2 : List Byte) : (e.emit b1).emit b2 = e.emit (b1 ++ b2) := by
  simp [Encoder.emit, Memory.writeBytes_append, Nat.add_assoc]

/-! ### The host's access rules (20_memory.md R70, R82, R86) -/

/-- A read below the buffer's length, at addresses of LEN_WIDTH bits. -/
theorem readWithin_ok {c : Config} {bufferLen addr len : Nat} (m : Memory) (ha : addressesOk c addr len = true)
    (h : addr + len ≤ bufferLen) : readWithin c bufferLen m addr len = .bytes (m.readBytes addr len) := if_pos ⟨ha, h⟩

/-- Any other read. -/
theorem readWithin_outside {c : Config} {bufferLen addr len : Nat} (m : Memory)
    (h : addressesOk c addr len = false ∨ bufferLen < addr + len) : readWithin c bufferLen m addr len = .outside := by
  refine if_neg fun ⟨ha, hl⟩ => ?_
  rcases h with h | h
  · simp [ha] at h
  · omega

/-- The host may rely on an output buffer once it has observed DONE. -/
theorem readOutput_observed {c : Config} {phase : Phase} {observed : Bool} {outLen addr len : Nat} (m : Memory)
    (h : phase = .done ∧ observed = true) :
    readOutput c phase observed outLen m addr len = readWithin c outLen m addr len := if_pos h

theorem readOutput_unobserved {c : Config} {phase : Phase} {observed : Bool} {outLen addr len : Nat} (m : Memory)
    (h : phase ≠ .done ∨ observed = false) :
    readOutput c phase observed outLen m addr len = if addressesOk c addr len then .unspecified else .outside := by
  refine if_neg fun ⟨hp, ho⟩ => ?_
  rcases h with h | h
  · exact h hp
  · simp [ho] at h

theorem State.streamInUse_eq_true {s : State} {k : Nat} :
    s.streamInUse k = true ↔ ∃ d ∈ s.decs, d.phase = .busy ∧ d.inputFrom = some k := by simp [State.streamInUse]

theorem State.streamInUse_eq_false {s : State} {k : Nat} :
    s.streamInUse k = false ↔ ∀ d ∈ s.decs, d.inputFrom = some k → d.phase ≠ .busy := by
  rw [← Bool.not_eq_true, State.streamInUse_eq_true]
  exact ⟨fun h d hd hf hb => h ⟨d, hd, hb, hf⟩, fun h ⟨d, hd, hb, hf⟩ => h d hd hf hb⟩

/-- What `openStreams` leaves of each decoder. -/
theorem State.openStreams_get (s : State) (k j : Nat) :
    (s.openStreams k).decs[j]? = s.decs[j]?.map fun d =>
      if d.phase = .busy ∧ d.inputFrom = some k then { d with openStream := some (s.draws + j) } else d := by
  simp [State.openStreams, List.getElem?_mapIdx]

@[simp] theorem State.openStreams_length (s : State) (k : Nat) :
    (s.openStreams k).decs.length = s.decs.length := by simp [State.openStreams]

@[simp] theorem State.openStreams_encs (s : State) (k : Nat) : (s.openStreams k).encs = s.encs := rfl

@[simp] theorem State.openStreams_cfg (s : State) (k : Nat) : (s.openStreams k).cfg = s.cfg := rfl

/-- A byte of an open stream. -/
theorem read_freeStream {n len a : Nat} (h : a < len) : (freeStream n len).read a = Config.freeStreamByte n a := by
  have := Memory.read_writeBytes_at ((List.range len).map (Config.freeStreamByte n)) [] 0 a (by simpa using h)
  simpa [freeStream] using this

theorem State.streamReady_own {s : State} {d : Decoder} (h : d.inputFrom = none) : s.streamReady d = true := by
  simp [State.streamReady, h]

theorem State.streamReady_named {s : State} {d : Decoder} {k : Nat} {e : Encoder} (h : d.inputFrom = some k)
    (he : s.encs[k]? = some e) : s.streamReady d = true ↔ e.phase = .done ∧ e.observed = true := by
  simp [State.streamReady, h, he]

@[simp] theorem freeBytes_length (n len : Nat) : (freeBytes n len).length = len := by
  induction len generalizing n with
  | zero => rfl
  | succ len ih => simp [freeBytes, ih]

end Sys2Proof.Machine
end

