-- ==== Sys2Proof/Laws/Engine.lean ====
section
/-! SUPPORT. The decoder's step as a function of the decoder alone, equal to the machine's step; what a step of the
machine is for each move; and runs over a given agenda. -/

namespace Sys2Proof.Machine

/-- What a chunk does to the decoder that executes it. -/
def Decoder.execChunk (d : Decoder) : Instr → Decoder
  | .index i => d.commit (cacheRead d.cache i)
  | .diff dr dg db => d.commit (diffPixel d.prev dr dg db)
  | .luma dg drDg dbDg => d.commit (lumaPixel d.prev dg drDg dbDg)
  | .run n => Decoder.commit { d with run := BitVec.ofNat 6 (n - 1) } d.prev
  | .rgb r g b => d.commit (rgbPixel d.prev r g b)
  | .rgba r g b a => d.commit (rgbaPixel r g b a)

/-- exec is `execChunk` on the decoder whose step is being taken. -/
theorem exec_eq (i : Instr) {s : State} {d : Decoder} (h : s.decs[s.cur]? = some d) :
    exec i s = .next (s.setDec s.cur (d.execChunk i)) := by
  cases i <;> exact onDecoder_some h

/-- The pixel step of a decoder (42_decoder.md R204). -/
def Decoder.pixelStep (c : Config) (m : Memory) (d : Decoder) : Decoder :=
  if d.run ≠ 0 then d.replay
  else
    match d.fetchChunk c m with
    | none => d.raise .truncatedStream
    | some (i, len) => Decoder.execChunk { d with pos := d.pos + len } i

/-- The step of a decoder that reads the stream `m` (10_state.md R31, R46). -/
def Decoder.step (c : Config) (m : Memory) (d : Decoder) : Decoder :=
  if d.phase = .busy then
    match d.stage with
    | .init => d.initStep c m
    | .body => if d.pix < d.n then d.pixelStep c m else d.finalStep c m
  else d

/-- `d'` reads the same stream as `d`. -/
structure Decoder.SameStream (d d' : Decoder) : Prop where
  inputFrom : d'.inputFrom = d.inputFrom
  input : d'.input = d.input
  openStream : d'.openStream = d.openStream
  inLen : d'.inLen = d.inLen

/-- In states with the same encoders, such decoders read the same bytes. -/
theorem Decoder.SameStream.decStream_eq {s s' : State} {d d' : Decoder} (h : d.SameStream d') (he : s'.encs = s.encs) :
    s'.decStream d' = s.decStream d :=
  State.decStream_congr he h.inputFrom h.input h.openStream h.inLen

/-- No chunk changes the stream that is being read, DEC_IN_LEN or the DONE observation. -/
theorem Decoder.execChunk_frame (d : Decoder) (i : Instr) :
    d.SameStream (d.execChunk i) ∧ (d.execChunk i).regInLen = d.regInLen ∧ (d.execChunk i).observed = d.observed := by
  cases i <;> exact ⟨⟨rfl, rfl, rfl, rfl⟩, rfl, rfl⟩

/-- No step of a decoder changes the stream that is being read, DEC_IN_LEN or the DONE observation. -/
theorem Decoder.step_frame (c : Config) (m : Memory) (d : Decoder) :
    d.SameStream (d.step c m) ∧ (d.step c m).regInLen = d.regInLen ∧ (d.step c m).observed = d.observed := by
  unfold Decoder.step
  split
  · cases d.stage with
    | init =>
      simp only [Decoder.initStep]
      split_ifs <;> exact ⟨⟨rfl, rfl, rfl, rfl⟩, rfl, rfl⟩
    | body =>
      dsimp only
      split
      · unfold Decoder.pixelStep
        split
        · exact ⟨⟨rfl, rfl, rfl, rfl⟩, rfl, rfl⟩
        · cases d.fetchChunk c m with
          | none => exact ⟨⟨rfl, rfl, rfl, rfl⟩, rfl, rfl⟩
          | some il =>
            have h := Decoder.execChunk_frame { d with pos := d.pos + il.2 } il.1
            exact ⟨⟨h.1.inputFrom, h.1.input, h.1.openStream, h.1.inLen⟩, h.2⟩
      · simp only [Decoder.finalStep]
        split_ifs <;> exact ⟨⟨rfl, rfl, rfl, rfl⟩, rfl, rfl⟩
  · exact ⟨⟨rfl, rfl, rfl, rfl⟩, rfl, rfl⟩

/-- The parts of an encoder's step leave its input and the DONE observation. -/
theorem Encoder.runFlush_frame (c : Config) (e : Encoder) :
    (e.runFlush c).input = e.input ∧ (e.runFlush c).observed = e.observed := by
  unfold Encoder.runFlush
  split <;> exact ⟨rfl, rfl⟩

theorem Encoder.runContinue_frame (c : Config) (e : Encoder) (px : Pixel) :
    (e.runContinue c px).input = e.input ∧ (e.runContinue c px).observed = e.observed := by
  simp only [Encoder.runContinue]
  split_ifs <;> exact ⟨rfl, rfl⟩

/-- No step of an encoder changes its input or the DONE observation; one that is not BUSY changes nothing (10_state.md
R31). -/
theorem Encoder.step_frame (c : Config) (e : Encoder) :
    (e.step c).input = e.input ∧ (e.step c).observed = e.observed ∧ (e.phase ≠ .busy → e.step c = e) := by
  have input : (e.step c).input = e.input ∧ (e.step c).observed = e.observed := by
    unfold Encoder.step
    split
    · split
      · simp only [Encoder.initStep]
        split_ifs <;> exact ⟨rfl, rfl⟩
      · split
        · simp only [Encoder.pixelStep, Encoder.encodePixel]
          split
          · exact e.runContinue_frame c _
          · exact e.runFlush_frame c
        · exact e.runFlush_frame c
    · exact ⟨rfl, rfl⟩
  exact ⟨input.1, input.2, fun h => if_neg h⟩

theorem runPixelStep_eq {k : Nat} {m : Memory} {s : State} {d : Decoder} (hcur : s.cur = k)
    (h : s.decs[k]? = some d) : runPixelStep k m d s = .next (s.setDec k (d.pixelStep s.cfg m)) := by
  unfold runPixelStep Decoder.pixelStep
  split
  · rfl
  · cases d.fetchChunk s.cfg m with
    | none => rfl
    | some il =>
      obtain ⟨i, len⟩ := il
      subst hcur
      have := exec_eq i (s := s.setDec s.cur { d with pos := d.pos + len }) (State.setDec_get h _)
      simpa using this

/-- The machine's step of a decoder is `Decoder.step`. -/
theorem runDecoder_eq {k : Nat} {s : State} {d : Decoder} (h : s.decs[k]? = some d) :
    runDecoder k s = .next ({ s with cur := k }.setDec k (d.step s.cfg (s.decStream d))) := by
  unfold runDecoder Decoder.step
  rw [h]
  dsimp only
  split
  · cases d.stage with
    | init => rfl
    | body =>
      dsimp only
      split
      · exact runPixelStep_eq (s := { s with cur := k }) rfl h
      · rfl
  · rw [State.setDec_self (s := { s with cur := k }) h]

theorem runEncoder_eq {k : Nat} {s : State} {e : Encoder} (h : s.encs[k]? = some e) :
    runEncoder k s = .next (s.setEnc k (e.step s.cfg)) := by simp [runEncoder, h]

theorem step_of_nextMove_none {s : State} (h : s.nextMove = none) : step s = .next s := by
  simp [step, runNext, h]

theorem step_of_nextMove {s : State} {m : Move} (h : s.nextMove = some m) :
    step s = runMove m { s with agenda := s.agenda.tail } := by
  simp [step, runNext, h]

theorem step_dec {s : State} {k : Nat} {d : Decoder} (hm : s.nextMove = some (.dec k)) (h : s.decs[k]? = some d) :
    step s = .next { s with
      agenda := s.agenda.tail, cur := k, decs := s.decs.set k (d.step s.cfg (s.decStream d)) } := by
  rw [step_of_nextMove hm]
  exact runDecoder_eq (s := { s with agenda := s.agenda.tail }) h

theorem step_enc {s : State} {k : Nat} {e : Encoder} (hm : s.nextMove = some (.enc k)) (h : s.encs[k]? = some e) :
    step s = .next { s with agenda := s.agenda.tail, encs := s.encs.set k (e.step s.cfg) } := by
  rw [step_of_nextMove hm]
  exact runEncoder_eq (s := { s with agenda := s.agenda.tail }) h

theorem step_host {s : State} {a : HostAction} (hm : s.nextMove = some (.host a)) :
    step s = runHost a { s with agenda := s.agenda.tail } := step_of_nextMove hm

/-- Everything a step that answers a next state can be: an idle step, an engine's step, or a host move. -/
theorem step_cases {s t : State} (h : step s = .next t) :
    (s.nextMove = none ∧ t = s) ∨
    (∃ k e, s.nextMove = some (.enc k) ∧ s.encs[k]? = some e ∧
      t = { s with agenda := s.agenda.tail, encs := s.encs.set k (e.step s.cfg) }) ∨
    (∃ k d, s.nextMove = some (.dec k) ∧ s.decs[k]? = some d ∧
      t = { s with agenda := s.agenda.tail, cur := k, decs := s.decs.set k (d.step s.cfg (s.decStream d)) }) ∨
    (∃ a, s.nextMove = some (.host a) ∧ runHost a { s with agenda := s.agenda.tail } = .next t) := by
  cases hm : s.nextMove with
  | none => exact .inl ⟨rfl, by simpa [step_of_nextMove_none hm] using h.symm⟩
  | some m =>
    cases m with
    | enc k =>
      cases he : s.encs[k]? with
      | none => simp [step_of_nextMove hm, runMove, runEncoder, he] at h
      | some e => exact .inr (.inl ⟨k, e, rfl, he, by simpa [step_enc hm he] using h.symm⟩)
    | dec k =>
      cases hd : s.decs[k]? with
      | none => simp [step_of_nextMove hm, runMove, runDecoder, hd] at h
      | some d => exact .inr (.inr (.inl ⟨k, d, rfl, hd, by simpa [step_dec hm hd] using h.symm⟩))
    | host a => exact .inr (.inr (.inr ⟨a, rfl, by rw [← step_host hm]; exact h⟩))

/-- Everything a host move that answers a next state can leave: RESET; a register write, and where it starts an operation
perhaps open streams; a read, which may be the DONE observation; bytes stored in a memory that no BUSY engine owns or
reads; another memory named as DEC_IN of a decoder that is not BUSY. -/
inductive HostEffect (s : State) : HostAction → State → Prop where
  | reset : HostEffect s .assertReset s.assertReset
  | writeEncReg {k reg value : Nat} {e : Encoder} (he : s.encs[k]? = some e)
      (free : (startsOperation e.phase reg value && s.streamInUse k) = false) :
      HostEffect s (.writeEncReg k reg value) (s.setEnc k (e.writeReg s.cfg reg value))
  | startShared {k reg value : Nat} {e : Encoder} (he : s.encs[k]? = some e)
      (starts : startsOperation e.phase reg value = true) (used : s.streamInUse k = true) :
      HostEffect s (.writeEncReg k reg value) ((s.setEnc k (e.writeReg s.cfg reg value)).openStreams k)
  | startOpen {k reg value : Nat} {d : Decoder} (hd : s.decs[k]? = some d)
      (starts : startsOperation d.phase reg value = true) (unready : s.streamReady d = false) :
      HostEffect s (.writeDecReg k reg value)
        { s.setDec k { d.writeReg s.cfg reg value with openStream := some s.draws } with draws := s.draws + 1 }
  | writeDecReg {k reg value : Nat} {d : Decoder} (hd : s.decs[k]? = some d)
      (ready : (startsOperation d.phase reg value && !s.streamReady d) = false) :
      HostEffect s (.writeDecReg k reg value) (s.setDec k (d.writeReg s.cfg reg value))
  | readEncReg {k reg : Nat} {e : Encoder} (data draws : Nat) (he : s.encs[k]? = some e) :
      HostEffect s (.readEncReg k reg)
        { s.setEnc k (if reg = 1 then e.observe else e) with readData := data, draws := draws }
  | readDecReg {k reg : Nat} {d : Decoder} (data draws : Nat) (hd : s.decs[k]? = some d) :
      HostEffect s (.readDecReg k reg)
        { s.setDec k (if reg = 1 then d.observe else d) with readData := data, draws := draws }
  | readBuffer {buf : Buffer} {addr len : Nat} (bytes : List Byte) (draws : Nat) :
      HostEffect s (.readBuffer buf addr len) { s with readBytes := bytes, draws := draws }
  | storeEncIn {a : HostAction} {k addr : Nat} {bytes : List Byte} {e : Encoder} (draws : Nat)
      (he : s.encs[k]? = some e) (idle : e.phase ≠ .busy) :
      HostEffect s a { s.setEnc k { e with input := e.input.writeBytes addr bytes } with draws := draws }
  | storeEncOut {a : HostAction} {k addr : Nat} {bytes : List Byte} {e : Encoder} (draws : Nat)
      (he : s.encs[k]? = some e) (idle : e.phase ≠ .busy) (free : s.streamInUse k = false) :
      HostEffect s a { s.setEnc k { e with output := e.output.writeBytes addr bytes } with draws := draws }
  | storeDecIn {a : HostAction} {k addr : Nat} {bytes : List Byte} {d : Decoder} (draws : Nat)
      (hd : s.decs[k]? = some d) (idle : d.phase ≠ .busy) :
      HostEffect s a { s.setDec k { d with input := d.input.writeBytes addr bytes } with draws := draws }
  | storeDecOut {a : HostAction} {k addr : Nat} {bytes : List Byte} {d : Decoder} (draws : Nat)
      (hd : s.decs[k]? = some d) (idle : d.phase ≠ .busy) :
      HostEffect s a { s.setDec k { d with output := d.output.writeBytes addr bytes } with draws := draws }
  | nameInput {j : Nat} {source : Option Nat} {d : Decoder} (hd : s.decs[j]? = some d) (idle : d.phase ≠ .busy)
      (exists_ : ∀ k, source = some k → k < s.encs.length)
      (ready : s.streamReady { d with inputFrom := source } = true) :
      HostEffect s (.nameInput j source) (s.setDec j { d with inputFrom := source })

/-- Everything `hostStore` can answer. -/
theorem hostStore_next {c : Config} {busy : Bool} {addr len : Nat} {t u : State}
    (h : hostStore c busy addr len t = .next u) : busy = false ∧ addressesOk c addr len = true ∧ u = t := by
  unfold hostStore at h
  cases busy <;> simp_all
  split at h <;> simp_all

theorem hostStore_ok {c : Config} {addr len : Nat} {t : State} (h : addressesOk c addr len = true) :
    hostStore c false addr len t = .next t := by simp [hostStore, h]

theorem hostStore_busy (c : Config) (addr len : Nat) (t : State) :
    hostStore c true addr len t = .refused .hostWriteWhileBusy := rfl

/-- Everything `deliverBytes` can leave: the host's record of what it read, and the draw counter. -/
theorem State.deliverBytes_next {s t : State} {len : Nat} {r : ReadResult} (h : s.deliverBytes len r = .next t) :
    ∃ bytes draws, t = { s with readBytes := bytes, draws := draws } := by
  cases r with
  | bytes bs => exact ⟨bs, s.draws, by simpa [State.deliverBytes] using h.symm⟩
  | unspecified => exact ⟨_, _, by simpa [State.deliverBytes] using h.symm⟩
  | outside => simp [State.deliverBytes] at h

/-- Everything `deliverData` leaves: the host's record of what it read, and the draw counter. -/
theorem State.deliverData_eq (s : State) (width value : Option Nat) :
    ∃ data draws, s.deliverData width value = { s with readData := data, draws := draws } := by
  cases value <;> exact ⟨_, _, rfl⟩

theorem hostWriteEncOut_next {k addr n : Nat} {bytes : List Byte} {s t : State} {a : HostAction}
    (h : hostWriteEncOut k addr bytes { s with draws := n } = .next t) : HostEffect s a t := by
  unfold hostWriteEncOut at h
  cases he : s.encs[k]? with
  | none => simp [he] at h
  | some e =>
    simp only [he] at h
    obtain ⟨hb, -, rfl⟩ := hostStore_next h
    simp only [Bool.or_eq_false_iff, decide_eq_false_iff_not] at hb
    exact .storeEncOut n he hb.1 hb.2

/-- A host write to a buffer is a store in the memory the buffer names. -/
theorem hostWriteBuffer_next {buf : Buffer} {addr n : Nat} {bytes : List Byte} {s t : State} {a : HostAction}
    (h : hostWriteBuffer buf addr bytes { s with draws := n } = .next t) : HostEffect s a t := by
  cases buf with
  | encIn k =>
    cases he : s.encs[k]? with
    | none => simp [hostWriteBuffer, he] at h
    | some e =>
      simp only [hostWriteBuffer, he] at h
      obtain ⟨hb, -, rfl⟩ := hostStore_next h
      exact .storeEncIn n he (by simpa using hb)
  | encOut k => exact hostWriteEncOut_next h
  | decIn k =>
    cases hd : s.decs[k]? with
    | none => simp [hostWriteBuffer, hd] at h
    | some d =>
      simp only [hostWriteBuffer, hd] at h
      split at h
      · cases h
      · next idle =>
        cases hf : d.inputFrom with
        | some k' => simp only [hf] at h; exact hostWriteEncOut_next h
        | none =>
          simp only [hf] at h
          obtain ⟨-, -, rfl⟩ := hostStore_next h
          have stored := HostEffect.storeDecIn (addr := addr) (bytes := bytes) (a := a) n hd idle
          rw [hf] at stored
          exact stored
  | decOut k =>
    cases hd : s.decs[k]? with
    | none => simp [hostWriteBuffer, hd] at h
    | some d =>
      simp only [hostWriteBuffer, hd] at h
      obtain ⟨hb, -, rfl⟩ := hostStore_next h
      exact .storeDecOut n hd (by simpa using hb)

theorem hostReadBuffer_next {buf : Buffer} {addr len : Nat} {s t : State}
    (h : hostReadBuffer buf addr len s = .next t) : ∃ bytes draws, t = { s with readBytes := bytes, draws := draws } := by
  cases buf with
  | encIn k =>
    cases he : s.encs[k]? <;> simp only [hostReadBuffer, he] at h
    · cases h
    · exact State.deliverBytes_next h
  | encOut k =>
    cases he : s.encs[k]? <;> simp only [hostReadBuffer, he] at h
    · cases h
    · exact State.deliverBytes_next h
  | decIn k =>
    cases hd : s.decs[k]? <;> simp only [hostReadBuffer, hd] at h
    · cases h
    · exact State.deliverBytes_next h
  | decOut k =>
    cases hd : s.decs[k]? <;> simp only [hostReadBuffer, hd] at h
    · cases h
    · exact State.deliverBytes_next h

/-- Everything a host move that answers a next state can be (10_state.md R30). -/
theorem runHost_next {a : HostAction} {s t : State} (h : runHost a s = .next t) : HostEffect s a t := by
  cases a with
  | assertReset =>
    obtain rfl : s.assertReset = t := by simpa [runHost] using h
    exact .reset
  | writeEncReg k reg value =>
    cases he : s.encs[k]? with
    | none => simp [runHost, hostWriteEncReg, he] at h
    | some e =>
      simp only [runHost, hostWriteEncReg, he] at h
      split at h
      · next shared =>
        cases h
        rw [Bool.and_eq_true] at shared
        exact .startShared he shared.1 shared.2
      · next free =>
        cases h
        exact .writeEncReg he (by simpa using free)
  | readEncReg k reg =>
    cases he : s.encs[k]? with
    | none => simp [runHost, hostReadEncReg, he] at h
    | some e =>
      simp only [runHost, hostReadEncReg, he] at h
      obtain ⟨data, draws, hq⟩ :=
        State.deliverData_eq (s.setEnc k (if reg = 1 then e.observe else e)) none (e.readReg reg)
      rw [hq] at h
      cases h
      exact .readEncReg data draws he
  | writeDecReg k reg value =>
    cases hd : s.decs[k]? with
    | none => simp [runHost, hostWriteDecReg, hd] at h
    | some d =>
      simp only [runHost, hostWriteDecReg, hd] at h
      split at h
      · next unready =>
        cases h
        rw [Bool.and_eq_true, Bool.not_eq_true'] at unready
        exact .startOpen hd unready.1 unready.2
      · next ready =>
        cases h
        exact .writeDecReg hd (by simpa using ready)
  | readDecReg k reg =>
    cases hd : s.decs[k]? with
    | none => simp [runHost, hostReadDecReg, hd] at h
    | some d =>
      simp only [runHost, hostReadDecReg, hd] at h
      obtain ⟨data, draws, hq⟩ :=
        State.deliverData_eq (s.setDec k (if reg = 1 then d.observe else d)) (Decoder.drawWidth reg) (d.readReg reg)
      rw [hq] at h
      cases h
      exact .readDecReg data draws hd
  | writeBuffer buf addr bytes => exact hostWriteBuffer_next (n := s.draws) h
  | readBuffer buf addr len =>
    obtain ⟨bytes, draws, rfl⟩ := hostReadBuffer_next h
    exact .readBuffer bytes draws
  | copyStream k j =>
    cases he : s.encs[k]? with
    | none => simp [runHost, hostCopyStream, he] at h
    | some e =>
      simp only [runHost, hostCopyStream, he] at h
      split at h
      · exact hostWriteBuffer_next (n := s.draws) h
      · exact hostWriteBuffer_next h
      · cases h
  | nameInput j source =>
    cases hd : s.decs[j]? with
    | none => simp [runHost, hostNameInput, hd] at h
    | some d =>
      simp only [runHost, hostNameInput, hd] at h
      split at h
      · cases h
      · next idle =>
        cases source with
        | none =>
          cases h
          exact .nameInput hd idle (by simp) rfl
        | some k =>
          dsimp only at h
          split at h
          · cases h
          · next hk =>
            split at h
            · next ready =>
              cases h
              exact .nameInput hd idle (by simpa using Nat.lt_of_not_le hk) ready
            · cases h

/-- A run whose first step answers `t` is that step and the run from `t`. -/
theorem runSteps_succ {n : Nat} {s t : State} (h : step s = .next t) : runSteps (n + 1) s = runSteps n t := by
  simp [runSteps, h]

/-- A run of `m + n` steps that comes to `t` after `m` of them. -/
theorem runSteps_add {m : Nat} (n : Nat) {s t : State} (h : runSteps m s = .next t) :
    runSteps (m + n) s = runSteps n t := by
  induction m generalizing s with
  | zero =>
    rw [Nat.zero_add]
    exact congrArg (runSteps n) (by simpa [runSteps] using h)
  | succ m ih =>
    rw [Nat.add_right_comm]
    simp only [runSteps] at h ⊢
    cases hs : step s with
    | next u => rw [hs] at h; exact ih h
    | fault r => simp [hs] at h
    | refused r => simp [hs] at h

/-- The host's run of this machine is `runSteps`. -/
theorem core_run_eq (n : Nat) (s : State) : Sys2Proof.core.run n s = runSteps n s := by
  induction n generalizing s with
  | zero => rfl
  | succ n ih =>
    have h' : Sys2Proof.core.step s = step s := rfl
    simp only [Host.Core.run, runSteps, h']
    cases step s with
    | next t => exact ih t
    | fault r => rfl
    | refused r => rfl

/-- A run of `n` steps of encoder `k`. -/
theorem runSteps_enc (n : Nat) {k : Nat} {s : State} {e : Encoder} (rest : List Move) (h : s.encs[k]? = some e) :
    runSteps n { s with agenda := List.replicate n (.enc k) ++ rest } =
      .next { s with agenda := rest, encs := s.encs.set k ((Encoder.step s.cfg)^[n] e) } := by
  induction n generalizing s e with
  | zero =>
    have := State.setEnc_self h
    simp only [State.setEnc] at this
    show Host.Outcome.next _ = _
    simp only [List.replicate_zero, List.nil_append, Function.iterate_zero, id]
    conv_lhs => rw [← this]
  | succ n ih =>
    rw [runSteps_succ (step_enc (s := { s with agenda := List.replicate (n + 1) (.enc k) ++ rest })
      (k := k) (e := e) rfl h)]
    have := ih (s := { s with encs := s.encs.set k (e.step s.cfg) }) (e := e.step s.cfg) (by
      obtain ⟨hk, -⟩ := List.getElem?_eq_some_iff.1 h
      simp [hk])
    simp only [List.set_set] at this
    exact this

/-- A run of `n` steps of decoder `k`. -/
theorem runSteps_dec (n : Nat) {k : Nat} {s : State} {d : Decoder} (rest : List Move) (h : s.decs[k]? = some d) :
    runSteps n { s with agenda := List.replicate n (.dec k) ++ rest } =
      .next { s with
        agenda := rest, cur := if n = 0 then s.cur else k,
        decs := s.decs.set k ((Decoder.step s.cfg (s.decStream d))^[n] d) } := by
  induction n generalizing s d with
  | zero =>
    have := State.setDec_self h
    simp only [State.setDec] at this
    show Host.Outcome.next _ = _
    simp only [List.replicate_zero, List.nil_append, Function.iterate_zero, id, if_true]
    conv_lhs => rw [← this]
  | succ n ih =>
    rw [runSteps_succ (step_dec (s := { s with agenda := List.replicate (n + 1) (.dec k) ++ rest })
      (k := k) (d := d) rfl h)]
    have same : State.decStream { s with cur := k, decs := s.decs.set k (d.step s.cfg (s.decStream d)) }
        (d.step s.cfg (s.decStream d)) = s.decStream d :=
      (Decoder.step_frame _ _ _).1.decStream_eq rfl
    have := ih (s := { s with cur := k, decs := s.decs.set k (d.step s.cfg (s.decStream d)) })
      (d := d.step s.cfg (s.decStream d)) (by
        obtain ⟨hk, -⟩ := List.getElem?_eq_some_iff.1 h
        simp [hk])
    simp only [List.set_set, ite_self, same] at this
    rw [if_neg (Nat.succ_ne_zero n)]
    exact this

end Sys2Proof.Machine
end

