-- ==== Sys2Proof/Laws/Chunk.lean ====
section
/-! SUPPORT. What the parts of a step leave, in the terms of Safety.lean: the pixel commit, the abort, Emit and the run
flush; the decoder on a prefix of its input; and the arithmetic of bytes, lengths and header fields. -/

namespace Sys2Proof

/-- A chunk decodes from its own bytes as it does with more bytes after them (30_encoding.md R116). -/
theorem decode_cons_append {t : TagAssignment} {b : Byte} {own more : List Byte}
    (h : chunkLen t b = own.length + 1) :
    ∃ i, decode t (b :: own) = .ok (i, []) ∧ decode t (b :: (own ++ more)) = .ok (i, more) := by
  rw [chunkLen_eq] at h
  cases hk : chunkKind t b <;> simp only [hk] at h
  · match own, h with | [], _ => simp [decode, hk]
  · match own, h with | [], _ => simp [decode, hk]
  · match own, h with | [_], _ => simp [decode, hk]
  · match own, h with | [], _ => simp [decode, hk]
  · match own, h with | [_, _, _], _ => simp [decode, hk]
  · match own, h with | [_, _, _, _], _ => simp [decode, hk]

/-- The one byte of a RUN chunk, in arithmetic (30_encoding.md R112). -/
theorem encode_run_toNat (t : TagAssignment) :
    ∀ m : BitVec 6, m ≠ 0 → encode t (.run m.toNat) = [BitVec.ofNat 8 (0xC0 + (m.toNat - 1))] := by
  simp only [encode, List.cons.injEq, and_true]
  decide

/-- A big-endian word in arithmetic (20_memory.md R73). -/
theorem ofBe32_toNat (b3 b2 b1 b0 : Byte) :
    (ofBe32 b3 b2 b1 b0).toNat = b3.toNat * 2 ^ 24 + b2.toNat * 2 ^ 16 + b1.toNat * 2 ^ 8 + b0.toNat := by
  have h2 := b2.isLt
  have h1 := b1.isLt
  have h0 := b0.isLt
  unfold ofBe32
  simp only [BitVec.toNat_append]
  rw [← Nat.shiftLeft_add_eq_or_of_lt (by omega), ← Nat.shiftLeft_add_eq_or_of_lt (by omega),
    ← Nat.shiftLeft_add_eq_or_of_lt (by omega)]
  simp only [Nat.shiftLeft_eq]
  omega

end Sys2Proof

namespace Sys2Proof.Machine

/-! ### Values -/

/-- wrap8 is the remainder modulo 256 (00_scope.md R10). -/
theorem wrap8_toNat (x : Int) : ((wrap8 x).toNat : Int) = x % 256 := by
  unfold wrap8
  rw [BitVec.toNat_ofInt]
  omega

/-- A delta is the signed value of the byte difference (41_encoder.md R168). -/
theorem delta_eq_toInt (a b : Byte) : delta a b = (a - b).toInt := by
  unfold delta s8 wrap8 u8
  congr 1
  apply BitVec.eq_of_toNat_eq
  rw [BitVec.toNat_ofInt, BitVec.toNat_sub]
  omega

/-- A length that fits is kept (92_eei_decisions.md D29). -/
theorem lengthRegister_of_fits {c : Config} {v : Nat} (h : c.fits v) : lengthRegister c v = v := by
  unfold lengthRegister
  cases hw : c.lenWidth with
  | none => rfl
  | some w => simp [h w hw]

/-- The address check is the claims' `addressable` (20_memory.md R70). -/
theorem addressesOk_iff (c : Config) (addr len : Nat) : addressesOk c addr len = true ↔ c.addressable addr len := by
  unfold addressesOk Config.addressable
  cases c.lenWidth <;> simp

theorem addressesOk_eq_false_iff (c : Config) (addr len : Nat) :
    addressesOk c addr len = false ↔ ¬c.addressable addr len := by
  rw [← addressesOk_iff, Bool.not_eq_true]

theorem overMaxPixels_iff (c : Config) (n : Nat) :
    overMaxPixels c n = true ↔ ¬∀ m, c.maxPixels = some m → n ≤ m := by
  unfold overMaxPixels
  cases c.maxPixels <;> simp

theorem channelsOk_and_colorspaceOk (ch cs : Byte) :
    (channelsOk ch && colorspaceOk cs) = true ↔ (ch = 3 ∨ ch = 4) ∧ (cs = 0 ∨ cs = 1) := by
  simp [channelsOk, colorspaceOk]

/-! ### The header (42_decoder.md R202) -/

@[simp] theorem Decoder.parseHeader_w (c : Config) (m : Memory) (d : Decoder) :
    (d.parseHeader c m).w.toNat = be32At m (magicLen c) := by
  simp only [Decoder.parseHeader, ofBe32_toNat, headerByte, be32At, Nat.add_zero]

@[simp] theorem Decoder.parseHeader_h (c : Config) (m : Memory) (d : Decoder) :
    (d.parseHeader c m).h.toNat = be32At m (magicLen c + 4) := by
  simp only [Decoder.parseHeader, ofBe32_toNat, headerByte, be32At, Nat.add_assoc]

/-! ### The pixel commit and the abort -/

/-- PixelCommit leaves what `Produces` says (42_decoder.md R213, R214). -/
theorem Decoder.commit_produces (d : Decoder) (px : Pixel) (run : BitVec 6) (pos : Nat) :
    d.Produces (Decoder.commit { d with run := run, pos := pos } px) px run pos := by
  have at_ := Decoder.commit_output_pixel { d with run := run, pos := pos } px
  have len : 3 ≤ (d.pixelList px).length := by
    rw [Decoder.pixelList_length]; unfold Decoder.pixelBytes; split <;> omega
  refine ⟨rfl, rfl, rfl, rfl, fun i => cacheRead_cacheUpdate _ _ _, (at_ 0 (by exact len.trans' (by omega))).trans ?_,
    (at_ 1 (by exact len.trans' (by omega))).trans ?_, (at_ 2 (by exact len)).trans ?_, fun h4 => ?_,
    fun a h => Decoder.commit_output_outside { d with run := run, pos := pos } px h, rfl⟩
  · simp only [Decoder.pixelList]; split <;> rfl
  · simp only [Decoder.pixelList]; split <;> rfl
  · simp only [Decoder.pixelList]; split <;> rfl
  · exact (at_ 3 (by simp [Decoder.pixelBytes, h4])).trans (by simp [Decoder.pixelList, h4])

/-- An abort leaves what `Aborts` says, also of a decoder whose header registers INIT has written (60_exceptions.md
R260). -/
theorem Decoder.raise_aborts (d : Decoder) (w h : Word32) (ch cs : Byte) (n pos : Nat) (code : ErrCode) :
    d.Aborts (Decoder.raise { d with w := w, h := h, ch := ch, cs := cs, n := n, pos := pos } code) code :=
  ⟨rfl, rfl, rfl, rfl, rfl, rfl, rfl, rfl, rfl, rfl, rfl⟩

/-- An abort leaves what `Aborts` says, also of an encoder whose pixel count INIT has written (60_exceptions.md R260). -/
theorem Encoder.raise_aborts (e : Encoder) (n : Nat) (code : ErrCode) :
    e.Aborts (Encoder.raise { e with n := n } code) code :=
  ⟨rfl, rfl, rfl, rfl, rfl, rfl, rfl, rfl, rfl⟩

/-! ### Stores -/

/-- Storing bytes leaves what `Stores` says (00_scope.md R12). -/
theorem Memory.writeBytes_stores (m : Memory) (addr : Nat) (bytes : List Byte) :
    m.Stores (m.writeBytes addr bytes) addr bytes :=
  ⟨Memory.readBytes_writeBytes _ _ _, fun _ h => Memory.read_writeBytes_outside _ _ _ h⟩

/-! ### Emit -/

/-- Emit appends (00_scope.md R12). -/
theorem Encoder.emit_appends (e : Encoder) (bytes : List Byte) : e.Appends (e.emit bytes) bytes :=
  ⟨rfl, Memory.writeBytes_stores _ _ _⟩

/-- Nothing was appended where neither the pointer nor the buffer changed. -/
theorem Encoder.appends_nil {e e' : Encoder} (hp : e'.opos = e.opos) (ho : e'.output = e.output) : e.Appends e' [] :=
  ⟨hp, rfl, fun _ _ => by rw [ho]⟩

/-- Two appends are one. -/
theorem Encoder.appends_trans {e e1 e2 : Encoder} {b1 b2 : List Byte} (h1 : e.Appends e1 b1) (h2 : e1.Appends e2 b2) :
    e.Appends e2 (b1 ++ b2) := by
  obtain ⟨p1, r1, k1⟩ := h1
  obtain ⟨p2, r2, k2⟩ := h2
  refine ⟨by rw [List.length_append]; omega, ?_, fun a ha => ?_⟩
  · rw [List.length_append, Memory.readBytes_add, ← p1, r2]
    congr 1
    exact (Memory.readBytes_congr _ _ _ _ fun x _ hx => k2 x (by omega)).trans r1
  · rw [List.length_append] at ha
    rw [k2 a (by omega), k1 a (by omega)]

/-- RunFlush appends the open run's byte, clears the run and changes nothing else (41_encoder.md R166). -/
theorem Encoder.runFlush_spec (c : Config) (e : Encoder) :
    e.Appends (e.runFlush c) e.openRun ∧ (e.runFlush c).run = 0 ∧
    { e.runFlush c with run := e.run, opos := e.opos, output := e.output } = e := by
  unfold Encoder.runFlush Encoder.openRun
  split
  · next h => exact ⟨Encoder.appends_nil rfl rfl, h, rfl⟩
  · next h =>
    refine ⟨?_, rfl, rfl⟩
    have := Encoder.emit_appends e (encode c.tags (.run e.run.toNat))
    rw [encode_run_toNat c.tags e.run h] at this
    unfold Encoder.emitRun
    rw [encode_run_toNat c.tags e.run h]
    exact this

/-! ### What a step of an engine can be -/

/-- Everything the step of an encoder can be (10_state.md R31, R38). -/
theorem Encoder.step_cases (c : Config) (e : Encoder) :
    (e.phase ≠ .busy ∧ e.step c = e) ∨
    (e.phase = .busy ∧ e.stage = .init ∧ e.step c = e.initStep c) ∨
    (e.atPixel ∧ e.step c = e.pixelStep c) ∨
    (e.phase = .busy ∧ e.stage = .body ∧ e.n ≤ e.pix ∧ e.step c = e.finalStep c) := by
  by_cases hb : e.phase = .busy
  · cases hs : e.stage with
    | init => exact .inr (.inl ⟨hb, rfl, by simp [Encoder.step, hb, hs]⟩)
    | body =>
      by_cases hp : e.pix < e.n
      · exact .inr (.inr (.inl ⟨⟨hb, hs, hp⟩, by simp [Encoder.step, hb, hs, hp]⟩))
      · exact .inr (.inr (.inr ⟨hb, rfl, Nat.not_lt.1 hp, by simp [Encoder.step, hb, hs, hp]⟩))
  · exact .inl ⟨hb, by simp [Encoder.step, hb]⟩

/-- Everything the step of a decoder can be (10_state.md R31, R46; 42_decoder.md R204). -/
theorem Decoder.step_cases (c : Config) (m : Memory) (d : Decoder) :
    (d.phase ≠ .busy ∧ d.step c m = d) ∨
    (d.phase = .busy ∧ d.stage = .init ∧ d.step c m = d.initStep c m) ∨
    (d.atPixel ∧ d.run ≠ 0 ∧ d.step c m = d.replay) ∨
    (d.atPixel ∧ d.run = 0 ∧ d.fetchChunk c m = none ∧ d.step c m = d.raise .truncatedStream) ∨
    (∃ i len, d.atPixel ∧ d.run = 0 ∧ d.fetchChunk c m = some (i, len) ∧
      d.step c m = Decoder.execChunk { d with pos := d.pos + len } i) ∨
    (d.phase = .busy ∧ d.stage = .body ∧ d.n ≤ d.pix ∧ d.step c m = d.finalStep c m) := by
  by_cases hb : d.phase = .busy
  · by_cases hs : d.stage = .init
    · exact .inr (.inl ⟨hb, hs, by simp [Decoder.step, hb, hs]⟩)
    · replace hs : d.stage = .body := by cases h : d.stage <;> simp_all
      by_cases hp : d.pix < d.n
      · have hstep : d.step c m = d.pixelStep c m := by simp [Decoder.step, hb, hs, hp]
        by_cases hr : d.run = 0
        · have hrun : d.pixelStep c m = match d.fetchChunk c m with
              | none => d.raise .truncatedStream
              | some (i, len) => Decoder.execChunk { d with pos := d.pos + len } i := if_neg (not_not.2 hr)
          cases hf : d.fetchChunk c m with
          | none => exact .inr (.inr (.inr (.inl ⟨⟨hb, hs, hp⟩, hr, rfl, by rw [hstep, hrun, hf]⟩)))
          | some il =>
            exact .inr (.inr (.inr (.inr (.inl
              ⟨il.1, il.2, ⟨hb, hs, hp⟩, hr, rfl, by rw [hstep, hrun, hf]⟩))))
        · exact .inr (.inr (.inl ⟨⟨hb, hs, hp⟩, hr, hstep.trans (if_pos hr)⟩))
      · exact .inr (.inr (.inr (.inr (.inr ⟨hb, hs, Nat.not_lt.1 hp, by simp [Decoder.step, hb, hs, hp]⟩))))
  · exact .inl ⟨hb, by simp [Decoder.step, hb]⟩

/-- Everything exec can answer: the current decoder after the chunk, or the refusal where there is none. -/
theorem exec_cases (i : Instr) (s : State) :
    (∃ d, s.decs[s.cur]? = some d ∧ exec i s = .next (s.setDec s.cur (d.execChunk i))) ∨
    (s.decs[s.cur]? = none ∧ exec i s = .refused .noSuchEngine) := by
  cases h : s.decs[s.cur]? with
  | none => exact .inr ⟨rfl, by cases i <;> exact onDecoder_none h⟩
  | some d => exact .inl ⟨d, rfl, exec_eq i h⟩

/-- A fetched chunk lies inside the input and is what the decoder reads there (42_decoder.md R206). -/
theorem Decoder.fetchChunk_some {c : Config} {m : Memory} {d : Decoder} {i : Instr} {len : Nat}
    (h : d.fetchChunk c m = some (i, len)) :
    len = chunkLen c.tags (m.read d.pos) ∧ d.pos + len ≤ d.inLen ∧
    ∃ rest, decode c.tags (m.readBytes d.pos len) = .ok (i, rest) := by
  unfold Decoder.fetchChunk at h
  dsimp only at h
  split at h
  · cases h
  · split at h
    · cases h
    · split at h
      · next hl i' rest hd =>
        simp only [Option.some.injEq, Prod.mk.injEq] at h
        obtain ⟨rfl, rfl⟩ := h
        exact ⟨rfl, by omega, rest, hd⟩
      · cases h

end Sys2Proof.Machine
end

