-- ==== Sys2Proof/Laws/PerInstr.lean ====
section
/-! SUPPORT. Facts about every instruction as syntax, one lemma per constructor. -/

namespace Sys2Proof.Laws

/-- The first byte of an encoded chunk gives the number of bytes it takes (30_encoding.md R116). -/
def EncodedLength.Statement (i : Instr) : Prop :=
  ∀ t : TagAssignment, i.wellFormed = true →
    ∃ b rest, encode t i = b :: rest ∧ chunkLen t b = (encode t i).length

theorem EncodedLength.index (i : Slot) : EncodedLength.Statement (.index i) :=
  fun t _ => ⟨_, _, rfl, by rw [chunkLen_eq, chunkKind_index]; rfl⟩

theorem EncodedLength.diff (dr dg db : Int) : EncodedLength.Statement (.diff dr dg db) :=
  fun t _ => ⟨_, _, rfl, by rw [chunkLen_eq, chunkKind_diff]; rfl⟩

theorem EncodedLength.luma (dg drDg dbDg : Int) : EncodedLength.Statement (.luma dg drDg dbDg) :=
  fun t _ => ⟨_, _, rfl, by rw [chunkLen_eq, chunkKind_luma]; rfl⟩

theorem EncodedLength.run (n : Nat) : EncodedLength.Statement (.run n) := fun t h => by
  obtain ⟨h1, h2⟩ := storedRun_le (show runLengthOk n = true from h)
  exact ⟨_, _, rfl, by rw [chunkLen_eq, chunkKind_run t _ (by omega)]; rfl⟩

theorem EncodedLength.rgb (r g b : Byte) : EncodedLength.Statement (.rgb r g b) :=
  fun t _ => ⟨_, _, rfl, by rw [chunkLen_eq, chunkKind_tagRgb]; rfl⟩

theorem EncodedLength.rgba (r g b a : Byte) : EncodedLength.Statement (.rgba r g b a) :=
  fun t _ => ⟨_, _, rfl, by rw [chunkLen_eq, chunkKind_tagRgba]; rfl⟩

end Sys2Proof.Laws
end

