-- ==== Sys2Proof/Tests/Slice0.lean ====
section
/-! SUPPORT. Tests of the model against the spec's words and vectors (95_test_vectors.md), and for every obligation with
hypotheses a witness that meets them, one for each clause. -/

namespace Sys2Proof.Tests

open Sys2Proof.Machine

/-! ### WellFormed: an ill-formed term for each check (30_encoding.md R110 to R112) -/

theorem test_diff_red_too_low : (Instr.diff (-3) 0 0).wellFormed = false := by decide
theorem test_diff_green_too_high : (Instr.diff 0 2 0).wellFormed = false := by decide
theorem test_diff_blue_too_high : (Instr.diff 0 0 2).wellFormed = false := by decide
theorem test_luma_green_too_high : (Instr.luma 32 0 0).wellFormed = false := by decide
theorem test_luma_red_too_low : (Instr.luma 0 (-9) 0).wellFormed = false := by decide
theorem test_luma_blue_too_high : (Instr.luma 0 0 8).wellFormed = false := by decide
theorem test_run_zero : (Instr.run 0).wellFormed = false := by decide
theorem test_run_too_long : (Instr.run 63).wellFormed = false := by decide

/-- The ends of every operand range are well-formed (30_encoding.md R110 to R112): witnesses for DecodeOfEncode and
ChunkBytesByArithmetic. -/
theorem witness_wellFormed :
    (Instr.index 63).wellFormed = true ∧ (Instr.diff (-2) (-2) (-2)).wellFormed = true ∧
    (Instr.diff 1 1 1).wellFormed = true ∧ (Instr.luma (-32) (-8) (-8)).wellFormed = true ∧
    (Instr.luma 31 7 7).wellFormed = true ∧ (Instr.run 1).wellFormed = true ∧ (Instr.run 62).wellFormed = true ∧
    (Instr.rgb 0 0 255).wellFormed = true ∧ (Instr.rgba 0 0 0 255).wellFormed = true := by decide

/-! ### Decoding: words from the encodings of 30_encoding.md R109 to R114 -/

/-- R109: 00iiiiii. -/
theorem test_decode_index : decode .source [0b00110101, 7] = .ok (.index 53, [7]) := by decide
/-- R110: 01rrggbb, here DIFF 1,1,-2 and DIFF -2,-1,0. -/
theorem test_decode_diff :
    decode .source [0b01111100] = .ok (.diff 1 1 (-2), []) ∧
    decode .source [0b01000110] = .ok (.diff (-2) (-1) 0, []) := by decide
/-- R111: 10gggggg rrrrbbbb, here LUMA 0,2,0 and LUMA -1,-2,4. -/
theorem test_decode_luma :
    decode .source [0b10100000, 0b10101000] = .ok (.luma 0 2 0, []) ∧
    decode .source [0b10011111, 0b01101100] = .ok (.luma (-1) (-2) 4, []) := by decide
/-- R112: 11nnnnnn with n - 1 stored. -/
theorem test_decode_run :
    decode .source [0b11000010] = .ok (.run 3, []) ∧ decode .source [0b11111101] = .ok (.run 62, []) := by decide
/-- R113: the tag, then r, g, b. -/
theorem test_decode_rgb : decode .source [0b11111111, 10, 11, 12, 9] = .ok (.rgb 10 11 12, [9]) := by decide
/-- R114: the tag, then r, g, b, a. -/
theorem test_decode_rgba : decode .source [0b11111110, 1, 2, 3, 64, 9] = .ok (.rgba 1 2 3 64, [9]) := by decide
/-- 90_conflicts.md C1: the other tag assignment. -/
theorem test_decode_swapped :
    decode .swapped [0xFE, 10, 11, 12] = .ok (.rgb 10 11 12, []) ∧
    decode .swapped [0xFF, 1, 2, 3, 64] = .ok (.rgba 1 2 3 64, []) := by decide
/-- R117: an incomplete chunk is the only malformed one (95_test_vectors.md DT1, DT2). -/
theorem test_decode_incomplete :
    decode .source [0xFE, 1, 2] = .error .incomplete ∧ decode .source [0xA0] = .error .incomplete ∧
    decode .source [] = .error .noBytes := by decide

/-- The opcode table's numbering: byte k of a chunk is bits 8k+7 .. 8k. -/
theorem test_table_words :
    decodeTableWord 8 0x35 = some (.index 53) ∧ decodeTableWord 8 0x7C = some (.diff 1 1 (-2)) ∧
    decodeTableWord 16 0xA8A0 = some (.luma 0 2 0) ∧ decodeTableWord 8 0xC2 = some (.run 3) ∧
    decodeTableWord 32 0x0C0B0AFF = some (.rgb 10 11 12) ∧
    decodeTableWord 40 0x40030201FE = some (.rgba 1 2 3 64) := by decide

/-- 95_test_vectors.md S5, S7, EE10, EE11: encoded chunks. -/
theorem test_encode_words :
    encode .source (.diff 1 1 (-2)) = [0x7C] ∧ encode .source (.luma 0 2 0) = [0xA0, 0xA8] ∧
    encode .source (.luma (-32) (-8) (-8)) = [0x80, 0x00] ∧ encode .source (.luma 31 7 7) = [0xBF, 0xFF] ∧
    encode .source (.rgb 9 0 0) = [0xFF, 9, 0, 0] ∧ encode .source (.rgba 7 7 7 200) = [0xFE, 7, 7, 7, 0xC8] ∧
    encode .source (.index 11) = [0x0B] ∧ encode .source (.run 62) = [0xFD] := by decide

/-- 95_test_vectors.md, 0: the header H(1,1,4,0). -/
theorem test_header :
    headerBytes Config.standard 1 1 4 0 =
      [0x71, 0x6F, 0x69, 0x66, 0, 0, 0, 1, 0, 0, 0, 1, 4, 0] := by decide

/-- 95_test_vectors.md 2.1. -/
theorem test_hash :
    [hashOf ⟨1, 2, 3, 4⟩, hashOf ⟨3, 1, 253, 255⟩, hashOf ⟨100, 50, 25, 128⟩, hashOf ⟨254, 254, 254, 255⟩] =
      [14, 46, 21, 23] := by decide

/-- 00_scope.md R10: wrap8 and s8, at the ends of the byte. -/
theorem test_wrap :
    wrap8 (-1) = 255 ∧ wrap8 256 = 0 ∧ s8 127 = 127 ∧ s8 128 = -128 ∧ delta 0 255 = 1 ∧ delta 216 5 = -45 := by decide

/-! ### One step of a decoder -/

/-- A running decoder past INIT with the given bytes left to read, two pixels to go. -/
def bodyDec (bytes : List Byte) : Decoder :=
  { Decoder.powerOn with
    phase := .busy, stage := .body, n := 2, ch := 4, prev := Pixel.initial, inLen := bytes.length,
    input := Memory.writeBytes [] 0 bytes }

/-- The defaults, but for LEN_WIDTH = 8. -/
def eightBits : Config := { Config.standard with lenWidth := some 8 }

/-- The defaults, but for MAX_PIXELS = 3. -/
def threePixels : Config := { Config.standard with maxPixels := some 3 }

/-- A decoder that START has just put in BUSY, with the given stream. -/
def initDec (bytes : List Byte) : Decoder :=
  { Decoder.powerOn with phase := .busy, inLen := bytes.length, input := Memory.writeBytes [] 0 bytes }

/-- The system of one decoder, which moves next. -/
def decTurnState (c : Config) (d : Decoder) : State := { State.resetWith c with decs := [d], agenda := [.dec 0] }

/-- The system of one encoder, which moves next. -/
def encTurnState (c : Config) (e : Encoder) : State := { State.resetWith c with encs := [e], agenda := [.enc 0] }

/-- The system with one host move to make. -/
def hostTurnState (a : HostAction) : State := { State.reset with agenda := [.host a] }

/-- What a field of decoder 0 is after a step that answers a next state. -/
def decAfter {α : Type} (o : Host.Outcome State Fault Refusal) (f : Decoder → α) : Option α :=
  match o with
  | .next s => s.decs.head?.map f
  | _ => none

/-- What a field of encoder 0 is after a step that answers a next state. -/
def encAfter {α : Type} (o : Host.Outcome State Fault Refusal) (f : Encoder → α) : Option α :=
  match o with
  | .next s => s.encs.head?.map f
  | _ => none

/-- Why a step stopped, if it did. -/
def stopOf (o : Host.Outcome State Fault Refusal) : Option (Fault ⊕ Refusal) :=
  match o with
  | .next _ => none
  | .fault r => some (.inl r)
  | .refused r => some (.inr r)

/-- The step of a decoder at these bytes: the pixel produced, and where it stands in DEC_OUT. -/
def pixelOf (d : Decoder) : Option (Pixel × Nat × List Byte) :=
  decAfter (step (decTurnState Config.standard d)) fun d => (d.prev, d.pos, d.output.readBytes 0 4)

/-- 95_test_vectors.md DC1. -/
theorem test_index_step : pixelOf (bodyDec [0x05]) = some (⟨0, 0, 0, 0⟩, 1, [0, 0, 0, 0]) := by decide
/-- 95_test_vectors.md DC2. -/
theorem test_diff_step : pixelOf (bodyDec [0x40]) = some (⟨254, 254, 254, 255⟩, 1, [254, 254, 254, 255]) := by decide
/-- 95_test_vectors.md DC5. -/
theorem test_luma_step :
    pixelOf (bodyDec [0x80, 0x00]) = some (⟨216, 224, 216, 255⟩, 2, [216, 224, 216, 255]) := by decide
/-- 95_test_vectors.md DC6. -/
theorem test_luma_step_high :
    pixelOf (bodyDec [0xBF, 0xFF]) = some (⟨38, 31, 38, 255⟩, 2, [38, 31, 38, 255]) := by decide
/-- 95_test_vectors.md DC9. -/
theorem test_rgb_step :
    pixelOf { bodyDec [0xFF, 0x0A, 0x0B, 0x0C] with prev := ⟨1, 2, 3, 64⟩ } =
      some (⟨10, 11, 12, 64⟩, 4, [10, 11, 12, 64]) := by decide
/-- 95_test_vectors.md DC10. -/
theorem test_rgba_step :
    pixelOf (bodyDec [0xFE, 1, 2, 3, 0x40]) = some (⟨1, 2, 3, 64⟩, 5, [1, 2, 3, 64]) := by decide
/-- 95_test_vectors.md DC13. -/
theorem test_run_step :
    pixelOf { bodyDec [0xC2] with prev := ⟨5, 5, 5, 255⟩ } = some (⟨5, 5, 5, 255⟩, 1, [5, 5, 5, 255]) := by decide
/-- 95_test_vectors.md DC12. -/
theorem test_run_step_counter :
    decAfter (step (decTurnState Config.standard (bodyDec [0xFD]))) (·.run) = some 61 := by decide
/-- 95_test_vectors.md DC14: three channels, three bytes written, the alpha kept in d.prev. -/
theorem test_three_channels :
    pixelOf { bodyDec [0xFE, 1, 2, 3, 0x40] with ch := 3 } = some (⟨1, 2, 3, 64⟩, 5, [1, 2, 3, 0]) := by decide
/-- 95_test_vectors.md DC2: the cache slot written. -/
theorem test_cache_written :
    decAfter (step (decTurnState Config.standard (bodyDec [0x40]))) (fun d => cacheRead d.cache 23) =
      some ⟨254, 254, 254, 255⟩ := by decide
/-- 95_test_vectors.md DT1. -/
theorem test_truncated_chunk :
    decAfter (step (decTurnState Config.standard (bodyDec [0xFE, 1, 2]))) (fun d => statusWord d.phase d.err) =
      some 0x43 := by decide

/-- The host's words run as the first instruction after reset. -/
theorem test_withFetchWord :
    [(8, 0x05), (8, 0x40), (16, 0x0080), (8, 0xC0), (32, 0x0C0B0AFF), (40, 0x40030201FE)].map (fun (n, w) =>
      decAfter (step (State.reset.withFetchWord n w)) (fun d => (d.prev, d.pix))) =
    [some (⟨0, 0, 0, 0⟩, 1), some (⟨254, 254, 254, 0⟩, 1), some (⟨216, 224, 216, 0⟩, 1), some (⟨0, 0, 0, 0⟩, 1),
      some (⟨10, 11, 12, 0⟩, 1), some (⟨1, 2, 3, 64⟩, 1)] := by decide

/-- The STATUS of a decoder after its INIT step on a stream. -/
def initStatus (c : Config) (bytes : List Byte) : Option Byte :=
  decAfter (step (decTurnState c (initDec bytes))) fun d => statusWord d.phase d.err

/-- 95_test_vectors.md DI1 to DI8, in order (DI7 passes INIT). -/
theorem test_decoder_init :
    [initStatus Config.standard ((headerBytes Config.standard 1 1 4 0).take 13),
     initStatus Config.standard ([0x71, 0x6F, 0x69, 0x78, 0, 0, 0, 1, 0, 0, 0, 1, 4, 0, 0xC0] ++ endMarker),
     initStatus Config.standard (headerBytes Config.standard 1 1 5 0 ++ [0xC0] ++ endMarker),
     initStatus Config.standard (headerBytes Config.standard 1 1 4 2 ++ [0xC0] ++ endMarker),
     initStatus Config.standard (headerBytes Config.standard 0 1 4 0 ++ endMarker),
     initStatus Config.standard (headerBytes Config.standard 0 1 5 0 ++ endMarker),
     initStatus Config.standard (headerBytes Config.standard 1 1 4 0),
     initStatus threePixels (headerBytes Config.standard 2 2 4 0)] =
    [some 0x23, some 0x63, some 0x33, some 0x33, some 0x73, some 0x33, some 0x01, some 0x73] := by decide

/-- A decoder before its FINAL step, with the given bytes left. -/
def finalDec (bytes : List Byte) : Decoder :=
  { bodyDec bytes with n := 1, pix := 1, w := 1, h := 1, cs := 0 }

/-- The STATUS after the FINAL step. -/
def finalStatus (c : Config) (bytes : List Byte) : Option Byte :=
  decAfter (step (decTurnState c (finalDec bytes))) fun d => statusWord d.phase d.err

/-- 95_test_vectors.md DF1, DF2, DF3, DF6, DF7. -/
theorem test_decoder_final :
    [finalStatus Config.standard [0, 0, 0, 0, 0, 0, 0],
     finalStatus Config.standard [0, 0, 0, 0, 0, 0, 0, 0],
     finalStatus Config.standard endMarker,
     finalStatus Config.standard (endMarker ++ [0x99]),
     finalStatus { Config.standard with trailing := .reject } (endMarker ++ [0x99])] =
    [some 0x43, some 0x53, some 0x02, some 0x02, some 0x83] := by decide

/-! ### One step of an encoder -/

/-- An encoder that START has just put in BUSY. -/
def initEnc (w h : Word32) (ch cs : Byte) (inLen : Nat) : Encoder :=
  { Encoder.powerOn with phase := .busy, w := w, h := h, ch := ch, cs := cs, inLen := inLen }

/-- The STATUS of an encoder after its INIT step. -/
def encInitStatus (c : Config) (e : Encoder) : Option Byte :=
  encAfter (step (encTurnState c e)) fun e => statusWord e.phase e.err

/-- 95_test_vectors.md EI1 to EI8, in order. -/
theorem test_encoder_init :
    [encInitStatus Config.standard (initEnc 1 1 4 0 4), encInitStatus Config.standard (initEnc 2 1 4 0 7),
     encInitStatus Config.standard (initEnc 0 1 4 0 0), encInitStatus Config.standard (initEnc 1 1 5 0 4),
     encInitStatus Config.standard (initEnc 1 1 5 0 99), encInitStatus Config.standard (initEnc 1 1 4 2 4),
     encInitStatus Config.standard (initEnc 2 2 3 1 12),
     encInitStatus threePixels (initEnc 2 2 4 0 16)] =
    [some 0x01, some 0x13, some 0x13, some 0x33, some 0x33, some 0x33, some 0x01, some 0x13] := by decide

/-- 95_test_vectors.md EI7: the header emitted. -/
theorem test_encoder_header :
    encAfter (step (encTurnState Config.standard (initEnc 2 2 3 1 12))) (fun e => e.output.readBytes 0 e.opos) =
      some [0x71, 0x6F, 0x69, 0x66, 0, 0, 0, 2, 0, 0, 0, 2, 3, 1] := by decide

/-- A running encoder past INIT, before a pixel step on the given pixel. -/
def bodyEnc (prev : Pixel) (run : BitVec 6) (slots : List Pixel) (px : Pixel) : Encoder :=
  { Encoder.powerOn with
    phase := .busy, stage := .body, ch := 4, cs := 0, w := 1, h := 1, n := 1, inLen := 4, prev := prev, run := run,
    cache := slots.foldl cacheUpdate Cache.zero, input := Memory.writeBytes [] 0 [px.r, px.g, px.b, px.a] }

/-- The bytes the pixel step emits. -/
def emitted (e : Encoder) : Option (List Byte) :=
  encAfter (step (encTurnState Config.standard e)) fun e => e.output.readBytes 0 e.opos

/-- 95_test_vectors.md EE1 to EE7. -/
theorem test_encoder_emits :
    [emitted (bodyEnc ⟨0, 0, 0, 255⟩ 0 [] ⟨0, 0, 0, 255⟩),
     emitted (bodyEnc ⟨5, 5, 5, 255⟩ 61 [] ⟨5, 5, 5, 255⟩),
     emitted (bodyEnc ⟨5, 5, 5, 255⟩ 2 [] ⟨216, 224, 216, 255⟩),
     emitted (bodyEnc ⟨10, 10, 10, 255⟩ 0 [⟨0, 0, 0, 255⟩] ⟨0, 0, 0, 255⟩),
     emitted (bodyEnc ⟨0, 0, 0, 255⟩ 0 [] ⟨0, 0, 0, 0⟩),
     emitted (bodyEnc ⟨0, 0, 0, 255⟩ 0 [] ⟨255, 255, 255, 255⟩),
     emitted (bodyEnc ⟨255, 255, 255, 255⟩ 0 [] ⟨0, 0, 0, 255⟩)] =
    [some [], some [0xFD], some [0xC1, 0xFF, 0xD8, 0xE0, 0xD8], some [0x35], some [0x00], some [0x55],
     some [0x7F]] := by decide

/-- 95_test_vectors.md EE8 to EE16. -/
theorem test_encoder_emits_more :
    [emitted (bodyEnc ⟨0, 0, 0, 255⟩ 0 [] ⟨1, 1, 254, 255⟩),
     emitted (bodyEnc ⟨0, 0, 0, 255⟩ 0 [] ⟨2, 0, 0, 255⟩),
     emitted (bodyEnc ⟨0, 0, 0, 255⟩ 0 [] ⟨216, 224, 216, 255⟩),
     emitted (bodyEnc ⟨0, 0, 0, 255⟩ 0 [] ⟨38, 31, 38, 255⟩),
     emitted (bodyEnc ⟨0, 0, 0, 255⟩ 0 [] ⟨32, 32, 32, 255⟩),
     emitted (bodyEnc ⟨0, 0, 0, 255⟩ 0 [] ⟨9, 0, 0, 255⟩),
     emitted (bodyEnc ⟨7, 7, 7, 255⟩ 0 [] ⟨7, 7, 7, 200⟩),
     emitted (bodyEnc ⟨3, 1, 253, 255⟩ 0 [] ⟨0, 0, 0, 255⟩),
     emitted (bodyEnc ⟨1, 1, 254, 255⟩ 0 [] ⟨0, 0, 0, 255⟩)] =
    [some [0x7C], some [0xA0, 0xA8], some [0x80, 0x00], some [0xBF, 0xFF], some [0xFF, 0x20, 0x20, 0x20],
     some [0xFF, 9, 0, 0], some [0xFE, 7, 7, 7, 0xC8], some [0x9F, 0x6C], some [0x9F, 0x8B]] := by decide

/-- 95_test_vectors.md EE1: the cache write of a run under either value of ENC_CACHE_ON_RUN. -/
theorem test_cache_on_run :
    encAfter (step (encTurnState Config.standard (bodyEnc ⟨0, 0, 0, 255⟩ 0 [] ⟨0, 0, 0, 255⟩)))
        (fun e => cacheRead e.cache 53) = some ⟨0, 0, 0, 255⟩ ∧
    encAfter (step (encTurnState { Config.standard with encCacheOnRun := false }
        (bodyEnc ⟨0, 0, 0, 255⟩ 0 [] ⟨0, 0, 0, 255⟩))) (fun e => cacheRead e.cache 53) = some ⟨0, 0, 0, 0⟩ := by decide

/-- 95_test_vectors.md EF2: FINAL with an open run of 3. -/
theorem test_encoder_final :
    emitted { bodyEnc ⟨0, 0, 0, 255⟩ 3 [] ⟨0, 0, 0, 255⟩ with pix := 1 } = some ([0xC2] ++ endMarker) := by decide

/-- The buffers after reset are in canonical form, and a write keeps them so. -/
theorem test_reset_memory_wf :
    (∀ e ∈ State.reset.encs, e.input.wf = true ∧ e.output.wf = true) ∧
    (∀ d ∈ State.reset.decs, d.input.wf = true ∧ d.output.wf = true) ∧
    Memory.writeBytes [] 3 [7, 0, 9] = [(3, 7), (5, 9)] ∧
    Memory.writeBytes [(3, 7), (5, 9)] 3 [0, 8] = [(4, 8), (5, 9)] := by decide

/-! ### Witnesses: the hypotheses of the obligations hold somewhere -/

/-- EncodeOfDecode. -/
theorem witness_EncodeOfDecode : ∃ t bytes i rest, decode t bytes = .ok (i, rest) :=
  ⟨.source, [0xFD], .run 62, [], by decide⟩

/-- FirstByteFixesLength: bytes that are enough for each length, and one byte too few for each length above 1. -/
theorem witness_FirstByteFixesLength :
    decode .source [0x3F] = .ok (.index 63, []) ∧ decode .source [0xBF, 0] = .ok (.luma 31 (-8) (-8), []) ∧
    decode .source [0xBF] = .error .incomplete ∧ decode .source [0xFF, 1, 2] = .error .incomplete ∧
    decode .source [0xFE, 1, 2, 3] = .error .incomplete := by decide

/-- OpcodeMapByValue: the ends of each range of first bytes (30_encoding.md R108). -/
theorem witness_OpcodeMapByValue :
    decode .source [0x00] = .ok (.index 0, []) ∧ decode .source [0x3F] = .ok (.index 63, []) ∧
    decode .source [0x40] = .ok (.diff (-2) (-2) (-2), []) ∧ decode .source [0x7F] = .ok (.diff 1 1 1, []) ∧
    decode .source [0x80, 0x00] = .ok (.luma (-32) (-8) (-8), []) ∧
    decode .source [0xBF, 0xFF] = .ok (.luma 31 7 7, []) ∧
    decode .source [0xC0] = .ok (.run 1, []) ∧ decode .source [0xFD] = .ok (.run 62, []) := by decide

/-- RawChunksComplete, DeltaChunksComplete, CachedChunksComplete, ChosenChunkProducesPixel: after reset. -/
theorem witness_chunk_has_a_decoder : State.reset.decs[State.reset.cur]? = some Decoder.powerOn := by decide

/-- CachedChunksComplete: the ends of the run lengths. -/
theorem witness_run_lengths : (1 ≤ 1 ∧ 1 ≤ 62) ∧ (1 ≤ 62 ∧ 62 ≤ 62) := by decide

/-- ChunkNeedsADecoder. -/
theorem witness_ChunkNeedsADecoder : ∃ s : State, s.decs[s.cur]? = none :=
  ⟨{ State.reset with cur := 1 }, by decide⟩

/-- A decoder in its body is at a pixel step, and the state is its turn. -/
theorem bodyDec_turn (bytes : List Byte) (c : Config) :
    (decTurnState c (bodyDec bytes)).decTurn 0 (bodyDec bytes) ∧ (bodyDec bytes).atPixel ∧ (bodyDec bytes).run = 0 :=
  ⟨⟨rfl, rfl⟩, ⟨rfl, rfl, Nat.two_pos⟩, rfl⟩

/-- StepRunsDecodedChunk: the bytes left decode to DIFF 1,1,-2. -/
theorem witness_StepRunsDecodedChunk :
    ∃ (s : State) (k : Nat) (d : Decoder) (i : Instr) (rest : List Byte),
      s.decTurn k d ∧ d.atPixel ∧ d.run = 0 ∧
      decode s.cfg.tags ((s.decStream d).readBytes d.pos (d.inLen - d.pos)) = .ok (i, rest) :=
  have h := bodyDec_turn [0x7C, 0x00] Config.standard
  ⟨_, _, _, .diff 1 1 (-2), [0x00], h.1, h.2.1, h.2.2, by decide⟩

/-- IncompleteChunkAborts: no byte left, and too few. -/
theorem witness_IncompleteChunkAborts :
    ∀ r : DecodeError, ∃ (s : State) (k : Nat) (d : Decoder), s.decTurn k d ∧ d.atPixel ∧ d.run = 0 ∧
      decode s.cfg.tags ((s.decStream d).readBytes d.pos (d.inLen - d.pos)) = .error r
  | .noBytes => have h := bodyDec_turn [] Config.standard; ⟨_, _, _, h.1, h.2.1, h.2.2, by decide⟩
  | .incomplete => have h := bodyDec_turn [0xFE, 1, 2] Config.standard; ⟨_, _, _, h.1, h.2.1, h.2.2, by decide⟩

/-- OpenRunReplays. -/
theorem witness_OpenRunReplays :
    ∃ (s : State) (k : Nat) (d : Decoder), s.decTurn k d ∧ d.atPixel ∧ d.run ≠ 0 :=
  ⟨decTurnState Config.standard { bodyDec [] with run := 61 }, 0, _, ⟨rfl, rfl⟩, ⟨rfl, rfl, by decide⟩, by decide⟩

/-- The hypotheses of PixelStepByBytes hold with these bytes, of which the first is `b`. -/
def PixelAt (c : Config) (bytes : List Byte) (b : Byte) : Prop :=
  ∃ (s : State) (k : Nat) (d : Decoder), s.decTurn k d ∧ d.atPixel ∧ d.run = 0 ∧ s.cfg = c ∧
    (s.decStream d).read (d.pos + 0) = b ∧ d.pos + bytes.length = d.inLen

theorem pixelAt (c : Config) (b : Byte) (bytes : List Byte) (h : (bodyDec (b :: bytes)).input.read 0 = b) :
    PixelAt c (b :: bytes) b :=
  have t := bodyDec_turn (b :: bytes) c
  ⟨_, _, _, t.1, t.2.1, t.2.2, rfl, h, Nat.zero_add _⟩

/-- PixelStepByBytes: the ends of each clause's range, with just enough bytes. -/
theorem witness_PixelStepByBytes :
    PixelAt Config.standard [0xFF, 1, 2, 3] 0xFF ∧ PixelAt Config.standard [0xFE, 1, 2, 3, 4] 0xFE ∧
    PixelAt Config.standard [0x00] 0x00 ∧ PixelAt Config.standard [0x3F] 0x3F ∧
    PixelAt Config.standard [0x40] 0x40 ∧ PixelAt Config.standard [0x7F] 0x7F ∧
    PixelAt Config.standard [0x80, 0xFF] 0x80 ∧ PixelAt Config.standard [0xBF, 0x00] 0xBF ∧
    PixelAt Config.standard [0xC0] 0xC0 ∧ PixelAt Config.standard [0xFD] 0xFD :=
  ⟨pixelAt _ _ _ (by decide), pixelAt _ _ _ (by decide), pixelAt _ _ _ (by decide), pixelAt _ _ _ (by decide),
    pixelAt _ _ _ (by decide), pixelAt _ _ _ (by decide), pixelAt _ _ _ (by decide), pixelAt _ _ _ (by decide),
    pixelAt _ _ _ (by decide), pixelAt _ _ _ (by decide)⟩

/-- PixelStepByBytes: one byte too few for each chunk of more than one byte. -/
theorem witness_PixelStepByBytes_short :
    PixelAt Config.standard [0xFF, 1, 2] 0xFF ∧ PixelAt Config.standard [0xFE, 1, 2, 3] 0xFE ∧
    PixelAt Config.standard [0x80] 0x80 ∧
    (tagRgb Config.standard.tags = 0xFF ∧ tagRgba Config.standard.tags = 0xFE) :=
  ⟨pixelAt _ _ _ (by decide), pixelAt _ _ _ (by decide), pixelAt _ _ _ (by decide), by decide⟩

/-- A decoder that START put in BUSY, whose turn it is. -/
theorem initDec_turn (bytes : List Byte) (c : Config) :
    (decTurnState c (initDec bytes)).decTurn 0 (initDec bytes) ∧ (initDec bytes).phase = .busy ∧
      (initDec bytes).stage = .init :=
  ⟨⟨rfl, rfl⟩, rfl, rfl⟩

/-- Each of these decoders reads its own memory. -/
theorem initDec_decStream (bytes : List Byte) (c : Config) :
    (decTurnState c (initDec bytes)).decStream (initDec bytes) = (initDec bytes).input ∧
    (decTurnState c (finalDec bytes)).decStream (finalDec bytes) = (finalDec bytes).input := ⟨rfl, rfl⟩

/-- DecoderInitStep: a stream for each clause, by `initDec_turn` and `initDec_decStream` a decoder at INIT. -/
theorem witness_DecoderInitStep :
    (initDec [0x71, 0x6F, 0x69, 0x66, 0, 0, 0, 1, 0, 0, 0, 1, 4]).inLen < hdrLen Config.standard ∧
    (let d := initDec [0x71, 0x6F, 0x69, 0x78, 0, 0, 0, 1, 0, 0, 0, 1, 4, 0]
     hdrLen Config.standard ≤ d.inLen ∧ ¬d.magicOk Config.standard d.input) ∧
    (let d := initDec (headerBytes Config.standard 1 1 4 2)
     d.magicOk Config.standard d.input ∧ ¬d.input.formatOk Config.standard) ∧
    (let d := initDec (headerBytes Config.standard 0 1 4 0)
     d.magicOk Config.standard d.input ∧ d.input.formatOk Config.standard ∧ ¬d.input.dimensionsOk Config.standard) ∧
    (let d := initDec (headerBytes Config.standard 1 1 3 1)
     d.magicOk Config.standard d.input ∧ d.input.formatOk Config.standard ∧ d.input.dimensionsOk Config.standard) := by
  refine ⟨by decide, ?_, ?_, ?_, ?_⟩
  · exact ⟨by decide, fun h => absurd h.2 (by decide)⟩
  · exact ⟨⟨by decide, by decide⟩, fun h => absurd h.2 (by decide)⟩
  · exact ⟨⟨by decide, by decide⟩, ⟨by decide, by decide⟩, fun h => absurd h.1 (by decide)⟩
  · exact ⟨⟨by decide, by decide⟩, ⟨by decide, by decide⟩, by decide, by decide, by intro m h; cases h⟩

/-- DecoderInitStep: MAX_PIXELS is the other way to fail the dimension check. -/
theorem witness_DecoderInitStep_maxPixels :
    let d := initDec (headerBytes Config.standard 2 2 4 0)
    d.magicOk threePixels d.input ∧ d.input.formatOk threePixels ∧ ¬d.input.dimensionsOk threePixels :=
  ⟨⟨by decide, by decide⟩, ⟨by decide, by decide⟩, fun h => absurd (h.2.2 3 rfl) (by decide)⟩

/-- Every length fits the unbounded registers of the defaults. -/
theorem standard_fits (n : Nat) : Config.standard.fits n := by intro w h; cases h

/-- DecoderFinalStep: the hypotheses, and a stream for each clause (the memory by `initDec_decStream`). -/
theorem witness_DecoderFinalStep :
    (∀ (bytes : List Byte) (c : Config), (decTurnState c (finalDec bytes)).decTurn 0 (finalDec bytes) ∧
      (finalDec bytes).phase = .busy ∧ (finalDec bytes).stage = .body ∧ (finalDec bytes).pix = (finalDec bytes).n) ∧
    (let d := finalDec [0, 0, 0, 0, 0, 0, 0]; d.inLen < d.pos + 8) ∧
    (let d := finalDec [0, 0, 0, 0, 0, 0, 0, 0]
     d.pos + 8 ≤ d.inLen ∧ d.input.readBytes d.pos 8 ≠ [0, 0, 0, 0, 0, 0, 0, 1]) ∧
    (let d := finalDec [0, 0, 0, 0, 0, 0, 0, 1, 0x99]
     d.pos + 8 ≤ d.inLen ∧ d.input.readBytes d.pos 8 = [0, 0, 0, 0, 0, 0, 0, 1] ∧ d.pos + 8 ≠ d.inLen) ∧
    (let d := finalDec [0, 0, 0, 0, 0, 0, 0, 1]
     d.pos + 8 ≤ d.inLen ∧ d.input.readBytes d.pos 8 = [0, 0, 0, 0, 0, 0, 0, 1] ∧
     (Config.standard.trailing = .reject → d.pos + 8 = d.inLen) ∧ Config.standard.fits (d.n * d.ch.toNat) ∧
     Config.standard.fits (d.pos + 8)) := by
  refine ⟨fun _ _ => ⟨⟨rfl, rfl⟩, rfl, rfl, rfl⟩, by decide, by decide, by decide, by decide, by decide, by decide, ?_⟩
  exact ⟨standard_fits _, standard_fits _⟩

/-- EncoderInitStep: the hypotheses, and a request for each clause. -/
theorem witness_EncoderInitStep :
    (∀ (w h : Word32) (ch cs : Byte) (n : Nat) (c : Config),
      (encTurnState c (initEnc w h ch cs n)).encTurn 0 (initEnc w h ch cs n) ∧
      (initEnc w h ch cs n).phase = .busy ∧ (initEnc w h ch cs n).stage = .init) ∧
    (let e := initEnc 1 1 5 0 4; ¬((e.ch = 3 ∨ e.ch = 4) ∧ (e.cs = 0 ∨ e.cs = 1))) ∧
    (let e := initEnc 2 1 4 0 7
     ((e.ch = 3 ∨ e.ch = 4) ∧ (e.cs = 0 ∨ e.cs = 1)) ∧ ¬e.legal Config.standard) ∧
    (initEnc 2 2 3 1 12).legal Config.standard := by
  refine ⟨fun _ _ _ _ _ _ => ⟨⟨rfl, rfl⟩, rfl, rfl⟩, by decide, ⟨by decide, ?_⟩, ?_⟩
  · intro h; exact absurd h.2.2.2.2.2 (by decide)
  · exact ⟨by decide, by decide, by decide, by decide, by rintro m ⟨⟩, by decide⟩

/-- EncoderReadsPixelLayout: both channel counts. -/
theorem witness_EncoderReadsPixelLayout : (initEnc 1 1 4 0 4).ch = 4 ∧ (initEnc 1 1 3 0 3).ch ≠ 4 := by decide

/-- An encoder in its body is at a pixel step, and the state is its turn. -/
theorem bodyEnc_turn (c : Config) (prev : Pixel) (run : BitVec 6) (slots : List Pixel) (px : Pixel) :
    (encTurnState c (bodyEnc prev run slots px)).encTurn 0 (bodyEnc prev run slots px) ∧
      (bodyEnc prev run slots px).atPixel :=
  ⟨⟨rfl, rfl⟩, ⟨rfl, rfl, Nat.zero_lt_one⟩⟩

/-- EncoderContinuesRun, by `bodyEnc_turn`: the runs at which the two clauses meet. -/
theorem witness_EncoderContinuesRun :
    (let e := bodyEnc ⟨5, 5, 5, 255⟩ 60 [] ⟨5, 5, 5, 255⟩; e.run.toNat < 61 ∧ e.readPixel e.pix = e.prev) ∧
    (let e := bodyEnc ⟨5, 5, 5, 255⟩ 61 [] ⟨5, 5, 5, 255⟩; e.run.toNat = 61 ∧ e.readPixel e.pix = e.prev) := by decide

/-- What `bodyEnc` reads, its differences, and what its slot holds: the inputs of EncoderEmitsChunk's clauses. -/
def clauseInputs (e : Encoder) : Bool × Bool × Int × Int × Int :=
  let px := e.readPixel e.pix
  (decide (cacheRead e.cache (hashOf px) = px), decide (px.a = e.prev.a), (px.r - e.prev.r).toInt,
    (px.g - e.prev.g).toInt, (px.b - e.prev.b).toInt)

/-- EncoderEmitsChunk, by `bodyEnc_turn`: a hit; no hit with differences at the ends of DIFF, just past them, at the
ends of LUMA, and just past them; another alpha. In each the pixel differs from the previous one. -/
theorem witness_EncoderEmitsChunk :
    [clauseInputs (bodyEnc ⟨10, 10, 10, 255⟩ 3 [⟨0, 0, 0, 255⟩] ⟨0, 0, 0, 255⟩),
     clauseInputs (bodyEnc ⟨0, 0, 0, 255⟩ 0 [] ⟨1, 1, 254, 255⟩),
     clauseInputs (bodyEnc ⟨0, 0, 0, 255⟩ 0 [] ⟨2, 0, 0, 255⟩),
     clauseInputs (bodyEnc ⟨0, 0, 0, 255⟩ 0 [] ⟨38, 31, 38, 255⟩),
     clauseInputs (bodyEnc ⟨0, 0, 0, 255⟩ 0 [] ⟨216, 224, 216, 255⟩),
     clauseInputs (bodyEnc ⟨0, 0, 0, 255⟩ 0 [] ⟨32, 32, 32, 255⟩),
     clauseInputs (bodyEnc ⟨7, 7, 7, 255⟩ 0 [] ⟨7, 7, 7, 200⟩)] =
    [(true, true, -10, -10, -10), (false, true, 1, 1, -2), (false, true, 2, 0, 0), (false, true, 38, 31, 38),
     (false, true, -40, -32, -40), (false, true, 32, 32, 32), (false, false, 0, 0, 0)] := by decide

/-- EncoderFinalStep, with its clause on the length register. -/
theorem witness_EncoderFinalStep :
    ∃ (s : State) (k : Nat) (e : Encoder), s.encTurn k e ∧ e.phase = .busy ∧ e.stage = .body ∧ e.pix = e.n ∧
      ∀ e' : Encoder, s.cfg.fits e'.opos :=
  ⟨encTurnState Config.standard { bodyEnc Pixel.initial 3 [] Pixel.initial with pix := 1 }, 0, _, ⟨rfl, rfl⟩, rfl, rfl,
    rfl, fun _ => standard_fits _⟩

/-- ChosenChunkIsCanonical: pixels for which each clause's chunk is chosen. -/
theorem witness_ChosenChunkIsCanonical :
    chooseChunk ⟨2, 0, 0, 255⟩ Pixel.initial Pixel.zero = .luma 0 2 0 ∧
    chooseChunk ⟨7, 7, 7, 200⟩ Pixel.initial Pixel.zero = .rgba 7 7 7 200 ∧
    chooseChunk ⟨9, 0, 0, 255⟩ Pixel.initial Pixel.zero = .rgb 9 0 0 ∧
    chooseChunk Pixel.zero Pixel.initial Pixel.zero = .index 0 ∧ Pixel.zero ≠ Pixel.initial := by decide

/-- EncoderStart and EncoderRegisterWrite: the move is the host's, and encoder 0 is there, IDLE. -/
theorem witness_encoder_write (reg v : Nat) :
    (hostTurnState (.writeEncReg 0 reg v)).nextMove = some (.host (.writeEncReg 0 reg v)) ∧
    (hostTurnState (.writeEncReg 0 reg v)).encs[0]? = some Encoder.powerOn ∧ Encoder.powerOn.phase ≠ .busy :=
  ⟨rfl, rfl, by decide⟩

/-- DecoderStart and DecoderRegisterWrite: the move is the host's, and decoder 0 is there, IDLE. -/
theorem witness_decoder_write (reg v : Nat) :
    (hostTurnState (.writeDecReg 0 reg v)).nextMove = some (.host (.writeDecReg 0 reg v)) ∧
    (hostTurnState (.writeDecReg 0 reg v)).decs[0]? = some Decoder.powerOn ∧ Decoder.powerOn.phase ≠ .busy :=
  ⟨rfl, rfl, by decide⟩

/-- A system of one encoder and one decoder whose DEC_IN names the encoder's output, with one host move to make. -/
def sharedState (ephase : Phase) (observed : Bool) (dphase : Phase) (a : HostAction) : State :=
  { hostTurnState a with
    encs := [{ Encoder.powerOn with phase := ephase, observed := observed, outLen := 5 }]
    decs := [{ Decoder.powerOn with phase := dphase, inputFrom := some 0 }] }

/-- EncoderStart: with no decoder reading the output, and with a BUSY one; DecoderStart: with DEC_IN its own memory, with
an observed stream, and with one that is not (by `witness_decoder_write` where it is its own). -/
theorem witness_start_shared :
    (∀ d ∈ (hostTurnState (.writeEncReg 0 0 1)).decs, d.inputFrom = some 0 → d.phase ≠ .busy) ∧
    (let s := sharedState .done true .busy (.writeEncReg 0 0 1)
     ∃ d ∈ s.decs, d.inputFrom = some 0 ∧ d.phase = .busy) ∧
    (∀ k, Decoder.powerOn.inputFrom = some k → State.reset.observedDone k) ∧
    (let s := sharedState .done true .idle (.writeDecReg 0 0 1)
     s.observedDone 0) ∧
    (let s := sharedState .done false .idle (.writeDecReg 0 0 1)
     ∃ d, s.decs[0]? = some d ∧ d.phase ≠ .busy ∧
       ∃ k e, d.inputFrom = some k ∧ s.encs[k]? = some e ∧ (e.phase ≠ .done ∨ e.observed = false)) :=
  ⟨by decide, ⟨_, List.mem_singleton_self _, rfl, rfl⟩, fun _ h => (by cases h), ⟨_, rfl, rfl, rfl⟩,
    ⟨_, rfl, by decide, 0, _, rfl, rfl, .inr rfl⟩⟩

/-- R49, R54: START starts the operation in each case of `witness_start_shared`, and where the spec leaves the decoder's
bytes open its stream is open. -/
theorem test_start_shared :
    encAfter (step (sharedState .done true .busy (.writeEncReg 0 0 1))) (·.phase) = some .busy ∧
    decAfter (step (sharedState .done true .busy (.writeEncReg 0 0 1))) (·.openStream) = some (some 0) ∧
    decAfter (step (sharedState .error true .idle (.writeDecReg 0 0 1))) (fun d => (d.phase, d.openStream)) =
      some (.busy, some 0) ∧
    decAfter (step (sharedState .done true .idle (.writeDecReg 0 0 1))) (fun d => (d.phase, d.openStream)) =
      some (.busy, none) := by decide

/-- A decoder that reads an open stream has d.IN_LEN free bytes before it, whatever the memory holds. -/
theorem test_open_stream :
    ({ initDec [0x71] with openStream := some 7 }).inLen = 1 ∧
    (State.reset.decStream { initDec [0x71] with openStream := some 7 }).read 0 = Config.freeStreamByte 7 0 :=
  ⟨rfl, read_freeStream (by decide)⟩

/-- EncoderStart, DecoderStart: the clause of a BUSY engine, for a write of START. -/
theorem witness_start_while_busy :
    (∃ (s : State) (e : Encoder), s.nextMove = some (.host (.writeEncReg 0 0 1)) ∧ s.encs[0]? = some e ∧
      e.phase = .busy) ∧
    ∃ (s : State) (d : Decoder), s.nextMove = some (.host (.writeDecReg 0 0 1)) ∧ s.decs[0]? = some d ∧
      d.phase = .busy :=
  ⟨⟨{ encTurnState Config.standard (initEnc 1 1 4 0 4) with agenda := [.host (.writeEncReg 0 0 1)] }, _, rfl, rfl, rfl⟩,
    ⟨{ decTurnState Config.standard (initDec []) with agenda := [.host (.writeDecReg 0 0 1)] }, _, rfl, rfl, rfl⟩⟩

/-- EncoderStart, DecoderStart: START is bit 0 of the value written; register writes: the largest values that fit. -/
theorem witness_written_values :
    0xFF % 2 = 1 ∧ 0xFE % 2 = 0 ∧ 0xFFFFFFFF < 2 ^ 32 ∧ 0xFF < 2 ^ 8 ∧ Config.standard.fits 0xFFFFFFFF :=
  ⟨rfl, rfl, by decide, by decide, standard_fits _⟩

/-- RegisterWriteCommutesWithStep. -/
theorem witness_RegisterWriteCommutesWithStep :
    State.reset.encs[0]? = some Encoder.powerOn ∧ State.reset.decs[0]? = some Decoder.powerOn ∧ 2 ≠ 0 := by decide

/-- RegisterReads and ReservedReadsAreFree: for every register number of either engine (those of the tables and the
reserved ones), the move is the host's and the engine is there. -/
theorem witness_register_reads (reg : Nat) :
    ((hostTurnState (.readEncReg 0 reg)).nextMove = some (.host (.readEncReg 0 reg)) ∧
      (hostTurnState (.readEncReg 0 reg)).encs[0]? = some Encoder.powerOn) ∧
    (hostTurnState (.readDecReg 0 reg)).nextMove = some (.host (.readDecReg 0 reg)) ∧
      (hostTurnState (.readDecReg 0 reg)).decs[0]? = some Decoder.powerOn :=
  ⟨⟨rfl, rfl⟩, rfl, rfl⟩

/-- RegisterReads: in DONE every decoder register of the table may be read. -/
theorem witness_RegisterReads_done :
    ∃ (s : State) (d : Decoder), s.nextMove = some (.host (.readDecReg 0 3)) ∧ s.decs[0]? = some d ∧ d.phase = .done :=
  ⟨{ hostTurnState (.readDecReg 0 3) with decs := [{ Decoder.powerOn with phase := .done }] }, _, rfl, rfl, rfl⟩

/-- EarlyResultReadLearnsNothing: the ends of the result registers' numbers, outside DONE. -/
theorem witness_EarlyResultReadLearnsNothing :
    (∃ (s : State) (d : Decoder), s.nextMove = some (.host (.readDecReg 0 3)) ∧ s.decs[0]? = some d ∧
      d.phase ≠ .done) ∧
    ∃ (s : State) (d : Decoder), s.nextMove = some (.host (.readDecReg 0 6)) ∧ s.decs[0]? = some d ∧
      d.phase ≠ .done :=
  ⟨⟨hostTurnState (.readDecReg 0 3), _, rfl, rfl, by decide⟩, ⟨hostTurnState (.readDecReg 0 6), _, rfl, rfl, by decide⟩⟩

/-- Addresses that fit the unbounded registers of the defaults, and the ends of those of eight bits. -/
theorem witness_addressable :
    (∀ addr len, Config.standard.addressable addr len) ∧ eightBits.addressable 252 4 ∧ ¬eightBits.addressable 253 4 ∧
    eightBits.addressable 0 5 :=
  ⟨fun _ _ _ h => (by cases h), (by rintro w ⟨⟩; decide), fun h => absurd (h 8 rfl) (by decide), (by rintro w ⟨⟩; decide)⟩

/-- EarlyOutputReadLearnsNothing, by `witness_addressable`: outside DONE, and in DONE before the host observed it; and a
memory that DEC_IN names. -/
theorem witness_EarlyOutputReadLearnsNothing :
    (∃ (s : State) (e : Encoder), s.nextMove = some (.host (.readBuffer (.encOut 0) 0 4)) ∧ s.encs[0]? = some e ∧
      e.phase ≠ .done) ∧
    (∃ (s : State) (d : Decoder), s.nextMove = some (.host (.readBuffer (.decOut 0) 0 4)) ∧ s.decs[0]? = some d ∧
      d.phase = .done ∧ d.observed = false) ∧
    ∃ (s : State) (d : Decoder) (e : Encoder), s.nextMove = some (.host (.readBuffer (.decIn 0) 0 4)) ∧
      s.decs[0]? = some d ∧ d.inputFrom = some 0 ∧ s.encs[0]? = some e ∧ (e.phase ≠ .done ∨ e.observed = false) :=
  ⟨⟨hostTurnState _, _, rfl, rfl, by decide⟩,
    ⟨{ hostTurnState _ with decs := [{ Decoder.powerOn with phase := .done }] }, _, rfl, rfl, rfl, rfl⟩,
    ⟨sharedState .done false .idle _, _, _, rfl, rfl, rfl, rfl, .inr rfl⟩⟩

/-- PublishedOutputReads: a read that ends at the published length, and one that goes a byte past it; by
`witness_addressable` one whose addresses have no eight bits. -/
theorem witness_PublishedOutputReads :
    (∀ addr, ∃ (s : State) (e : Encoder), s.nextMove = some (.host (.readBuffer (.encOut 0) addr 4)) ∧
      s.encs[0]? = some e ∧ e.phase = .done ∧ e.observed = true ∧ e.outLen = 5) ∧
    (∀ addr, ∃ (s : State) (d : Decoder), s.nextMove = some (.host (.readBuffer (.decOut 0) addr 4)) ∧
      s.decs[0]? = some d ∧ d.phase = .done ∧ d.observed = true ∧ d.outLen = 5) ∧
    1 + 4 ≤ 5 ∧ 5 < 2 + 4 :=
  ⟨fun addr => ⟨sharedState .done true .idle (.readBuffer (.encOut 0) addr 4), _, rfl, rfl, rfl, rfl, rfl⟩,
    fun addr => ⟨{ hostTurnState (.readBuffer (.decOut 0) addr 4) with
      decs := [{ Decoder.powerOn with phase := .done, observed := true, outLen := 5 }] }, _, rfl, rfl, rfl, rfl, rfl⟩,
    by decide, by decide⟩

/-- HostInputReads: a buffer of five bytes; DEC_IN its own memory and one that it names. -/
theorem witness_HostInputReads :
    (∀ addr, ∃ (s : State) (e : Encoder), s.nextMove = some (.host (.readBuffer (.encIn 0) addr 4)) ∧
      s.encs[0]? = some e ∧ e.regInLen = 5) ∧
    (∀ addr, ∃ (s : State) (d : Decoder), s.nextMove = some (.host (.readBuffer (.decIn 0) addr 4)) ∧
      s.decs[0]? = some d ∧ (∀ k, d.inputFrom = some k → s.observedDone k) ∧ d.regInLen = 5) ∧
    ∃ (s : State) (d : Decoder), s.nextMove = some (.host (.readBuffer (.decIn 0) 0 0)) ∧
      s.decs[0]? = some d ∧ d.inputFrom = some 0 ∧ ∀ k, d.inputFrom = some k → s.observedDone k :=
  ⟨fun addr => ⟨{ hostTurnState (.readBuffer (.encIn 0) addr 4) with
      encs := [{ Encoder.powerOn with regInLen := 5 }] }, _, rfl, rfl, rfl⟩,
    fun addr => ⟨{ hostTurnState (.readBuffer (.decIn 0) addr 4) with
      decs := [{ Decoder.powerOn with regInLen := 5 }] }, _, rfl, rfl, fun _ h => (by cases h), rfl⟩,
    ⟨sharedState .done true .idle _, _, rfl, rfl, rfl, (by rintro k ⟨⟩; exact ⟨_, rfl, rfl, rfl⟩)⟩⟩

/-- R82: reading STATUS in DONE is the observation; in BUSY it is not, and RESET forgets it. -/
theorem test_observation :
    encAfter (step (sharedState .done false .idle (.readEncReg 0 1))) (·.observed) = some true ∧
    encAfter (step (sharedState .done false .idle (.readEncReg 0 7))) (·.observed) = some false ∧
    encAfter (step (sharedState .busy false .idle (.readEncReg 0 1))) (·.observed) = some false ∧
    decAfter (step { hostTurnState (.readDecReg 0 1) with decs := [{ Decoder.powerOn with phase := .done }] })
      (·.observed) = some true ∧
    encAfter (step (sharedState .done true .idle .assertReset)) (·.observed) = some false ∧
    encAfter (step (sharedState .done true .idle (.writeEncReg 0 0 1))) (·.observed) = some false := by decide

/-- R70: an address has LEN_WIDTH bits, here eight. -/
theorem test_addresses :
    encAfter (step { hostTurnState (.writeBuffer (.encIn 0) 254 [7, 8]) with cfg := eightBits })
      (fun e => e.input.readBytes 254 2) = some [7, 8] ∧
    stopOf (step { hostTurnState (.writeBuffer (.encIn 0) 255 [7, 8]) with cfg := eightBits }) =
      some (.inl .outsideBuffer) ∧
    stopOf (step (hostTurnState (.readBuffer (.encIn 0) 0 1))) = some (.inl .outsideBuffer) := by decide

/-- BusyBufferWritesAreRefused: both buffers of either engine, and a shared memory under either name, with either of
the two engines BUSY. -/
theorem witness_BusyBufferWritesAreRefused (addr : Nat) (bytes : List Byte) :
    (∀ buf, buf = Buffer.encIn 0 ∨ buf = Buffer.encOut 0 → ∃ (s : State) (e : Encoder), s.encs[0]? = some e ∧
      e.phase = .busy ∧ s.nextMove = some (.host (.writeBuffer buf addr bytes))) ∧
    (∀ buf, buf = Buffer.decIn 0 ∨ buf = Buffer.decOut 0 → ∃ (s : State) (d : Decoder), s.decs[0]? = some d ∧
      d.phase = .busy ∧ s.nextMove = some (.host (.writeBuffer buf addr bytes))) ∧
    ∀ ephase dphase buf, buf = Buffer.decIn 0 ∨ buf = Buffer.encOut 0 → ∃ (s : State) (e : Encoder) (d : Decoder),
      s.encs[0]? = some e ∧ e.phase = ephase ∧ s.decs[0]? = some d ∧ d.phase = dphase ∧ d.inputFrom = some 0 ∧
      s.nextMove = some (.host (.writeBuffer buf addr bytes)) :=
  ⟨fun buf _ => ⟨{ hostTurnState (.writeBuffer buf addr bytes) with encs := [initEnc 1 1 4 0 4] }, _, rfl, rfl, rfl⟩,
    fun buf _ => ⟨{ hostTurnState (.writeBuffer buf addr bytes) with decs := [initDec []] }, _, rfl, rfl, rfl⟩,
    fun ephase dphase buf _ => ⟨sharedState ephase false dphase (.writeBuffer buf addr bytes), _, _, rfl, rfl, rfl, rfl,
      rfl, rfl⟩⟩

/-- HostBufferWrite, by `witness_addressable`: buffers of idle engines, and a memory that DEC_IN names. -/
theorem witness_HostBufferWrite (c : Config) (addr : Nat) (bytes : List Byte) :
    (∃ (s : State) (e : Encoder), s.cfg = c ∧ s.nextMove = some (.host (.writeBuffer (.encIn 0) addr bytes)) ∧
      s.encs[0]? = some e ∧ e.phase ≠ .busy) ∧
    (∃ (s : State) (d : Decoder), s.cfg = c ∧ s.nextMove = some (.host (.writeBuffer (.decIn 0) addr bytes)) ∧
      s.decs[0]? = some d ∧ d.phase ≠ .busy ∧ d.inputFrom = none) ∧
    ∃ (s : State) (d : Decoder) (e : Encoder), s.cfg = c ∧
      s.nextMove = some (.host (.writeBuffer (.decIn 0) addr bytes)) ∧ s.decs[0]? = some d ∧ d.phase ≠ .busy ∧
      d.inputFrom = some 0 ∧ s.encs[0]? = some e ∧ e.phase ≠ .busy ∧
      ∀ f ∈ s.decs, f.inputFrom = some 0 → f.phase ≠ .busy :=
  ⟨⟨{ hostTurnState _ with cfg := c }, _, rfl, rfl, rfl, by decide⟩,
    ⟨{ hostTurnState _ with cfg := c }, _, rfl, rfl, rfl, by decide, rfl⟩,
    ⟨{ sharedState .done true .idle _ with cfg := c }, _, _, rfl, rfl, rfl, by decide, rfl, rfl, by decide, by
      intro f hf
      obtain rfl := List.mem_singleton.1 hf
      decide⟩⟩

/-- CopyStreamCopiesBytes, by `witness_addressable`: to the decoder's own memory, and to one that DEC_IN names. -/
theorem witness_CopyStreamCopiesBytes :
    (∃ (s : State) (e : Encoder) (d : Decoder), s.nextMove = some (.host (.copyStream 0 0)) ∧ s.encs[0]? = some e ∧
      e.phase = .done ∧ e.observed = true ∧ s.decs[0]? = some d ∧ d.phase ≠ .busy ∧ d.inputFrom = none) ∧
    ∃ (s : State) (e : Encoder) (d : Decoder), s.nextMove = some (.host (.copyStream 0 0)) ∧ s.encs[0]? = some e ∧
      e.phase = .done ∧ e.observed = true ∧ s.decs[0]? = some d ∧ d.phase ≠ .busy ∧ d.inputFrom = some 0 ∧
      ∀ d' ∈ s.decs, d'.inputFrom = some 0 → d'.phase ≠ .busy :=
  ⟨⟨{ sharedState .done true .idle (.copyStream 0 0) with decs := [Decoder.powerOn] }, _, _, rfl, rfl, rfl, rfl, rfl,
      by decide, rfl⟩,
    ⟨sharedState .done true .idle (.copyStream 0 0), _, _, rfl, rfl, rfl, rfl, rfl, by decide, rfl, by decide⟩⟩

/-- NameInputSharesMemory: a decoder at rest and a BUSY one, an observed stream and one that is not, no such encoder. -/
theorem witness_NameInputSharesMemory (source : Option Nat) :
    (∀ observed dphase, ∃ (s : State) (d : Decoder) (e : Encoder), s.nextMove = some (.host (.nameInput 0 source)) ∧
      s.decs[0]? = some d ∧ d.phase = dphase ∧ s.encs[0]? = some e ∧ e.phase = .done ∧ e.observed = observed) ∧
    (sharedState .done true .idle (.nameInput 0 source)).encs[1]? = none :=
  ⟨fun observed dphase => ⟨sharedState .done observed dphase (.nameInput 0 source), _, _, rfl, rfl, rfl, rfl, rfl, rfl⟩,
    rfl⟩

/-- R86: the host names an encoder's output as DEC_IN. -/
theorem test_name_input :
    decAfter (step { sharedState .done true .idle (.nameInput 0 (some 0)) with decs := [Decoder.powerOn] })
      (·.inputFrom) = some (some 0) ∧
    decAfter (step (sharedState .done true .idle (.nameInput 0 none))) (·.inputFrom) = some none ∧
    stopOf (step (sharedState .done false .idle (.nameInput 0 (some 0)))) = some (.inr .streamNotObserved) ∧
    stopOf (step (sharedState .done true .idle (.nameInput 0 (some 1)))) = some (.inr .noSuchEngine) ∧
    stopOf (step (sharedState .done true .busy (.nameInput 0 none))) = some (.inr .hostWriteWhileBusy) := by decide

/-- StepKeepsBusyInputs: a BUSY decoder that reads an encoder's output, and a step of it or START of the encoder. -/
theorem witness_StepKeepsBusyInputs (m : Move) (h : m = .dec 0 ∨ m = .host (.writeEncReg 0 0 1)) :
    let s := { sharedState .done true .busy .assertReset with agenda := [m] }
    s.sharedInv ∧ ∃ t, step s = .next t := by
  refine ⟨?_, ?_⟩
  · intro d hd k hk
    obtain rfl := List.mem_singleton.1 hd
    obtain rfl : 0 = k := by simpa using hk
    exact ⟨Nat.zero_lt_one, fun _ _ => ⟨_, rfl, rfl, rfl⟩⟩
  · rcases h with rfl | rfl <;> exact ⟨_, rfl⟩

/-- ResetInput. -/
theorem witness_ResetInput : ∃ s : State, s.nextMove = some (.host .assertReset) := ⟨hostTurnState .assertReset, rfl⟩

/-- StepKeepsMemoryCanonical, StepKeepsSlotInvariant, StepKeepsStatusConsistent, ParametersNeverChange: a state with the
invariants, with a running decoder, and its step. -/
theorem witness_running_state :
    let s := decTurnState Config.standard (bodyDec [0x40])
    s.memoryInv ∧ s.slotInv ∧ s.statusInv ∧ ∃ t, step s = .next t := by
  refine ⟨⟨by decide, by decide⟩, ⟨?_, ?_⟩, ⟨by decide, by decide⟩, _, rfl⟩
  · simp only [decTurnState, State.resetWith, slotsOk]; decide
  · simp only [decTurnState, slotsOk]; decide

/-- StepKeepsSequencersInRange: a finished decoder and an encoder in its body, and a step of the encoder. -/
theorem witness_StepKeepsSequencersInRange :
    ∃ s t : State, s.sequencerInv ∧ step s = .next t := by
  let e : Encoder := { bodyEnc Pixel.initial 0 [] Pixel.initial with opos := 14 }
  refine ⟨encTurnState Config.standard e, _, ⟨?_, ?_⟩, rfl⟩
  · intro x hx
    obtain rfl : x = e := by simpa [encTurnState] using hx
    refine ⟨fun _ _ => ⟨⟨by decide, by decide, by decide, by decide, by rintro m ⟨⟩, by decide⟩, ?_⟩,
      fun h => absurd h (by decide)⟩
    decide
  · intro d hd
    obtain rfl : d = Decoder.powerOn := by simpa [encTurnState, State.resetWith, Config.standard] using hd
    exact ⟨fun h => absurd h (by decide), fun h => absurd h (by decide)⟩

/-- ReachableEncodersStayInBounds: START from power-on is a run. -/
theorem witness_ReachableEncodersStayInBounds :
    ∃ t, runSteps 1 { State.resetWith Config.standard with agenda := [.host (.writeEncReg 0 0 1)] } = .next t ∧
      t.encs.length = 1 := ⟨_, rfl, rfl⟩

/-- ReachableEncodersStayInBounds: the request of `initEnc` reaches a pixel step by INIT, and DONE by FINAL. -/
theorem witness_reaches_pixel_and_done :
    encAfter (step (encTurnState Config.standard (initEnc 1 1 4 0 4)))
      (fun e => decide (e.phase = .busy ∧ e.stage = .body ∧ e.pix < e.n)) = some true ∧
    encAfter (step (encTurnState Config.standard { bodyEnc Pixel.initial 3 [] Pixel.initial with pix := 1 }))
      (fun e => decide (e.phase = .done)) = some true := by decide

/-- OnlyTheseEventsChangePhase: each of the three events changes a phase. -/
theorem witness_OnlyTheseEventsChangePhase :
    encAfter (step (encTurnState Config.standard (initEnc 1 1 5 0 4))) (·.phase) = some .error ∧
    encAfter (step (hostTurnState (.writeEncReg 0 0 1))) (·.phase) = some .busy ∧
    encAfter (step { hostTurnState .assertReset with encs := [initEnc 1 1 4 0 4] }) (·.phase) = some .idle ∧
    decAfter (step (decTurnState Config.standard (initDec []))) (·.phase) = some .error ∧
    decAfter (step (hostTurnState (.writeDecReg 0 0 1))) (·.phase) = some .busy ∧
    decAfter (step { hostTurnState .assertReset with decs := [initDec []] }) (·.phase) = some .idle := by decide

/-- EnginesAreIsolated: two different systems with the same engine and parameters, for either kind of engine. -/
theorem witness_EnginesAreIsolated :
    (∃ (s s' : State) (e : Encoder), s.encTurn 0 e ∧ s'.encTurn 0 e ∧ s.cfg = s'.cfg ∧ s.decs ≠ s'.decs) ∧
    ∃ (s s' : State) (d : Decoder), s.decTurn 0 d ∧ s'.decTurn 0 d ∧ s.cfg = s'.cfg ∧ s.decStream d = s'.decStream d ∧
      s.encs ≠ s'.encs :=
  ⟨⟨encTurnState Config.standard (initEnc 1 1 4 0 4),
      { encTurnState Config.standard (initEnc 1 1 4 0 4) with decs := [] }, _, ⟨rfl, rfl⟩, ⟨rfl, rfl⟩, rfl, by decide⟩,
    ⟨decTurnState Config.standard (initDec []), { decTurnState Config.standard (initDec []) with encs := [] }, _,
      ⟨rfl, rfl⟩, ⟨rfl, rfl⟩, rfl, rfl, by decide⟩⟩

/-- QuiescentOutsideBusy: an engine that is not BUSY and whose turn it is, of either kind, and a system at rest. -/
theorem witness_QuiescentOutsideBusy :
    (∃ (s : State) (e : Encoder), s.encTurn 0 e ∧ e.phase ≠ .busy) ∧
    (∃ (s : State) (d : Decoder), s.decTurn 0 d ∧ d.phase ≠ .busy) ∧
    State.reset.agenda = [] ∧ (∀ e ∈ State.reset.encs, e.phase ≠ .busy) ∧ ∀ d ∈ State.reset.decs, d.phase ≠ .busy :=
  ⟨⟨encTurnState Config.standard Encoder.powerOn, _, ⟨rfl, rfl⟩, by decide⟩,
    ⟨decTurnState Config.standard Decoder.powerOn, _, ⟨rfl, rfl⟩, by decide⟩, by decide, by decide, by decide⟩

/-- EncodeTakesExactlyTheseSteps, EncodeDependsOnRequestOnly: a legal request and one that is not, on encoder 0. -/
theorem witness_encode_requests :
    (let e := initEnc 2 2 3 1 12
     (encTurnState Config.standard e).encs[0]? = some e ∧ e.phase = .busy ∧ e.stage = .init ∧
       e.legal Config.standard) ∧
    (let e := initEnc 2 1 4 0 7
     (encTurnState Config.standard e).encs[0]? = some e ∧ e.phase = .busy ∧ e.stage = .init ∧
       ¬e.legal Config.standard) :=
  ⟨⟨rfl, rfl, rfl, witness_EncoderInitStep.2.2.2⟩, ⟨rfl, rfl, rfl, witness_EncoderInitStep.2.2.1.2⟩⟩

/-- EncodeDependsOnRequestOnly: two encoders with one request and different histories. -/
theorem witness_EncodeDependsOnRequestOnly :
    let e := initEnc 1 1 4 0 4
    let e' := { e with prev := ⟨1, 2, 3, 4⟩, opos := 9, input := Memory.writeBytes [] 4 [7] }
    e ≠ e' ∧ e'.phase = .busy ∧ e'.stage = .init ∧ e.w = e'.w ∧ e.h = e'.h ∧ e.ch = e'.ch ∧ e.cs = e'.cs ∧
      e.inLen = e'.inLen ∧ ∀ a, a < e.inLen → e.input.read a = e'.input.read a := by
  refine ⟨by decide, rfl, rfl, rfl, rfl, rfl, rfl, rfl, ?_⟩
  decide

/-- A stream of one pixel (95_test_vectors.md DF3). -/
def onePixel : List Byte := headerBytes Config.standard 1 1 4 0 ++ [0xC0] ++ endMarker

/-- DecodeTakesAtMostTheseSteps: a stream whose header passes, and one whose header does not. -/
theorem witness_decode_streams :
    (let d := initDec onePixel
     (decTurnState Config.standard d).decs[0]? = some d ∧ d.phase = .busy ∧ d.stage = .init ∧
       d.magicOk Config.standard d.input ∧ d.input.formatOk Config.standard ∧ d.input.dimensionsOk Config.standard) ∧
    (let d := initDec []
     (decTurnState Config.standard d).decs[0]? = some d ∧ d.phase = .busy ∧ d.stage = .init ∧
       ¬d.magicOk Config.standard d.input) := by
  refine ⟨⟨rfl, rfl, rfl, ⟨by decide, by decide⟩, ⟨by decide, by decide⟩, by decide, by decide, ?_⟩,
    ⟨rfl, rfl, rfl, fun h => absurd h.1 (by decide)⟩⟩
  intro m h; cases h

/-- DecodeDependsOnStreamOnly: two decoders with one stream, each in its own memory, and different histories. -/
theorem witness_DecodeDependsOnStreamOnly :
    let d := initDec [0x71, 0x6F]
    let d' := { d with prev := ⟨1, 2, 3, 4⟩, pos := 9, input := Memory.writeBytes [] 0 [0x71, 0x6F, 7] }
    d ≠ d' ∧ d'.phase = .busy ∧ d'.stage = .init ∧ d.inLen = d'.inLen ∧
      ∀ a, a < d.inLen → d.input.read a = d'.input.read a := by
  refine ⟨by decide, rfl, rfl, rfl, ?_⟩
  decide

/-- A system with an encoder and a decoder both started, the decoder with the stream the encoder will produce
(95_test_vectors.md EF3). -/
def pairState : State :=
  { State.reset with
    encs := [{ initEnc 1 1 4 0 4 with input := Memory.writeBytes [] 0 [0, 0, 0, 255] }], decs := [initDec onePixel] }

/-- EnginesRunInLockstep: its hypotheses on the engines, and the stream's bytes after the encode. -/
theorem witness_EnginesRunInLockstep :
    (∃ e d, pairState.encs[0]? = some e ∧ e.phase = .busy ∧ e.stage = .init ∧ e.legal pairState.cfg ∧
      pairState.decs[0]? = some d ∧ d.phase = .busy ∧ d.stage = .init) ∧
    encAfter (runSteps 3 { pairState with agenda := List.replicate 3 (.enc 0) })
      (fun e => (e.opos, e.output.readBytes 0 e.opos)) = some (onePixel.length, onePixel) := by
  refine ⟨⟨_, _, rfl, rfl, rfl, ?_, rfl, rfl, rfl⟩, by decide⟩
  exact ⟨by decide, by decide, by decide, by decide, by rintro m ⟨⟩, by decide⟩

/-- RoundTrip: the hypotheses, with a decoder at rest; the hand-over is one of two lists of moves. -/
theorem witness_RoundTrip :
    let s := { pairState with decs := [Decoder.powerOn] }
    ∃ e d, s.encs[0]? = some e ∧ e.phase = .busy ∧ e.stage = .init ∧ e.legal s.cfg ∧
      s.cfg.fits (streamBound s.cfg (e.w.toNat * e.h.toNat) e.ch.toNat) ∧ s.decs[0]? = some d ∧ d.phase ≠ .busy := by
  refine ⟨_, _, rfl, rfl, rfl, ?_, standard_fits _, rfl, by decide⟩
  exact ⟨by decide, by decide, by decide, by decide, by rintro m ⟨⟩, by decide⟩

/-- TruncatedStreamNeverDecodes: a decode that ends in DONE (95_test_vectors.md DF3), with cuts on both sides of the
header's end. -/
theorem witness_TruncatedStreamNeverDecodes :
    decAfter (runSteps 3 { decTurnState Config.standard (initDec onePixel) with agenda := List.replicate 3 (.dec 0) })
      (fun d => (d.phase, d.pos, d.output.readBytes 0 4)) = some (.done, 23, [0, 0, 0, 255]) ∧
    13 < hdrLen Config.standard ∧ ¬14 < hdrLen Config.standard ∧ 22 < 23 := by decide

end Sys2Proof.Tests
end

section
/-! PROOFS. The state after power-on, and what no step changes: the parameters and the number of engines (00_scope.md
R7; 60_exceptions.md R268). -/

namespace Sys2Proof.Machine

/-! ### Power-on -/

theorem State.resetWith_enc {c : Config} {e : Encoder} (h : e ∈ (State.resetWith c).encs) : e = Encoder.powerOn :=
  List.eq_of_mem_replicate h

theorem State.resetWith_dec {c : Config} {d : Decoder} (h : d ∈ (State.resetWith c).decs) : d = Decoder.powerOn :=
  List.eq_of_mem_replicate h

/-- Settles O42: every engine is in its power-on state, and the defaults are literals. -/
theorem powerOnState : Obligations.PowerOnState := by
  refine ⟨fun c => ⟨rfl, List.length_replicate, List.length_replicate, fun e he => ?_, fun d hd => ?_⟩,
    rfl, rfl, rfl, rfl⟩
  · obtain rfl := State.resetWith_enc he
    exact ⟨rfl, rfl, rfl, rfl⟩
  · obtain rfl := State.resetWith_dec hd
    exact ⟨rfl, rfl, rfl, rfl, rfl⟩

/-! ### The parameters and the number of engines -/

/-- `t` has the parameters of `s` and as many encoders and decoders. -/
structure State.SameSystem (s t : State) : Prop where
  cfg : t.cfg = s.cfg
  encs : t.encs.length = s.encs.length
  decs : t.decs.length = s.decs.length

/-- Another state of one encoder leaves the system's parameters and engines. -/
theorem State.SameSystem.of_encs_set {s t : State} {k : Nat} {e : Encoder} (hc : t.cfg = s.cfg)
    (he : t.encs = s.encs.set k e) (hd : t.decs = s.decs) : s.SameSystem t :=
  ⟨hc, by rw [he, List.length_set], by rw [hd]⟩

/-- Another state of one decoder leaves the system's parameters and engines. -/
theorem State.SameSystem.of_decs_set {s t : State} {k : Nat} {d : Decoder} (hc : t.cfg = s.cfg)
    (he : t.encs = s.encs) (hd : t.decs = s.decs.set k d) : s.SameSystem t :=
  ⟨hc, by rw [he], by rw [hd, List.length_set]⟩

/-- No host move changes the parameters or the number of engines. -/
theorem HostEffect.sameSystem {s t : State} {a : HostAction} (h : HostEffect s a t) : s.SameSystem t := by
  cases h with
  | reset => exact ⟨rfl, List.length_map _, List.length_map _⟩
  | startShared => exact ⟨rfl, List.length_set, State.openStreams_length _ _⟩
  | readBuffer => exact ⟨rfl, rfl, rfl⟩
  | writeEncReg | readEncReg | storeEncIn | storeEncOut => exact .of_encs_set rfl rfl rfl
  | startOpen | writeDecReg | readDecReg | storeDecIn | storeDecOut | nameInput => exact .of_decs_set rfl rfl rfl

/-- No step changes the parameters or the number of engines. -/
theorem step_sameSystem {s t : State} (h : step s = .next t) : s.SameSystem t := by
  obtain ⟨-, rfl⟩ | ⟨k, e, -, -, rfl⟩ | ⟨k, d, -, -, rfl⟩ | ⟨a, -, hrun⟩ := step_cases h
  · exact ⟨rfl, rfl, rfl⟩
  · exact .of_encs_set rfl rfl rfl
  · exact .of_decs_set rfl rfl rfl
  · obtain ⟨hcfg, hencs, hdecs⟩ := (runHost_next hrun).sameSystem
    exact ⟨hcfg, hencs, hdecs⟩

/-- Settles O50, by the cases of a step and of a host move. -/
theorem parametersNeverChange : Obligations.ParametersNeverChange := by
  intro s t h
  obtain ⟨hcfg, hencs, hdecs⟩ := step_sameSystem h
  exact ⟨hcfg, hencs, hdecs⟩

end Sys2Proof.Machine
end

section
/-! PROOFS. Everything one step of the machine can do to one engine: an inversion per kind of engine, and from it that a
predicate of engines holds after every step as soon as it survives each of these events. -/

namespace Sys2Proof.Machine

/-- An element of a list in which one element was replaced is the new one, or what it was. -/
theorem getElem?_set_cases {α : Type} {l : List α} {j k : Nat} {a b x : α} (ha : l[k]? = some a)
    (hb : (l.set j x)[k]? = some b) : (j = k ∧ b = x) ∨ (j ≠ k ∧ b = a) := by
  by_cases hjk : j = k
  · subst hjk
    obtain ⟨hlt, -⟩ := List.getElem?_eq_some_iff.1 ha
    rw [List.getElem?_set_self hlt] at hb
    exact .inl ⟨rfl, (Option.some.inj hb).symm⟩
  · rw [List.getElem?_set_ne hjk, ha] at hb
    exact .inr ⟨hjk, (Option.some.inj hb).symm⟩

/-- What a step of the machine, whose move is `m`, can do to encoder `k`. -/
inductive Encoder.Event (c : Config) (k : Nat) (m : Option Move) (e : Encoder) : Encoder → Prop where
  | stays : Event c k m e e
  | steps (turn : m = some (.enc k)) : Event c k m e (e.step c)
  | writes {reg value : Nat} (turn : m = some (.host (.writeEncReg k reg value))) :
      Event c k m e (e.writeReg c reg value)
  | observes : Event c k m e e.observe
  | resets (turn : m = some (.host .assertReset)) : Event c k m e e.reset
  | stores (idle : e.phase ≠ .busy) (input output : Memory) :
      Event c k m e { e with input := input, output := output }

/-- What a step of the machine, whose move is `m`, can do to decoder `k`. -/
inductive Decoder.Event (c : Config) (k : Nat) (m : Option Move) (d : Decoder) : Decoder → Prop where
  | stays : Event c k m d d
  | steps (turn : m = some (.dec k)) (stream : Memory) : Event c k m d (d.step c stream)
  | writes {reg value : Nat} (turn : m = some (.host (.writeDecReg k reg value))) (openStream : Option Nat) :
      Event c k m d { d.writeReg c reg value with openStream := openStream }
  | observes : Event c k m d d.observe
  | resets (turn : m = some (.host .assertReset)) : Event c k m d d.reset
  | stores (idle : d.phase ≠ .busy) (input output : Memory) (inputFrom : Option Nat) :
      Event c k m d { d with input := input, output := output, inputFrom := inputFrom }
  | opens (openStream : Option Nat) : Event c k m d { d with openStream := openStream }

/-- Replacing encoder `j` by its state after an event is an event of every encoder. -/
theorem Encoder.Event.of_set {c : Config} {j k : Nat} {m : Option Move} {encs : List Encoder} {old new e e' : Encoder}
    (hold : encs[j]? = some old) (h : Encoder.Event c j m old new) (he : encs[k]? = some e)
    (he' : (encs.set j new)[k]? = some e') : Encoder.Event c k m e e' := by
  obtain ⟨rfl, rfl⟩ | ⟨-, rfl⟩ := getElem?_set_cases he he'
  · obtain rfl : old = e := Option.some.inj (hold.symm.trans he)
    exact h
  · exact .stays

/-- Replacing decoder `j` by its state after an event is an event of every decoder. -/
theorem Decoder.Event.of_set {c : Config} {j k : Nat} {m : Option Move} {decs : List Decoder} {old new d d' : Decoder}
    (hold : decs[j]? = some old) (h : Decoder.Event c j m old new) (hd : decs[k]? = some d)
    (hd' : (decs.set j new)[k]? = some d') : Decoder.Event c k m d d' := by
  obtain ⟨rfl, rfl⟩ | ⟨-, rfl⟩ := getElem?_set_cases hd hd'
  · obtain rfl : old = d := Option.some.inj (hold.symm.trans hd)
    exact h
  · exact .stays

/-- An encoder that no move replaced stays as it was. -/
theorem Encoder.Event.of_eq {c : Config} {k : Nat} {m : Option Move} {e e' : Encoder} {o : Option Encoder}
    (he : o = some e) (he' : o = some e') : Encoder.Event c k m e e' := by
  obtain rfl := Option.some.inj (he.symm.trans he')
  exact .stays

/-- A decoder that no move replaced stays as it was. -/
theorem Decoder.Event.of_eq {c : Config} {k : Nat} {m : Option Move} {d d' : Decoder} {o : Option Decoder}
    (hd : o = some d) (hd' : o = some d') : Decoder.Event c k m d d' := by
  obtain rfl := Option.some.inj (hd.symm.trans hd')
  exact .stays

/-- A host move is an event of every encoder. -/
theorem HostEffect.encEvent {s t : State} {a : HostAction} {k : Nat} {e e' : Encoder} (h : HostEffect s a t)
    (he : s.encs[k]? = some e) (he' : t.encs[k]? = some e') : Encoder.Event s.cfg k (some (.host a)) e e' := by
  cases h with
  | reset =>
    simp only [State.assertReset, List.getElem?_map, he, Option.map_some, Option.some.injEq] at he'
    subst he'
    exact .resets rfl
  | writeEncReg hold | startShared hold => exact .of_set hold (.writes rfl) he he'
  | @readEncReg j reg old data draws hold =>
    refine .of_set hold ?_ he he'
    split
    · exact .observes
    · exact .stays
  | storeEncIn _ hold idle => exact .of_set hold (.stores idle _ _) he he'
  | storeEncOut _ hold idle => exact .of_set hold (.stores idle _ _) he he'
  | startOpen | writeDecReg | readDecReg | readBuffer | storeDecIn | storeDecOut | nameInput => exact .of_eq he he'

/-- A host move is an event of every decoder. -/
theorem HostEffect.decEvent {s t : State} {a : HostAction} {k : Nat} {d d' : Decoder} (h : HostEffect s a t)
    (hd : s.decs[k]? = some d) (hd' : t.decs[k]? = some d') : Decoder.Event s.cfg k (some (.host a)) d d' := by
  cases h with
  | reset =>
    simp only [State.assertReset, List.getElem?_map, hd, Option.map_some, Option.some.injEq] at hd'
    subst hd'
    exact .resets rfl
  | startShared =>
    rw [State.openStreams_get, State.setEnc_decs, hd] at hd'
    obtain rfl := Option.some.inj hd'
    dsimp only
    split
    · exact .opens _
    · exact .stays
  | startOpen hold => exact .of_set hold (.writes rfl _) hd hd'
  | writeDecReg hold => exact .of_set hold (.writes rfl _) hd hd'
  | @readDecReg j reg old data draws hold =>
    refine .of_set hold ?_ hd hd'
    split
    · exact .observes
    · exact .stays
  | storeDecIn _ hold idle => exact .of_set hold (.stores idle _ _ _) hd hd'
  | storeDecOut _ hold idle => exact .of_set hold (.stores idle _ _ _) hd hd'
  | nameInput hold idle => exact .of_set hold (.stores idle _ _ _) hd hd'
  | writeEncReg | readEncReg | readBuffer | storeEncIn | storeEncOut => exact .of_eq hd hd'

/-- A step of the machine is an event of every encoder. -/
theorem step_encEvent {s t : State} {k : Nat} {e e' : Encoder} (h : step s = .next t) (he : s.encs[k]? = some e)
    (he' : t.encs[k]? = some e') : Encoder.Event s.cfg k s.nextMove e e' := by
  obtain ⟨-, rfl⟩ | ⟨j, old, hm, hold, rfl⟩ | ⟨j, d, -, -, rfl⟩ | ⟨a, hm, hrun⟩ := step_cases h
  · exact .of_eq he he'
  · exact .of_set hold (.steps hm) he he'
  · exact .of_eq he he'
  · rw [hm]
    exact (runHost_next hrun).encEvent he he'

/-- A step of the machine is an event of every decoder. -/
theorem step_decEvent {s t : State} {k : Nat} {d d' : Decoder} (h : step s = .next t) (hd : s.decs[k]? = some d)
    (hd' : t.decs[k]? = some d') : Decoder.Event s.cfg k s.nextMove d d' := by
  obtain ⟨-, rfl⟩ | ⟨j, e, -, -, rfl⟩ | ⟨j, old, hm, hold, rfl⟩ | ⟨a, hm, hrun⟩ := step_cases h
  · exact .of_eq hd hd'
  · exact .of_eq hd hd'
  · exact .of_set hold (.steps hm _) hd hd'
  · rw [hm]
    exact (runHost_next hrun).decEvent hd hd'

/-- A predicate of encoders that every event keeps holds of every encoder after a step. -/
theorem step_keeps_encs {s t : State} {P : Encoder → Prop} (h : step s = .next t) (hs : ∀ e ∈ s.encs, P e)
    (keeps : ∀ {k e e'}, Encoder.Event s.cfg k s.nextMove e e' → P e → P e') : ∀ e ∈ t.encs, P e := by
  intro e' he'
  obtain ⟨k, hk, hget⟩ := List.getElem_of_mem he'
  have hk' : k < s.encs.length := (step_sameSystem h).encs ▸ hk
  exact keeps (step_encEvent h (List.getElem?_eq_getElem hk') (by rw [List.getElem?_eq_getElem hk, hget]))
    (hs _ (List.getElem_mem hk'))

/-- A predicate of decoders that every event keeps holds of every decoder after a step. -/
theorem step_keeps_decs {s t : State} {P : Decoder → Prop} (h : step s = .next t) (hs : ∀ d ∈ s.decs, P d)
    (keeps : ∀ {k d d'}, Decoder.Event s.cfg k s.nextMove d d' → P d → P d') : ∀ d ∈ t.decs, P d := by
  intro d' hd'
  obtain ⟨k, hk, hget⟩ := List.getElem_of_mem hd'
  have hk' : k < s.decs.length := (step_sameSystem h).decs ▸ hk
  exact keeps (step_decEvent h (List.getElem?_eq_getElem hk') (by rw [List.getElem?_eq_getElem hk, hget]))
    (hs _ (List.getElem_mem hk'))

end Sys2Proof.Machine
end

section
/-! PROOFS. What the parts of an engine's step and a register write leave: one shape per part, with the registers that
change, from which the invariants of the engines follow. -/

namespace Sys2Proof.Machine

/-! ### The encoder's steps -/

/-- The code with which INIT aborts an illegal request (41_encoder.md R162). -/
def Encoder.rejectCode (e : Encoder) : ErrCode :=
  if (channelsOk e.ch && colorspaceOk e.cs) = false then .invalidChannelOrColorspace else .shapeMismatch

theorem Encoder.rejectCode_ne_none (e : Encoder) : e.rejectCode ≠ .none := by
  unfold Encoder.rejectCode
  split <;> decide

/-- INIT aborts an illegal request, and starts the body of a legal one with the header emitted (41_encoder.md R162). -/
theorem Encoder.initStep_cases (c : Config) (e : Encoder) :
    (¬e.legal c ∧ ∃ n, e.initStep c = Encoder.raise { e with n := n } e.rejectCode) ∨
    (e.legal c ∧ e.initStep c = { (Encoder.clearWorking { e with n := e.w.toNat * e.h.toNat }).emit
      (headerBytes c e.w e.h e.ch e.cs) with stage := .body }) := by
  simp only [Encoder.initStep, Encoder.rejectCode]
  split
  · next hformat =>
    refine .inl ⟨fun ⟨hch, hcs, _⟩ => ?_, e.n, rfl⟩
    rw [(channelsOk_and_colorspaceOk _ _).2 ⟨hch, hcs⟩] at hformat
    cases hformat
  · next hformat =>
    obtain ⟨hch, hcs⟩ := (channelsOk_and_colorspaceOk _ _).1 (Bool.not_eq_false _ ▸ hformat)
    split
    · next hdim => exact .inl ⟨fun ⟨_, _, hw, hh, _⟩ => hdim.elim hw hh, e.n, rfl⟩
    · next hdim =>
      rw [not_or] at hdim
      split
      · next hmax => exact .inl ⟨fun ⟨_, _, _, _, hle, _⟩ => (overMaxPixels_iff _ _).1 hmax hle, _, rfl⟩
      · next hmax =>
        split
        · next hlen => exact .inl ⟨fun ⟨_, _, _, _, _, hl⟩ => hlen hl, _, rfl⟩
        · next hlen =>
          exact .inr ⟨⟨hch, hcs, hdim.1, hdim.2, not_not.1 (mt (overMaxPixels_iff _ _).2 hmax), not_not.1 hlen⟩, rfl⟩

/-- RunFlush clears the run and appends its chunk to ENC_OUT (41_encoder.md R166). -/
theorem Encoder.runFlush_shape (c : Config) (e : Encoder) :
    ∃ output, e.runFlush c = { e with run := 0, opos := e.opos + e.openRun.length, output := output } := by
  unfold Encoder.runFlush Encoder.openRun
  split
  · next hrun => exact ⟨e.output, by rw [← hrun]; rfl⟩
  · exact ⟨_, rfl⟩

/-- RunContinue counts the pixel, and ends a run of 62 (41_encoder.md R165). -/
theorem Encoder.runContinue_cases (c : Config) (e : Encoder) (px : Pixel) :
    (e.run + 1 ≠ 62 ∧ ∃ cache, e.runContinue c px = { e with run := e.run + 1, cache := cache }) ∨
    (e.run + 1 = 62 ∧ ∃ output cache, e.runContinue c px = { e with
      run := 0, opos := e.opos + 1, output := output, cache := cache }) := by
  by_cases hrun : e.run + 1 = 62
  · refine .inr ⟨hrun, ?_⟩
    simp only [Encoder.runContinue, hrun, if_true]
    split <;> exact ⟨_, _, rfl⟩
  · refine .inl ⟨hrun, ?_⟩
    simp only [Encoder.runContinue, hrun, if_false]
    split <;> exact ⟨_, rfl⟩

/-- A pixel step continues the run, ends a run of 62, or emits the open run and the pixel's chunk (41_encoder.md R164 to
R166, R173). -/
theorem Encoder.pixelStep_cases (c : Config) (e : Encoder) :
    (e.run + 1 ≠ 62 ∧ ∃ cache, e.pixelStep c = { e with
      run := e.run + 1, cache := cache, prev := e.readPixel e.pix, pix := e.pix + 1 }) ∨
    (e.run + 1 = 62 ∧ ∃ output cache, e.pixelStep c = { e with
      run := 0, opos := e.opos + 1, output := output, cache := cache, prev := e.readPixel e.pix, pix := e.pix + 1 }) ∨
    ∃ slotPixel output cache, e.pixelStep c = { e with
      run := 0,
      opos := e.opos + e.openRun.length + (encode c.tags (chooseChunk (e.readPixel e.pix) e.prev slotPixel)).length,
      output := output, cache := cache, prev := e.readPixel e.pix, pix := e.pix + 1 } := by
  simp only [Encoder.pixelStep, Encoder.encodePixel]
  split
  · obtain ⟨hrun, cache, hcont⟩ | ⟨hrun, output, cache, hcont⟩ := e.runContinue_cases c (e.readPixel e.pix)
    · exact .inl ⟨hrun, cache, by rw [hcont]⟩
    · exact .inr (.inl ⟨hrun, output, cache, by rw [hcont]⟩)
  · obtain ⟨output, hflush⟩ := e.runFlush_shape c
    rw [hflush]
    exact .inr (.inr ⟨_, _, _, rfl⟩)

/-- A pixel step changes the working registers and ENC_OUT alone (41_encoder.md R164, R173). -/
theorem Encoder.pixelStep_shape (c : Config) (e : Encoder) :
    ∃ run opos output cache, e.pixelStep c = { e with
      run := run, opos := opos, output := output, cache := cache, prev := e.readPixel e.pix, pix := e.pix + 1 } := by
  obtain ⟨-, cache, hstep⟩ | ⟨-, output, cache, hstep⟩ | ⟨slotPixel, output, cache, hstep⟩ := e.pixelStep_cases c
  · exact ⟨_, _, _, _, hstep⟩
  · exact ⟨_, _, _, _, hstep⟩
  · exact ⟨_, _, _, _, hstep⟩

/-- FINAL publishes the length of what was emitted (41_encoder.md R174). -/
theorem Encoder.finalStep_shape (c : Config) (e : Encoder) :
    ∃ output, e.finalStep c = { e with
      run := 0, opos := e.opos + e.openRun.length + 8, output := output,
      outLen := lengthRegister c (e.opos + e.openRun.length + 8), phase := .done } := by
  obtain ⟨output, hflush⟩ := e.runFlush_shape c
  simp only [Encoder.finalStep]
  rw [hflush]
  exact ⟨_, rfl⟩

/-- A write of ENC_CTRL with bit 0 set starts an engine that is not BUSY; every other register write changes no internal
register (10_state.md R49, R62, R63). -/
theorem Encoder.writeReg_cases (c : Config) (e : Encoder) (reg value : Nat) :
    (reg = 0 ∧ value % 2 = 1 ∧ e.phase ≠ .busy ∧ e.writeReg c reg value = e.start) ∨
    ∃ w h ch cs len, e.writeReg c reg value = { e with
      regWidth := w, regHeight := h, regChannels := ch, regColorspace := cs, regInLen := len } := by
  unfold Encoder.writeReg
  split
  · split
    · next hstart =>
      by_cases hb : e.phase = .busy
      · exact .inr ⟨_, _, _, _, _, Encoder.start_busy hb⟩
      · exact .inl ⟨rfl, by simpa [startBit] using hstart, hb, rfl⟩
    · exact .inr ⟨_, _, _, _, _, rfl⟩
  all_goals exact .inr ⟨_, _, _, _, _, rfl⟩

/-! ### The decoder's steps -/

/-- The stream's header passes every check of the decoder's INIT (42_decoder.md R202). -/
def Decoder.headerOk (c : Config) (m : Memory) (d : Decoder) : Prop :=
  d.magicOk c m ∧ m.formatOk c ∧ m.dimensionsOk c

/-- The code with which INIT aborts on a header that does not pass (42_decoder.md R202). -/
def Decoder.rejectCode (c : Config) (m : Memory) (d : Decoder) : ErrCode :=
  if d.inLen < hdrLen c then .truncatedHeader
  else if m.readBytes 0 (magicLen c) ≠ c.magic then .badMagic
  else if (channelsOk (d.parseHeader c m).ch && colorspaceOk (d.parseHeader c m).cs) = false then
    .invalidChannelOrColorspace
  else .invalidDimensions

theorem Decoder.rejectCode_ne_none (c : Config) (m : Memory) (d : Decoder) : d.rejectCode c m ≠ .none := by
  unfold Decoder.rejectCode
  split_ifs <;> decide

/-- The decoder with the header's fields and the pixel count in its registers (42_decoder.md R202). -/
def Decoder.withHeader (c : Config) (m : Memory) (d : Decoder) : Decoder :=
  { d.parseHeader c m with n := (d.parseHeader c m).w.toNat * (d.parseHeader c m).h.toNat }

/-- A header word is 0 exactly where the word in the stream is. -/
theorem Decoder.parseHeader_w_eq_zero (c : Config) (m : Memory) (d : Decoder) :
    (d.parseHeader c m).w = 0 ↔ be32At m (magicLen c) = 0 := by
  rw [← Decoder.parseHeader_w c m d]
  exact BitVec.toNat_inj.symm

theorem Decoder.parseHeader_h_eq_zero (c : Config) (m : Memory) (d : Decoder) :
    (d.parseHeader c m).h = 0 ↔ be32At m (magicLen c + 4) = 0 := by
  rw [← Decoder.parseHeader_h c m d]
  exact BitVec.toNat_inj.symm

/-- The pixel count INIT computes is the one the header states. -/
theorem Decoder.withHeader_n (c : Config) (m : Memory) (d : Decoder) : (d.withHeader c m).n = m.headerPixels c := by
  simp [Decoder.withHeader, Memory.headerPixels]

/-- INIT aborts on a header that does not pass, and starts the body on one that does (42_decoder.md R202, R203). -/
theorem Decoder.initStep_cases (c : Config) (m : Memory) (d : Decoder) :
    (¬d.headerOk c m ∧ ∃ w h ch cs n,
      d.initStep c m = Decoder.raise { d with w := w, h := h, ch := ch, cs := cs, n := n } (d.rejectCode c m)) ∨
    (d.headerOk c m ∧ d.initStep c m = (d.withHeader c m).clearWorking c) := by
  simp only [Decoder.initStep, Decoder.rejectCode]
  split
  · next hlen => exact .inl ⟨fun ⟨⟨hle, _⟩, _⟩ => absurd hle (Nat.not_le.2 hlen), _, _, _, _, _, rfl⟩
  · next hlen =>
    split
    · next hmagic => exact .inl ⟨fun ⟨⟨_, heq⟩, _⟩ => hmagic heq, _, _, _, _, _, rfl⟩
    · next hmagic =>
      have hpass : (channelsOk (d.parseHeader c m).ch && colorspaceOk (d.parseHeader c m).cs) = true ↔ m.formatOk c :=
        channelsOk_and_colorspaceOk _ _
      split
      · next hformat =>
        exact .inl ⟨fun ⟨_, hok, _⟩ => Bool.eq_false_iff.1 hformat (hpass.2 hok), _, _, _, _, _, rfl⟩
      · next hformat =>
        have hw0 := d.parseHeader_w_eq_zero c m
        have hh0 := d.parseHeader_h_eq_zero c m
        split
        · next hdim =>
          exact .inl ⟨fun ⟨_, _, hw, hh, _⟩ => hdim.elim (mt hw0.1 hw) (mt hh0.1 hh), _, _, _, _, _, rfl⟩
        · next hdim =>
          rw [not_or] at hdim
          have hn : (d.parseHeader c m).w.toNat * (d.parseHeader c m).h.toNat = m.headerPixels c := d.withHeader_n c m
          split
          · next hmax =>
            rw [hn] at hmax
            exact .inl ⟨fun ⟨_, _, _, _, hle⟩ => (overMaxPixels_iff _ _).1 hmax hle, _, _, _, _, _, rfl⟩
          · next hmax =>
            rw [hn] at hmax
            exact .inr ⟨⟨⟨Nat.not_lt.1 hlen, not_not.1 hmagic⟩, hpass.1 (Bool.not_eq_false _ ▸ hformat),
              mt hw0.2 hdim.1, mt hh0.2 hdim.2, not_not.1 (mt (overMaxPixels_iff _ _).2 hmax)⟩, rfl⟩

/-- The pixel a chunk stands for (42_decoder.md R207 to R212). -/
def chunkPixel (prev : Pixel) (cache : Cache) : Instr → Pixel
  | .index i => cacheRead cache i
  | .diff dr dg db => diffPixel prev dr dg db
  | .luma dg drDg dbDg => lumaPixel prev dg drDg dbDg
  | .run _ => prev
  | .rgb r g b => rgbPixel prev r g b
  | .rgba r g b a => rgbaPixel r g b a

/-- The run counter a chunk leaves (42_decoder.md R212). -/
def chunkRun (run : BitVec 6) : Instr → BitVec 6
  | .run n => BitVec.ofNat 6 (n - 1)
  | _ => run

/-- Every chunk ends in PixelCommit of its pixel (42_decoder.md R204, R213). -/
theorem Decoder.execChunk_eq (d : Decoder) (i : Instr) :
    d.execChunk i = Decoder.commit { d with run := chunkRun d.run i } (chunkPixel d.prev d.cache i) := by
  cases i <;> rfl

/-- A byte of kind RUN carries a run counter of at most 61: the tag bytes are not of that kind (30_encoding.md R107,
R112). -/
theorem chunkKind_run_le (t : TagAssignment) :
    ∀ b : Byte, chunkKind t b = .run → (b.extractLsb' 0 6).toNat ≤ 61 := by
  cases t <;> decide

/-- A chunk that was decoded leaves a run counter of at most 61 (10_state.md R42). -/
theorem chunkRun_of_decode {t : TagAssignment} {bytes rest : List Byte} {i : Instr}
    (h : decode t bytes = .ok (i, rest)) : (chunkRun 0 i).toNat ≤ 61 := by
  cases bytes with
  | nil => simp [decode] at h
  | cons b bytes =>
    have zero : (0 : BitVec 6).toNat ≤ 61 := by decide
    cases hkind : chunkKind t b <;> simp only [decode, hkind] at h
    case run =>
      cases h
      simpa [chunkRun] using chunkKind_run_le t b hkind
    case index | diff =>
      cases h
      exact zero
    case luma | rgb | rgba =>
      split at h
      · cases h
        exact zero
      · cases h

/-- FINAL aborts, or publishes the header's fields and the lengths (42_decoder.md R215). -/
theorem Decoder.finalStep_cases (c : Config) (m : Memory) (d : Decoder) :
    (∃ pos code, code ≠ .none ∧ d.finalStep c m = Decoder.raise { d with pos := pos } code) ∨
    (d.pos + 8 ≤ d.inLen ∧ (c.trailing = .reject → d.pos + 8 = d.inLen) ∧
      d.finalStep c m = { d with
        pos := d.pos + 8, run := 0, outWidth := d.w, outHeight := d.h, outChannels := d.ch, outColorspace := d.cs,
        outLen := lengthRegister c (d.n * d.ch.toNat), consumed := lengthRegister c (d.pos + 8), phase := .done }) := by
  simp only [Decoder.finalStep]
  split
  · exact .inl ⟨_, _, by decide, rfl⟩
  · next hlen =>
    split
    · exact .inl ⟨_, _, by decide, rfl⟩
    · split
      · exact .inl ⟨_, _, by decide, rfl⟩
      · next htrail =>
        exact .inr ⟨by omega, fun hr => not_not.1 fun hne => htrail ⟨hr, hne⟩, rfl⟩

/-- A write of DEC_CTRL with bit 0 set starts an engine that is not BUSY; every other register write changes at most
DEC_IN_LEN (10_state.md R54, R57, R62, R63). -/
theorem Decoder.writeReg_cases (c : Config) (d : Decoder) (reg value : Nat) :
    (reg = 0 ∧ value % 2 = 1 ∧ d.phase ≠ .busy ∧ d.writeReg c reg value = d.start) ∨
    ∃ len, d.writeReg c reg value = { d with regInLen := len } := by
  unfold Decoder.writeReg
  split
  · split
    · next hstart =>
      by_cases hb : d.phase = .busy
      · exact .inr ⟨_, Decoder.start_busy hb⟩
      · exact .inl ⟨rfl, by simpa [startBit] using hstart, hb, rfl⟩
    · exact .inr ⟨_, rfl⟩
  all_goals exact .inr ⟨_, rfl⟩

end Sys2Proof.Machine
end

section
/-! PROOFS. PHASE, ERR, the length registers and the DONE observation (10_state.md R31, R50, R52, R61; 20_memory.md
R82): what keeps them consistent, and what changes PHASE. -/

namespace Sys2Proof.Machine

/-! ### The status of an engine -/

/-- `State.statusInv` for one encoder. -/
def Encoder.statusOk (e : Encoder) : Prop :=
  (e.err = .none ↔ e.phase ≠ .error) ∧ (e.phase ≠ .done → e.outLen = 0 ∧ e.observed = false)

/-- `State.statusInv` for one decoder. -/
def Decoder.statusOk (d : Decoder) : Prop :=
  (d.err = .none ↔ d.phase ≠ .error) ∧ (d.phase ≠ .done → d.outLen = 0 ∧ d.consumed = 0 ∧ d.observed = false)

/-- Of a BUSY encoder: no error, length 0, DONE not observed. -/
theorem Encoder.statusOk.of_busy {e : Encoder} (h : e.statusOk) (hb : e.phase = .busy) :
    e.err = .none ∧ e.outLen = 0 ∧ e.observed = false := by
  obtain ⟨herr, hlen⟩ := h
  exact ⟨herr.2 (by simp [hb]), hlen (by simp [hb])⟩

/-- Of a BUSY decoder: no error, lengths 0, DONE not observed. -/
theorem Decoder.statusOk.of_busy {d : Decoder} (h : d.statusOk) (hb : d.phase = .busy) :
    d.err = .none ∧ d.outLen = 0 ∧ d.consumed = 0 ∧ d.observed = false := by
  obtain ⟨herr, hlen⟩ := h
  exact ⟨herr.2 (by simp [hb]), hlen (by simp [hb])⟩

/-- An abort leaves a consistent status (60_exceptions.md R260). -/
theorem Encoder.raise_statusOk (e : Encoder) {code : ErrCode} (hcode : code ≠ .none) (ho : e.observed = false) :
    (e.raise code).statusOk := ⟨by simp [hcode], fun _ => ⟨rfl, ho⟩⟩

/-- An abort leaves a consistent status (60_exceptions.md R260). -/
theorem Decoder.raise_statusOk (d : Decoder) {code : ErrCode} (hcode : code ≠ .none) (ho : d.observed = false) :
    (d.raise code).statusOk := ⟨by simp [hcode], fun _ => ⟨rfl, rfl, ho⟩⟩

/-- A step of an encoder keeps its status consistent. -/
theorem Encoder.statusOk.step {e : Encoder} (h : e.statusOk) (c : Config) : (e.step c).statusOk := by
  obtain ⟨-, hstep⟩ | ⟨hb, -, hstep⟩ | ⟨⟨hb, -⟩, hstep⟩ | ⟨hb, -, -, hstep⟩ := e.step_cases c <;> rw [hstep]
  · exact h
  · obtain ⟨-, n, hinit⟩ | ⟨-, hinit⟩ := e.initStep_cases c <;> rw [hinit]
    · exact Encoder.raise_statusOk _ e.rejectCode_ne_none (h.of_busy hb).2.2
    · exact h
  · obtain ⟨run, opos, output, cache, hpixel⟩ := e.pixelStep_shape c
    rw [hpixel]
    exact h
  · obtain ⟨output, hfinal⟩ := e.finalStep_shape c
    rw [hfinal]
    exact ⟨by simp [(h.of_busy hb).1], fun hdone => absurd rfl hdone⟩

/-- A step of a decoder keeps its status consistent. -/
theorem Decoder.statusOk.step {d : Decoder} (h : d.statusOk) (c : Config) (m : Memory) : (d.step c m).statusOk := by
  obtain ⟨-, hstep⟩ | ⟨hb, -, hstep⟩ | ⟨-, -, hstep⟩ | ⟨⟨hb, -⟩, -, -, hstep⟩ | ⟨i, len, -, -, -, hstep⟩ |
    ⟨hb, -, -, hstep⟩ := d.step_cases c m <;> rw [hstep]
  · exact h
  · obtain ⟨-, w, ht, ch, cs, n, hinit⟩ | ⟨-, hinit⟩ := d.initStep_cases c m <;> rw [hinit]
    · exact Decoder.raise_statusOk _ (d.rejectCode_ne_none c m) (h.of_busy hb).2.2.2
    · exact h
  · exact h
  · exact Decoder.raise_statusOk _ (by decide) (h.of_busy hb).2.2.2
  · rw [Decoder.execChunk_eq]
    exact h
  · obtain ⟨pos, code, hcode, hfinal⟩ | ⟨-, -, hfinal⟩ := d.finalStep_cases c m <;> rw [hfinal]
    · exact Decoder.raise_statusOk _ hcode (h.of_busy hb).2.2.2
    · exact ⟨by simp [(h.of_busy hb).1], fun hdone => absurd rfl hdone⟩

/-- Every event of an encoder keeps its status consistent. -/
theorem Encoder.statusOk.event {c : Config} {k : Nat} {m : Option Move} {e e' : Encoder} (h : e.statusOk)
    (hevent : Encoder.Event c k m e e') : e'.statusOk := by
  cases hevent with
  | stays => exact h
  | steps => exact h.step c
  | @writes reg value =>
    obtain ⟨-, -, hidle, hw⟩ | ⟨w, ht, ch, cs, len, hw⟩ := e.writeReg_cases c reg value <;> rw [hw]
    · rw [Encoder.start_not_busy hidle]
      exact ⟨by simp, fun _ => ⟨rfl, rfl⟩⟩
    · exact h
  | observes =>
    unfold Encoder.observe
    split
    · next hdone => exact ⟨h.1, fun hnot => absurd hdone hnot⟩
    · exact h
  | resets => exact ⟨by simp [Encoder.reset, Encoder.powerOn], fun _ => ⟨rfl, rfl⟩⟩
  | stores => exact h

/-- Every event of a decoder keeps its status consistent. -/
theorem Decoder.statusOk.event {c : Config} {k : Nat} {m : Option Move} {d d' : Decoder} (h : d.statusOk)
    (hevent : Decoder.Event c k m d d') : d'.statusOk := by
  cases hevent with
  | stays | stores | opens => exact h
  | steps _ stream => exact h.step c stream
  | @writes reg value =>
    obtain ⟨-, -, hidle, hw⟩ | ⟨len, hw⟩ := d.writeReg_cases c reg value <;> rw [hw]
    · rw [Decoder.start_not_busy hidle]
      exact ⟨by simp, fun _ => ⟨rfl, rfl, rfl⟩⟩
    · exact h
  | observes =>
    unfold Decoder.observe
    split
    · next hdone => exact ⟨h.1, fun hnot => absurd hdone hnot⟩
    · exact h
  | resets => exact ⟨by simp [Decoder.reset, Decoder.powerOn], fun _ => ⟨rfl, rfl, rfl⟩⟩

/-- Settles O45: `statusOk` survives every event of an engine. -/
theorem stepKeepsStatusConsistent : Obligations.StepKeepsStatusConsistent := by
  rintro s t ⟨hencs, hdecs⟩ h
  exact ⟨step_keeps_encs (P := Encoder.statusOk) h hencs fun hevent he => he.event hevent,
    step_keeps_decs (P := Decoder.statusOk) h hdecs fun hevent hd => hd.event hevent⟩

/-! ### What changes PHASE -/

/-- A step of an encoder keeps PHASE, or ends BUSY in DONE or ERROR (10_state.md R31). -/
theorem Encoder.step_phase (c : Config) (e : Encoder) :
    (e.step c).phase = e.phase ∨ e.phase = .busy ∧ ((e.step c).phase = .done ∨ (e.step c).phase = .error) := by
  obtain ⟨-, hstep⟩ | ⟨hb, -, hstep⟩ | ⟨-, hstep⟩ | ⟨hb, -, -, hstep⟩ := e.step_cases c <;> rw [hstep]
  · exact .inl rfl
  · obtain ⟨-, n, hinit⟩ | ⟨-, hinit⟩ := e.initStep_cases c <;> rw [hinit]
    · exact .inr ⟨hb, .inr rfl⟩
    · exact .inl rfl
  · obtain ⟨run, opos, output, cache, hpixel⟩ := e.pixelStep_shape c
    rw [hpixel]
    exact .inl rfl
  · exact .inr ⟨hb, .inl rfl⟩

/-- A step of a decoder keeps PHASE, or ends BUSY in DONE or ERROR (10_state.md R31). -/
theorem Decoder.step_phase (c : Config) (m : Memory) (d : Decoder) :
    (d.step c m).phase = d.phase ∨
      d.phase = .busy ∧ ((d.step c m).phase = .done ∨ (d.step c m).phase = .error) := by
  obtain ⟨-, hstep⟩ | ⟨hb, -, hstep⟩ | ⟨-, -, hstep⟩ | ⟨⟨hb, -⟩, -, -, hstep⟩ | ⟨i, len, -, -, -, hstep⟩ |
    ⟨hb, -, -, hstep⟩ := d.step_cases c m <;> rw [hstep]
  · exact .inl rfl
  · obtain ⟨-, w, ht, ch, cs, n, hinit⟩ | ⟨-, hinit⟩ := d.initStep_cases c m <;> rw [hinit]
    · exact .inr ⟨hb, .inr rfl⟩
    · exact .inl rfl
  · exact .inl rfl
  · exact .inr ⟨hb, .inr rfl⟩
  · rw [Decoder.execChunk_eq]
    exact .inl rfl
  · obtain ⟨pos, code, -, hfinal⟩ | ⟨-, -, hfinal⟩ := d.finalStep_cases c m <;> rw [hfinal]
    · exact .inr ⟨hb, .inr rfl⟩
    · exact .inr ⟨hb, .inl rfl⟩

/-- The events that change the PHASE of an encoder. -/
theorem Encoder.Event.phase_ne {c : Config} {k : Nat} {m : Option Move} {e e' : Encoder}
    (hevent : Encoder.Event c k m e e') (hne : e'.phase ≠ e.phase) :
    (e.phase = .busy ∧ m = some (.enc k) ∧ (e'.phase = .done ∨ e'.phase = .error)) ∨
    (e.phase ≠ .busy ∧ e'.phase = .busy ∧ ∃ v, v % 2 = 1 ∧ m = some (.host (.writeEncReg k 0 v))) ∨
    (e'.phase = .idle ∧ m = some (.host .assertReset)) := by
  cases hevent with
  | stays | stores => exact absurd rfl hne
  | steps turn =>
    obtain ⟨hb, hend⟩ := (e.step_phase c).resolve_left hne
    exact .inl ⟨hb, turn, hend⟩
  | @writes reg value turn =>
    obtain ⟨rfl, hbit, hidle, hw⟩ | ⟨w, ht, ch, cs, len, hw⟩ := e.writeReg_cases c reg value
    · exact .inr (.inl ⟨hidle, by rw [hw, Encoder.start_not_busy hidle], value, hbit, turn⟩)
    · exact absurd (by rw [hw]) hne
  | observes => exact absurd (by rw [Encoder.observe_eq]) hne
  | resets turn => exact .inr (.inr ⟨rfl, turn⟩)

/-- The events that change the PHASE of a decoder. -/
theorem Decoder.Event.phase_ne {c : Config} {k : Nat} {m : Option Move} {d d' : Decoder}
    (hevent : Decoder.Event c k m d d') (hne : d'.phase ≠ d.phase) :
    (d.phase = .busy ∧ m = some (.dec k) ∧ (d'.phase = .done ∨ d'.phase = .error)) ∨
    (d.phase ≠ .busy ∧ d'.phase = .busy ∧ ∃ v, v % 2 = 1 ∧ m = some (.host (.writeDecReg k 0 v))) ∨
    (d'.phase = .idle ∧ m = some (.host .assertReset)) := by
  cases hevent with
  | stays | stores | opens => exact absurd rfl hne
  | steps turn stream =>
    obtain ⟨hb, hend⟩ := (d.step_phase c stream).resolve_left hne
    exact .inl ⟨hb, turn, hend⟩
  | @writes reg value turn =>
    obtain ⟨rfl, hbit, hidle, hw⟩ | ⟨len, hw⟩ := d.writeReg_cases c reg value
    · exact .inr (.inl ⟨hidle, by rw [hw, Decoder.start_not_busy hidle], value, hbit, turn⟩)
    · exact absurd (by rw [hw]) hne
  | observes => exact absurd (by rw [Decoder.observe_eq]) hne
  | resets turn => exact .inr (.inr ⟨rfl, turn⟩)

/-- Settles O51: a step is an event of every engine, and the events that change PHASE are these. -/
theorem onlyTheseEventsChangePhase : Obligations.OnlyTheseEventsChangePhase :=
  ⟨fun _ _ _ _ _ h he he' hne => (step_encEvent h he he').phase_ne hne,
    fun _ _ _ _ _ h hd hd' hne => (step_decEvent h hd hd').phase_ne hne⟩

end Sys2Proof.Machine
end

section
/-! PROOFS. The sequencers, run counters and results of the engines stay in range (10_state.md R33, R36, R42 to R44,
R57; 41_encoder.md R175; 42_decoder.md R216): what one pixel may cost in bytes, and the invariant over every event. -/

namespace Sys2Proof.Machine

/-! ### What a pixel costs -/

/-- The chunk of a pixel has at least one byte, and five only where alpha changes (41_encoder.md R164, R175). -/
theorem chooseChunk_length (t : TagAssignment) (px prev slotPixel : Pixel) :
    1 ≤ (encode t (chooseChunk px prev slotPixel)).length ∧
    (encode t (chooseChunk px prev slotPixel)).length ≤ if px.a = prev.a then 4 else 5 := by
  unfold chooseChunk
  split_ifs <;> simp [encode]

/-- With three channels every pixel that is read has alpha 255 (41_encoder.md R163). -/
theorem Encoder.readPixel_alpha {e : Encoder} (h : e.ch = 3) (i : Nat) : (e.readPixel i).a = 255 := by
  simp [Encoder.readPixel, h]

/-- The open run's chunk is one byte if there is a run, and none if not. -/
theorem Encoder.openRun_length {e : Encoder} (h : e.run.toNat ≤ 61) :
    e.openRun.length ≤ e.run.toNat ∧ e.run.toNat ≤ 62 * e.openRun.length := by
  unfold Encoder.openRun
  split
  · next h0 => simp [h0]
  · next h0 =>
    have hpos : e.run.toNat ≠ 0 := fun hz => h0 (BitVec.eq_of_toNat_eq hz)
    simp only [List.length_singleton]
    omega

/-- The channel count of a legal request. -/
theorem Encoder.legal.channels {c : Config} {e : Encoder} (h : e.legal c) : e.ch = 3 ∨ e.ch = 4 := h.1

/-- One pixel adds at most ch + 1 to the bytes emitted plus the open run, and at least 1 to 62 times the bytes emitted
plus the open run (41_encoder.md R175). -/
theorem Encoder.bodyInv.pixelStep_budget {c : Config} {e : Encoder} (h : e.bodyInv c) :
    (e.pixelStep c).run.toNat ≤ 61 ∧ e.opos ≤ (e.pixelStep c).opos ∧
    (e.pixelStep c).opos + (e.pixelStep c).run.toNat ≤ e.opos + e.run.toNat + (e.ch.toNat + 1) ∧
    62 * e.opos + e.run.toNat + 1 ≤ 62 * (e.pixelStep c).opos + (e.pixelStep c).run.toNat := by
  have zero : (0 : BitVec 6).toNat = 0 := rfl
  obtain ⟨hlegal, -, -, hrun, halpha, -⟩ := h
  obtain ⟨hnot, cache, hstep⟩ | ⟨hfull, output, cache, hstep⟩ | ⟨slotPixel, output, cache, hstep⟩ := e.pixelStep_cases c
  · have hlt : (e.run + 1).toNat = e.run.toNat + 1 ∧ e.run.toNat + 1 ≤ 61 := by bv_omega
    simp only [hstep]
    omega
  · have h61 : e.run.toNat = 61 := by bv_omega
    simp only [hstep, zero]
    omega
  · obtain ⟨hopen, hopen'⟩ := e.openRun_length hrun
    obtain ⟨hlen, hlen'⟩ := chooseChunk_length c.tags (e.readPixel e.pix) e.prev slotPixel
    have hbytes : (encode c.tags (chooseChunk (e.readPixel e.pix) e.prev slotPixel)).length ≤ e.ch.toNat + 1 := by
      obtain h3 | h4 := hlegal.channels
      · rw [if_pos (by rw [Encoder.readPixel_alpha h3, halpha h3])] at hlen'
        simpa [h3] using hlen'
      · rw [h4]
        exact hlen'.trans (by split <;> decide)
    simp only [hstep, zero]
    omega

/-! ### The encoder -/

/-- `State.sequencerInv` for one encoder. -/
def Encoder.sequencerOk (c : Config) (e : Encoder) : Prop :=
  (e.phase = .busy → e.stage = .body → e.bodyInv c) ∧ (e.phase = .done → e.doneInv c)

/-- A pixel step keeps the body's invariant. -/
theorem Encoder.bodyInv.pixelStep {c : Config} {e : Encoder} (h : e.bodyInv c) (hpix : e.pix < e.n) :
    (e.pixelStep c).bodyInv c := by
  obtain ⟨hrun', hle, hupper, hlower⟩ := h.pixelStep_budget
  obtain ⟨hlegal, hn, -, -, -, hhdr, hbytes, hcount⟩ := h
  obtain ⟨run, opos, output, cache, hstep⟩ := e.pixelStep_shape c
  rw [hstep] at hrun' hle hupper hlower ⊢
  dsimp only at hrun' hle hupper hlower
  refine ⟨hlegal, hn, hpix, hrun', fun h3 => Encoder.readPixel_alpha h3 _, hhdr.trans hle, ?_, ?_⟩
  · show opos + run.toNat ≤ hdrLen c + (e.pix + 1) * (e.ch.toNat + 1)
    rw [Nat.add_mul, Nat.one_mul]
    omega
  · show e.pix + 1 ≤ 62 * (opos - hdrLen c) + run.toNat
    omega

/-- FINAL leaves a result within the bounds (41_encoder.md R175). -/
theorem Encoder.bodyInv.finalStep {c : Config} {e : Encoder} (h : e.bodyInv c) (hpix : e.n ≤ e.pix) :
    (e.finalStep c).doneInv c := by
  obtain ⟨-, -, hle, hrun, -, hhdr, hbytes, hcount⟩ := h
  obtain ⟨hopen, hopen'⟩ := e.openRun_length hrun
  obtain ⟨output, hstep⟩ := e.finalStep_shape c
  rw [hstep]
  rw [Nat.le_antisymm hle hpix] at hbytes hcount
  refine ⟨rfl, ?_, ?_⟩
  · show e.opos + e.openRun.length + 8 ≤ hdrLen c + e.n * (e.ch.toNat + 1) + 8
    omega
  · show hdrLen c + (e.n + 61) / 62 + 8 ≤ e.opos + e.openRun.length + 8
    omega

@[simp] theorem headerBytes_length (c : Config) (w h : Word32) (ch cs : Byte) :
    (headerBytes c w h ch cs).length = hdrLen c := by simp [headerBytes, be32, hdrLen, magicLen]

/-- The body's invariant holds when INIT passes. -/
theorem Encoder.initStep_bodyInv {c : Config} {e : Encoder} (hlegal : e.legal c) :
    Encoder.bodyInv c { (Encoder.clearWorking { e with n := e.w.toNat * e.h.toNat }).emit
      (headerBytes c e.w e.h e.ch e.cs) with stage := .body } := by
  refine ⟨hlegal, rfl, Nat.zero_le _, Nat.zero_le _, fun _ => rfl, ?_, ?_, Nat.zero_le _⟩ <;> simp

/-- A step of an encoder keeps its sequencers in range. -/
theorem Encoder.sequencerOk.step {c : Config} {e : Encoder} (h : e.sequencerOk c) : (e.step c).sequencerOk c := by
  obtain ⟨hbody, -⟩ := id h
  obtain ⟨-, hstep⟩ | ⟨hb, -, hstep⟩ | ⟨⟨hb, hs, hpix⟩, hstep⟩ | ⟨hb, hs, hpix, hstep⟩ := e.step_cases c <;> rw [hstep]
  · exact h
  · obtain ⟨-, n, hinit⟩ | ⟨hlegal, hinit⟩ := e.initStep_cases c <;> rw [hinit]
    · exact ⟨nofun, nofun⟩
    · exact ⟨fun _ _ => Encoder.initStep_bodyInv hlegal, fun hdone => nomatch hb.symm.trans hdone⟩
  · refine ⟨fun _ _ => (hbody hb hs).pixelStep hpix, fun hdone => ?_⟩
    obtain ⟨run, opos, output, cache, hpixel⟩ := e.pixelStep_shape c
    rw [hpixel] at hdone
    exact nomatch hb.symm.trans hdone
  · exact ⟨nofun, fun _ => (hbody hb hs).finalStep hpix⟩

/-- Every event of an encoder keeps its sequencers in range. -/
theorem Encoder.sequencerOk.event {c : Config} {k : Nat} {m : Option Move} {e e' : Encoder} (h : e.sequencerOk c)
    (hevent : Encoder.Event c k m e e') : e'.sequencerOk c := by
  cases hevent with
  | stays | stores => exact h
  | steps => exact h.step
  | @writes reg value =>
    obtain ⟨-, -, hidle, hw⟩ | ⟨w, ht, ch, cs, len, hw⟩ := e.writeReg_cases c reg value <;> rw [hw]
    · rw [Encoder.start_not_busy hidle]
      exact ⟨nofun, nofun⟩
    · exact h
  | observes =>
    rw [Encoder.observe_eq]
    exact h
  | resets => exact ⟨nofun, nofun⟩

/-! ### The decoder -/

/-- `State.sequencerInv` for one decoder. -/
def Decoder.sequencerOk (c : Config) (d : Decoder) : Prop :=
  (d.phase = .busy → d.stage = .body → d.bodyInv c) ∧ (d.phase = .done → d.doneInv c)

/-- The body's invariant holds when INIT passes. -/
theorem Decoder.initStep_bodyInv {c : Config} {m : Memory} {d : Decoder} (h : d.headerOk c m) :
    ((d.withHeader c m).clearWorking c).bodyInv c := by
  obtain ⟨⟨hlen, -⟩, ⟨hch, hcs⟩, hw, hh, hmax⟩ := h
  rw [← Decoder.withHeader_n c m d] at hmax
  exact ⟨hch, hcs, mt (Decoder.parseHeader_w_eq_zero c m d).1 hw, mt (Decoder.parseHeader_h_eq_zero c m d).1 hh, rfl,
    hmax, Nat.zero_le _, le_rfl, hlen, Nat.zero_le _⟩

/-- PixelCommit after a fetch or a replay keeps the body's invariant. -/
theorem Decoder.bodyInv.commit {c : Config} {d : Decoder} (h : d.bodyInv c) (hpix : d.pix < d.n) {pos : Nat}
    (hpos : d.pos ≤ pos) (hpos' : pos ≤ d.inLen) {run : BitVec 6} (hrun : run.toNat ≤ 61) (px : Pixel) :
    Decoder.bodyInv c (Decoder.commit { d with pos := pos, run := run } px) := by
  obtain ⟨hch, hcs, hw, hh, hn, hmax, -, hhdr, -⟩ := h
  exact ⟨hch, hcs, hw, hh, hn, hmax, hpix, hhdr.trans hpos, hpos', hrun⟩

/-- A step of a decoder keeps its sequencers in range. -/
theorem Decoder.sequencerOk.step {c : Config} {d : Decoder} (h : d.sequencerOk c) (m : Memory) :
    (d.step c m).sequencerOk c := by
  obtain ⟨hbody, -⟩ := id h
  obtain ⟨-, hstep⟩ | ⟨hb, -, hstep⟩ | ⟨⟨hb, hs, hpix⟩, hrun, hstep⟩ | ⟨-, -, -, hstep⟩ |
    ⟨i, len, ⟨hb, hs, hpix⟩, hrun, hfetch, hstep⟩ | ⟨hb, hs, hpix, hstep⟩ := d.step_cases c m <;> rw [hstep]
  · exact h
  · obtain ⟨-, w, ht, ch, cs, n, hinit⟩ | ⟨hheader, hinit⟩ := d.initStep_cases c m <;> rw [hinit]
    · exact ⟨nofun, nofun⟩
    · exact ⟨fun _ _ => Decoder.initStep_bodyInv hheader, fun hdone => nomatch hb.symm.trans hdone⟩
  · obtain ⟨-, -, -, -, -, -, -, -, hpos, hle⟩ := hbody hb hs
    exact ⟨fun _ _ => (hbody hb hs).commit hpix le_rfl hpos (by bv_omega) _,
      fun hdone => nomatch hb.symm.trans hdone⟩
  · exact ⟨nofun, nofun⟩
  · obtain ⟨-, hpos, rest, hdecode⟩ := Decoder.fetchChunk_some hfetch
    rw [Decoder.execChunk_eq]
    dsimp only
    rw [hrun]
    exact ⟨fun _ _ => (hbody hb hs).commit hpix (Nat.le_add_right _ _) hpos (chunkRun_of_decode hdecode) _,
      fun hdone => nomatch hb.symm.trans hdone⟩
  · obtain ⟨hch, hcs, hw, hh, hn, -, -, hhdr, -, -⟩ := hbody hb hs
    obtain ⟨pos, code, -, hfinal⟩ | ⟨hpos, htrail, hfinal⟩ := d.finalStep_cases c m <;> rw [hfinal]
    · exact ⟨nofun, nofun⟩
    · exact ⟨nofun, fun _ => ⟨rfl, rfl, rfl, rfl, rfl, rfl, rfl, hch, hcs, hw, hh, hn,
        Nat.add_le_add_right hhdr 8, hpos, htrail⟩⟩

/-- Every event of a decoder keeps its sequencers in range. -/
theorem Decoder.sequencerOk.event {c : Config} {k : Nat} {m : Option Move} {d d' : Decoder} (h : d.sequencerOk c)
    (hevent : Decoder.Event c k m d d') : d'.sequencerOk c := by
  cases hevent with
  | stays | stores | opens => exact h
  | steps _ stream => exact h.step stream
  | @writes reg value =>
    obtain ⟨-, -, hidle, hw⟩ | ⟨len, hw⟩ := d.writeReg_cases c reg value <;> rw [hw]
    · rw [Decoder.start_not_busy hidle]
      exact ⟨nofun, nofun⟩
    · exact h
  | observes =>
    rw [Decoder.observe_eq]
    exact h
  | resets => exact ⟨nofun, nofun⟩

/-- Settles O46: `sequencerOk` survives every event of an engine. -/
theorem stepKeepsSequencersInRange : Obligations.StepKeepsSequencersInRange := by
  rintro s t ⟨hencs, hdecs⟩ h
  unfold State.sequencerInv
  rw [(step_sameSystem h).cfg]
  exact ⟨step_keeps_encs (P := Encoder.sequencerOk s.cfg) h hencs fun hevent he => he.event hevent,
    step_keeps_decs (P := Decoder.sequencerOk s.cfg) h hdecs fun hevent hd => hd.event hevent⟩

end Sys2Proof.Machine
end

section
/-! PROOFS. The result of an encode depends on the request and the input bytes alone (10_state.md R59; 41_encoder.md
R160, R178): two encoders with the same request stay twins, step by step. -/

namespace Sys2Proof.Machine

/-- The two encoders are at the same point of an encode: equal working registers, and equal bytes emitted so far. -/
structure Encoder.SameWork (e e' : Encoder) : Prop where
  n : e.n = e'.n
  pix : e.pix = e'.pix
  opos : e.opos = e'.opos
  prev : e.prev = e'.prev
  run : e.run = e'.run
  cache : e.cache = e'.cache
  output : ∀ a, a < e.opos → e.output.read a = e'.output.read a

/-- The two encoders run the same request on the same input bytes, and are equal in all that it determines: in BODY the
work, in ERROR the code, in DONE the published length. -/
structure Encoder.Twin (e e' : Encoder) : Prop where
  phase : e.phase = e'.phase
  stage : e.stage = e'.stage
  w : e.w = e'.w
  h : e.h = e'.h
  ch : e.ch = e'.ch
  cs : e.cs = e'.cs
  inLen : e.inLen = e'.inLen
  input : ∀ a, a < e.inLen → e.input.read a = e'.input.read a
  err : e.phase = .error → e.err = e'.err
  work : e.stage = .body → e.SameWork e'
  published : e.phase = .done → e.stage = .body ∧ e.outLen = e'.outLen

/-! ### The parts of a pixel step -/

/-- Emit of the same bytes. -/
theorem Encoder.SameWork.emit {e e' : Encoder} (h : e.SameWork e') (bytes : List Byte) :
    (e.emit bytes).SameWork (e'.emit bytes) := by
  refine ⟨h.n, h.pix, congrArg (· + bytes.length) h.opos, h.prev, h.run, h.cache, fun a ha => ?_⟩
  by_cases hlt : a < e.opos
  · rw [Encoder.emit_output_below _ _ hlt, Encoder.emit_output_below _ _ (h.opos ▸ hlt), h.output a hlt]
  · obtain ⟨i, rfl⟩ := Nat.exists_eq_add_of_le (Nat.not_lt.1 hlt)
    have hi : i < bytes.length := Nat.lt_of_add_lt_add_left ha
    rw [Encoder.emit_output_at _ _ _ hi, h.opos, Encoder.emit_output_at _ _ _ hi]

/-- EmitRUN of the same length. -/
theorem Encoder.SameWork.emitRun {e e' : Encoder} (h : e.SameWork e') (c : Config) (n : Nat) :
    (e.emitRun c n).SameWork (e'.emitRun c n) :=
  { h.emit (encode c.tags (.run n)) with run := rfl }

theorem Encoder.SameWork.runFlush {e e' : Encoder} (h : e.SameWork e') (c : Config) :
    (e.runFlush c).SameWork (e'.runFlush c) := by
  unfold Encoder.runFlush
  rw [← h.run]
  split
  · exact h
  · exact h.emitRun c _

theorem Encoder.SameWork.runContinue {e e' : Encoder} (h : e.SameWork e') (c : Config) (px : Pixel) :
    (e.runContinue c px).SameWork (e'.runContinue c px) := by
  have counted : Encoder.SameWork { e with run := e.run + 1 } { e' with run := e'.run + 1 } :=
    { h with run := congrArg (· + 1) h.run }
  have ended : Encoder.SameWork
      (if e.run + 1 = 62 then Encoder.emitRun c { e with run := e.run + 1 } 62 else { e with run := e.run + 1 })
      (if e'.run + 1 = 62 then Encoder.emitRun c { e' with run := e'.run + 1 } 62
        else { e' with run := e'.run + 1 }) := by
    rw [← h.run] at counted ⊢
    split
    · exact counted.emitRun c 62
    · exact counted
  simp only [Encoder.runContinue]
  cases c.encCacheOnRun with
  | true => exact { ended with cache := congrArg (cacheUpdate · px) ended.cache }
  | false => exact ended

theorem Encoder.SameWork.emitPixel {e e' : Encoder} (h : e.SameWork e') (c : Config) (px : Pixel) :
    (e.emitPixel c px).SameWork (e'.emitPixel c px) := by
  unfold Encoder.emitPixel
  rw [← h.prev, ← h.cache]
  exact { h.emit _ with cache := rfl }

theorem Encoder.SameWork.encodePixel {e e' : Encoder} (h : e.SameWork e') (c : Config) (px : Pixel) :
    (e.encodePixel c px).SameWork (e'.encodePixel c px) := by
  unfold Encoder.encodePixel
  rw [← h.prev]
  split
  · exact h.runContinue c px
  · exact (h.runFlush c).emitPixel c px

/-- Encoders that read the same pixel do the same work on it. -/
theorem Encoder.SameWork.pixelStep {e e' : Encoder} (h : e.SameWork e') (c : Config)
    (hread : e.readPixel e.pix = e'.readPixel e'.pix) : (e.pixelStep c).SameWork (e'.pixelStep c) := by
  unfold Encoder.pixelStep
  rw [← hread, ← h.pix]
  exact { h.encodePixel c _ with prev := rfl, pix := rfl }

/-! ### The steps -/

/-- The pixel that a running encoder reads next lies inside its input (20_memory.md R78). -/
theorem Encoder.bodyInv.pixel_in_input {c : Config} {e : Encoder} (h : e.bodyInv c) (hpix : e.pix < e.n) :
    e.pix * e.ch.toNat + e.ch.toNat ≤ e.inLen := by
  obtain ⟨⟨-, -, -, -, -, hlen⟩, hn, -⟩ := h
  calc e.pix * e.ch.toNat + e.ch.toNat = (e.pix + 1) * e.ch.toNat := by rw [Nat.add_mul, Nat.one_mul]
    _ ≤ e.n * e.ch.toNat := Nat.mul_le_mul_right _ hpix
    _ = e.inLen := by rw [hn, hlen]

/-- Twins read the same pixel. -/
theorem Encoder.Twin.readPixel {c : Config} {e e' : Encoder} (h : e.Twin e') (hbody : e.bodyInv c)
    (hpix : e.pix < e.n) : e.readPixel e.pix = e'.readPixel e.pix := by
  have hin := hbody.pixel_in_input hpix
  unfold Encoder.readPixel
  rw [← h.ch]
  obtain h3 | h4 := hbody.1.channels
  · have three : e.ch.toNat = 3 := by rw [h3]; rfl
    rw [three] at hin ⊢
    rw [h.input _ (by omega), h.input _ (by omega), h.input _ (by omega), h3]
    rfl
  · have four : e.ch.toNat = 4 := by rw [h4]; rfl
    rw [four] at hin ⊢
    rw [h.input _ (by omega), h.input _ (by omega), h.input _ (by omega), h.input _ (by omega)]

/-- INIT aborts twins alike. -/
theorem Encoder.Twin.raise {e e' : Encoder} (h : e.Twin e') (hs : e.stage = .init) (n n' : Nat) (code : ErrCode) :
    (Encoder.raise { e with n := n } code).Twin (Encoder.raise { e' with n := n' } code) :=
  { h with
    phase := rfl
    err := fun _ => rfl
    work := fun hbody => nomatch hs.symm.trans hbody
    published := nofun }

/-- Twins are both legal or both not. -/
theorem Encoder.Twin.legal_iff {e e' : Encoder} (h : e.Twin e') (c : Config) : e.legal c ↔ e'.legal c := by
  unfold Encoder.legal
  rw [h.w, h.h, h.ch, h.cs, h.inLen]

/-- Twins are rejected with the same code. -/
theorem Encoder.Twin.rejectCode {e e' : Encoder} (h : e.Twin e') : e.rejectCode = e'.rejectCode := by
  unfold Encoder.rejectCode
  rw [h.ch, h.cs]

/-- INIT leaves twins. -/
theorem Encoder.Twin.initStep {e e' : Encoder} (h : e.Twin e') (c : Config) (hb : e.phase = .busy)
    (hs : e.stage = .init) : (e.initStep c).Twin (e'.initStep c) := by
  obtain ⟨hillegal, n, hinit⟩ | ⟨hlegal, hinit⟩ := e.initStep_cases c
  · obtain ⟨-, n', hinit'⟩ := (e'.initStep_cases c).resolve_right fun hlegal' =>
      hillegal ((h.legal_iff c).2 hlegal'.1)
    rw [hinit, hinit', ← h.rejectCode]
    exact h.raise hs n n' _
  · obtain ⟨-, hinit'⟩ := (e'.initStep_cases c).resolve_left fun hillegal => hillegal.1 ((h.legal_iff c).1 hlegal)
    have clear : (Encoder.clearWorking { e with n := e.w.toNat * e.h.toNat }).SameWork
        (Encoder.clearWorking { e' with n := e'.w.toNat * e'.h.toNat }) :=
      ⟨by simp [h.w, h.h], rfl, rfl, rfl, rfl, rfl, fun a ha => absurd ha (Nat.not_lt_zero a)⟩
    have work := clear.emit (headerBytes c e.w e.h e.ch e.cs)
    have header : headerBytes c e'.w e'.h e'.ch e'.cs = headerBytes c e.w e.h e.ch e.cs := by
      rw [h.w, h.h, h.ch, h.cs]
    rw [hinit, hinit', header]
    exact { h with
      stage := rfl
      work := fun _ => { work with }
      published := fun hdone => nomatch hb.symm.trans hdone }

/-- A pixel step leaves twins. -/
theorem Encoder.Twin.pixelStep {c : Config} {e e' : Encoder} (h : e.Twin e') (hs : e.stage = .body)
    (hbody : e.bodyInv c) (hpix : e.pix < e.n) : (e.pixelStep c).Twin (e'.pixelStep c) := by
  have work := (h.work hs).pixelStep c ((h.readPixel hbody hpix).trans (by rw [(h.work hs).pix]))
  obtain ⟨run, opos, output, cache, hstep⟩ := e.pixelStep_shape c
  obtain ⟨run', opos', output', cache', hstep'⟩ := e'.pixelStep_shape c
  rw [hstep, hstep'] at work ⊢
  exact { h with work := fun _ => work }

/-- FINAL leaves twins. -/
theorem Encoder.Twin.finalStep {e e' : Encoder} (h : e.Twin e') (hs : e.stage = .body) (c : Config) :
    (e.finalStep c).Twin (e'.finalStep c) := by
  have work := ((h.work hs).runFlush c).emit endMarker
  obtain ⟨output, hflush⟩ := e.runFlush_shape c
  obtain ⟨output', hflush'⟩ := e'.runFlush_shape c
  simp only [Encoder.finalStep]
  rw [hflush, hflush'] at work ⊢
  exact { h with
    phase := rfl
    err := nofun
    work := fun _ => { work with }
    published := fun _ => ⟨hs, congrArg (lengthRegister c) work.opos⟩ }

/-- A step of the engine leaves twins. -/
theorem Encoder.Twin.step {c : Config} {e e' : Encoder} (h : e.Twin e') (hok : e.sequencerOk c) :
    (e.step c).Twin (e'.step c) := by
  unfold Encoder.step
  rw [← h.phase, ← h.stage]
  split
  · next hb =>
    split
    · next hs => exact h.initStep c hb hs
    · next hs =>
      rw [← (h.work hs).pix, ← (h.work hs).n]
      split
      · next hpix => exact h.pixelStep hs (hok.1 hb hs) hpix
      · exact h.finalStep hs c
  · exact h

/-- Any number of steps leaves twins. -/
theorem Encoder.Twin.iterate {c : Config} (m : Nat) {e e' : Encoder} (h : e.Twin e') (hok : e.sequencerOk c) :
    ((Encoder.step c)^[m] e).Twin ((Encoder.step c)^[m] e') := by
  induction m generalizing e e' with
  | zero => exact h
  | succ m ih => exact ih (h.step hok) hok.step

/-- A run of `m` steps of encoder `k`, and nothing else. -/
theorem runSteps_enc_get (m : Nat) {k : Nat} {s : State} {e : Encoder} (he : s.encs[k]? = some e) :
    ∃ t, runSteps m { s with agenda := List.replicate m (.enc k) } = .next t ∧
      t.encs[k]? = some ((Encoder.step s.cfg)^[m] e) := by
  have hrun := runSteps_enc m [] he
  rw [List.append_nil] at hrun
  exact ⟨_, hrun, State.setEnc_get he _⟩

/-- Settles O56: encoders at INIT with the same request are twins, and steps keep them so. -/
theorem encodeDependsOnRequestOnly : Obligations.EncodeDependsOnRequestOnly := by
  intro s s' k e e' hcfg he he' hb hs hb' hs' hw hh hch hcs hlen hinput m
  have twin : e.Twin e' :=
    { phase := hb.trans hb'.symm, stage := hs.trans hs'.symm, w := hw, h := hh, ch := hch, cs := hcs, inLen := hlen,
      input := hinput
      err := fun herr => nomatch hb.symm.trans herr
      work := fun hbody => nomatch hs.symm.trans hbody
      published := fun hdone => nomatch hb.symm.trans hdone }
  have hok : e.sequencerOk s.cfg :=
    ⟨fun _ hbody => (nomatch hs.symm.trans hbody), fun hdone => nomatch hb.symm.trans hdone⟩
  have result := twin.iterate m hok
  obtain ⟨t, hrun, hget⟩ := runSteps_enc_get m he
  obtain ⟨t', hrun', hget'⟩ := runSteps_enc_get m he'
  rw [← hcfg] at hget'
  refine ⟨t, t', _, _, hrun, hrun', hget, hget', result.phase, result.err, fun hdone => ?_⟩
  obtain ⟨hbody, hout⟩ := result.published hdone
  exact ⟨hout, (result.work hbody).opos, (result.work hbody).output⟩

end Sys2Proof.Machine
end

section
/-! PROOFS. The result of a decode depends on the stream alone (10_state.md R59; 42_decoder.md R200): two decoders whose
streams agree below the latched length stay twins, step by step. -/

namespace Sys2Proof.Machine

/-! ### Streams that agree -/

/-- The two buffers hold the same bytes below `len`. -/
def Memory.AgreeBelow (m m' : Memory) (len : Nat) : Prop := ∀ a, a < len → m.read a = m'.read a

theorem Memory.AgreeBelow.readBytes {m m' : Memory} {len : Nat} (h : Memory.AgreeBelow m m' len) {a n : Nat}
    (hle : a + n ≤ len) : m.readBytes a n = m'.readBytes a n :=
  Memory.readBytes_congr _ _ _ _ fun x _ hx => h x (by omega)

/-- Streams that agree below the header's length have the same header bytes (30_encoding.md R101). -/
theorem Memory.AgreeBelow.headerByte {c : Config} {m m' : Memory} {len : Nat} (h : Memory.AgreeBelow m m' len)
    (hlen : hdrLen c ≤ len) {i : Nat} (hi : i < 10) :
    Sys2Proof.Machine.headerByte c m i = Sys2Proof.Machine.headerByte c m' i :=
  h _ (by unfold hdrLen at hlen; omega)

/-- The same header bytes give the same header word. -/
theorem Memory.AgreeBelow.be32At {c : Config} {m m' : Memory} {len : Nat} (h : Memory.AgreeBelow m m' len)
    (hlen : hdrLen c ≤ len) {i : Nat} (hi : i + 4 ≤ 10) :
    Sys2Proof.Machine.be32At m (magicLen c + i) = Sys2Proof.Machine.be32At m' (magicLen c + i) := by
  unfold hdrLen at hlen
  unfold Sys2Proof.Machine.be32At
  rw [h _ (by omega), h _ (by omega), h _ (by omega), h _ (by omega)]

/-- Streams that agree give any two decoders the same header fields. -/
theorem Memory.AgreeBelow.parseHeader {c : Config} {m m' : Memory} {len : Nat} (h : Memory.AgreeBelow m m' len)
    (hlen : hdrLen c ≤ len) (d d' : Decoder) :
    (d.parseHeader c m).w = (d'.parseHeader c m').w ∧ (d.parseHeader c m).h = (d'.parseHeader c m').h ∧
    (d.parseHeader c m).ch = (d'.parseHeader c m').ch ∧ (d.parseHeader c m).cs = (d'.parseHeader c m').cs := by
  have hbyte : ∀ i, i < 10 → Sys2Proof.Machine.headerByte c m i = Sys2Proof.Machine.headerByte c m' i :=
    fun i hi => h.headerByte hlen hi
  simp only [Decoder.parseHeader]
  simp [hbyte]

/-! ### Twins -/

/-- The two decoders are at the same point of a decode: equal header and working registers, and equal bytes of the
pixels written so far. -/
structure Decoder.SameWork (d d' : Decoder) : Prop where
  w : d.w = d'.w
  h : d.h = d'.h
  ch : d.ch = d'.ch
  cs : d.cs = d'.cs
  n : d.n = d'.n
  pix : d.pix = d'.pix
  pos : d.pos = d'.pos
  prev : d.prev = d'.prev
  run : d.run = d'.run
  cache : d.cache = d'.cache
  output : ∀ a, a < d.pixelAddr → d.output.read a = d'.output.read a

/-- The two decoders show the same result (10_state.md R57). -/
structure Decoder.SameResult (d d' : Decoder) : Prop where
  outWidth : d.outWidth = d'.outWidth
  outHeight : d.outHeight = d'.outHeight
  outChannels : d.outChannels = d'.outChannels
  outColorspace : d.outColorspace = d'.outColorspace
  outLen : d.outLen = d'.outLen
  consumed : d.consumed = d'.consumed

/-- The two decoders run on streams of one length, and are equal in all that the stream determines: in BODY the work, in
ERROR the code, in DONE the result. -/
structure Decoder.Twin (d d' : Decoder) : Prop where
  phase : d.phase = d'.phase
  stage : d.stage = d'.stage
  inLen : d.inLen = d'.inLen
  err : d.phase = .error → d.err = d'.err
  work : d.stage = .body → d.SameWork d'
  published : d.phase = .done → d.stage = .body ∧ d.n ≤ d.pix ∧ d.SameResult d'

/-- PixelCommit of the same pixel (42_decoder.md R213). -/
theorem Decoder.SameWork.commit {d d' : Decoder} (h : d.SameWork d') {px px' : Pixel} (hpx : px = px') :
    (d.commit px).SameWork (d'.commit px') := by
  subst hpx
  have hbytes : d.pixelBytes = d'.pixelBytes := by unfold Decoder.pixelBytes; rw [h.ch]
  have haddr : d.pixelAddr = d'.pixelAddr := by unfold Decoder.pixelAddr; rw [h.pix, hbytes]
  have hlist : d.pixelList px = d'.pixelList px := by unfold Decoder.pixelList; rw [h.ch]
  refine { h with
    pix := congrArg (· + 1) h.pix, prev := rfl, cache := congrArg (cacheUpdate · px) h.cache, output := ?_ }
  intro a ha
  by_cases hlt : a < d.pixelAddr
  · rw [Decoder.commit_output_outside _ _ (.inl hlt), Decoder.commit_output_outside _ _ (.inl (haddr ▸ hlt)),
      h.output a hlt]
  · obtain ⟨i, rfl⟩ := Nat.exists_eq_add_of_le (Nat.not_lt.1 hlt)
    have hnext : (d.commit px).pixelAddr = d.pixelAddr + d.pixelBytes := Nat.succ_mul _ _
    have hi : i < (d.pixelList px).length := by rw [Decoder.pixelList_length]; omega
    rw [Decoder.commit_output_pixel _ _ _ hi, haddr, Decoder.commit_output_pixel _ _ _ (hlist ▸ hi)]
    simp only [hlist]

/-- The same chunk, fetched at the same place. -/
theorem Decoder.SameWork.execChunk {d d' : Decoder} (h : d.SameWork d') (i : Instr) (len : Nat) :
    (Decoder.execChunk { d with pos := d.pos + len } i).SameWork
      (Decoder.execChunk { d' with pos := d'.pos + len } i) := by
  have fetched : Decoder.SameWork { d with pos := d.pos + len, run := chunkRun d.run i }
      { d' with pos := d'.pos + len, run := chunkRun d'.run i } :=
    { h with pos := congrArg (· + len) h.pos, run := congrArg (chunkRun · i) h.run }
  rw [Decoder.execChunk_eq, Decoder.execChunk_eq]
  exact fetched.commit (by rw [h.prev, h.cache])

theorem Decoder.SameWork.replay {d d' : Decoder} (h : d.SameWork d') : d.replay.SameWork d'.replay := by
  have counted : Decoder.SameWork { d with run := d.run - 1 } { d' with run := d'.run - 1 } :=
    { h with run := congrArg (· - 1) h.run }
  exact counted.commit h.prev

/-- An abort leaves twins. -/
theorem Decoder.Twin.raise {d d' : Decoder} (h : d.Twin d') (code : ErrCode) : (d.raise code).Twin (d'.raise code) :=
  { h with
    phase := rfl
    err := fun _ => rfl
    work := fun hs => { h.work hs with }
    published := nofun }

/-- Twins are of a choice as they are of both its branches. -/
theorem Decoder.Twin.ite {p p' : Prop} [Decidable p] [Decidable p'] {a a' b b' : Decoder} (hp : p ↔ p')
    (ha : p → a.Twin a') (hb : ¬p → b.Twin b') : (if p then a else b).Twin (if p' then a' else b') := by
  by_cases h : p
  · rw [if_pos h, if_pos (hp.1 h)]
    exact ha h
  · rw [if_neg h, if_neg (mt hp.2 h)]
    exact hb h

/-! ### The steps -/

section Steps
variable {c : Config} {m m' : Memory} {d d' : Decoder}

/-- Twins on streams that agree pass INIT's checks together. -/
theorem Decoder.Twin.headerOk_iff (h : d.Twin d') (hm : Memory.AgreeBelow m m' d.inLen) :
    d.headerOk c m ↔ d'.headerOk c m' := by
  unfold Decoder.headerOk Decoder.magicOk
  rw [← h.inLen]
  by_cases hlen : hdrLen c ≤ d.inLen
  · have hmagic : m.readBytes 0 (magicLen c) = m'.readBytes 0 (magicLen c) :=
      hm.readBytes (by unfold hdrLen at hlen; omega)
    have hch : m.read (magicLen c + 8) = m'.read (magicLen c + 8) := hm.headerByte hlen (by decide)
    have hcs : m.read (magicLen c + 9) = m'.read (magicLen c + 9) := hm.headerByte hlen (by decide)
    have hw : be32At m (magicLen c) = be32At m' (magicLen c) := hm.be32At hlen (i := 0) (by decide)
    have hh : be32At m (magicLen c + 4) = be32At m' (magicLen c + 4) := hm.be32At hlen (by decide)
    simp only [hmagic, Memory.formatOk, hch, hcs, Memory.dimensionsOk, Memory.headerPixels, hw, hh]
  · simp [hlen]

/-- Twins on streams that agree are rejected with the same code. -/
theorem Decoder.Twin.rejectCode (h : d.Twin d') (hm : Memory.AgreeBelow m m' d.inLen) :
    d.rejectCode c m = d'.rejectCode c m' := by
  unfold Decoder.rejectCode
  rw [← h.inLen]
  by_cases hlen : d.inLen < hdrLen c
  · rw [if_pos hlen, if_pos hlen]
  · obtain ⟨-, -, hch, hcs⟩ := hm.parseHeader (Nat.not_lt.1 hlen) d d'
    rw [hm.readBytes (by unfold hdrLen at hlen; omega), hch, hcs]

/-- INIT leaves twins. -/
theorem Decoder.Twin.initStep (h : d.Twin d') (hm : Memory.AgreeBelow m m' d.inLen) (hb : d.phase = .busy)
    (hs : d.stage = .init) : (d.initStep c m).Twin (d'.initStep c m') := by
  obtain ⟨hbad, w, ht, ch, cs, n, hinit⟩ | ⟨hheader, hinit⟩ := d.initStep_cases c m
  · obtain ⟨-, w', ht', ch', cs', n', hinit'⟩ := (d'.initStep_cases c m').resolve_right fun hok =>
      hbad ((h.headerOk_iff hm).2 hok.1)
    have parsed : Decoder.Twin { d with w := w, h := ht, ch := ch, cs := cs, n := n }
        { d' with w := w', h := ht', ch := ch', cs := cs', n := n' } :=
      { h with
        work := fun hbody => nomatch hs.symm.trans hbody
        published := fun hdone => nomatch hb.symm.trans hdone }
    rw [hinit, hinit', ← h.rejectCode hm]
    exact parsed.raise _
  · obtain ⟨-, hinit'⟩ := (d'.initStep_cases c m').resolve_left fun hbad => hbad.1 ((h.headerOk_iff hm).1 hheader)
    obtain ⟨hw, hh, hch, hcs⟩ := hm.parseHeader hheader.1.1 d d'
    have hn : (d.withHeader c m).n = (d'.withHeader c m').n := by simp only [Decoder.withHeader, hw, hh]
    rw [hinit, hinit']
    exact { h with
      stage := rfl
      work := fun _ => ⟨hw, hh, hch, hcs, hn, rfl, rfl, rfl, rfl, rfl,
        fun a ha => absurd ha (by simp [Decoder.pixelAddr, Decoder.clearWorking])⟩
      published := fun hdone => nomatch hb.symm.trans hdone }

/-- Twins on streams that agree fetch the same chunk (42_decoder.md R206). -/
theorem Decoder.Twin.fetchChunk (h : d.Twin d') (hm : Memory.AgreeBelow m m' d.inLen) (hpos : d.pos = d'.pos) :
    d.fetchChunk c m = d'.fetchChunk c m' := by
  unfold Decoder.fetchChunk
  rw [← hpos, ← h.inLen]
  split
  · rfl
  · next hlt =>
    rw [← hm d.pos (Nat.not_le.1 hlt)]
    dsimp only
    split
    · rfl
    · next hlen => rw [hm.readBytes (Nat.not_lt.1 hlen)]

/-- A pixel step leaves twins. -/
theorem Decoder.Twin.pixelStep (h : d.Twin d') (hm : Memory.AgreeBelow m m' d.inLen) (hb : d.phase = .busy)
    (hs : d.stage = .body) : (d.pixelStep c m).Twin (d'.pixelStep c m') := by
  have work := h.work hs
  refine .ite (by rw [work.run]) (fun _ => ?_) fun _ => ?_
  · exact { h with
      work := fun _ => work.replay
      published := fun hdone => nomatch hb.symm.trans hdone }
  · rw [← h.fetchChunk hm work.pos]
    cases d.fetchChunk c m with
    | none => exact h.raise _
    | some il =>
      have executed := work.execChunk il.1 il.2
      dsimp only
      rw [Decoder.execChunk_eq, Decoder.execChunk_eq] at executed ⊢
      exact { h with
        work := fun _ => executed
        published := fun hdone => nomatch hb.symm.trans hdone }

/-- FINAL leaves twins. -/
theorem Decoder.Twin.finalStep (h : d.Twin d') (hm : Memory.AgreeBelow m m' d.inLen) (hb : d.phase = .busy)
    (hs : d.stage = .body) (hpix : d.n ≤ d.pix) : (d.finalStep c m).Twin (d'.finalStep c m') := by
  have work := h.work hs
  have ended : Decoder.Twin { d with pos := d.pos + 8 } { d' with pos := d'.pos + 8 } :=
    { h with
      work := fun _ => { work with pos := congrArg (· + 8) work.pos }
      published := fun hdone => nomatch hb.symm.trans hdone }
  refine .ite (by rw [h.inLen, work.pos]) (fun _ => h.raise _) fun hlen =>
    .ite (by rw [hm.readBytes (by omega), work.pos]) (fun _ => h.raise _) fun _ =>
      .ite (by rw [ended.inLen, (ended.work hs).pos]) (fun _ => ended.raise _) fun _ => ?_
  exact { h with
    phase := rfl
    err := nofun
    work := fun _ => { work with pos := congrArg (· + 8) work.pos, run := rfl }
    published := fun _ => ⟨hs, hpix, work.w, work.h, work.ch, work.cs,
      congrArg (lengthRegister c) (by rw [work.n, work.ch]), congrArg (lengthRegister c) (by rw [work.pos])⟩ }

/-- A step of the engine leaves twins. -/
theorem Decoder.Twin.step (h : d.Twin d') (hm : Memory.AgreeBelow m m' d.inLen) :
    (d.step c m).Twin (d'.step c m') := by
  unfold Decoder.step
  rw [← h.phase, ← h.stage]
  split
  · next hb =>
    split
    · next hs => exact h.initStep hm hb hs
    · next hs =>
      rw [← (h.work hs).pix, ← (h.work hs).n]
      split
      · exact h.pixelStep hm hb hs
      · next hpix => exact h.finalStep hm hb hs (Nat.not_lt.1 hpix)
  · exact h

/-- Any number of steps leaves twins. -/
theorem Decoder.Twin.iterate (n : Nat) (h : d.Twin d') (hm : Memory.AgreeBelow m m' d.inLen) :
    ((Decoder.step c m)^[n] d).Twin ((Decoder.step c m')^[n] d') := by
  induction n generalizing d d' with
  | zero => exact h
  | succ n ih => exact ih (h.step hm) (by rw [(d.step_frame c m).1.inLen]; exact hm)

/-- Any number of steps keeps the sequencers in range. -/
theorem Decoder.sequencerOk.iterate (n : Nat) (h : d.sequencerOk c) : ((Decoder.step c m)^[n] d).sequencerOk c := by
  induction n generalizing d with
  | zero => exact h
  | succ n ih => exact ih (h.step m)

end Steps

/-- A run of `m` steps of decoder `k`, and nothing else. -/
theorem runSteps_dec_get (m : Nat) {k : Nat} {s : State} {d : Decoder} (hd : s.decs[k]? = some d) :
    ∃ t, runSteps m { s with agenda := List.replicate m (.dec k) } = .next t ∧
      t.decs[k]? = some ((Decoder.step s.cfg (s.decStream d))^[m] d) := by
  have hrun := runSteps_dec m [] hd
  rw [List.append_nil] at hrun
  exact ⟨_, hrun, State.setDec_get hd _⟩

/-- Settles O57: decoders at INIT on streams that agree are twins, and steps keep them so. -/
theorem decodeDependsOnStreamOnly : Obligations.DecodeDependsOnStreamOnly := by
  intro s s' k d d' hcfg hd hd' hb hs hb' hs' hlen hstream m
  have twin : d.Twin d' :=
    { phase := hb.trans hb'.symm, stage := hs.trans hs'.symm, inLen := hlen
      err := fun herr => nomatch hb.symm.trans herr
      work := fun hbody => nomatch hs.symm.trans hbody
      published := fun hdone => nomatch hb.symm.trans hdone }
  have hok : d.sequencerOk s.cfg :=
    ⟨fun _ hbody => (nomatch hs.symm.trans hbody), fun hdone => nomatch hb.symm.trans hdone⟩
  have result := twin.iterate (c := s.cfg) m hstream
  obtain ⟨t, hrun, hget⟩ := runSteps_dec_get m hd
  obtain ⟨t', hrun', hget'⟩ := runSteps_dec_get m hd'
  rw [← hcfg] at hget'
  refine ⟨t, t', _, _, hrun, hrun', hget, hget', result.phase, result.err, fun hdone => ?_⟩
  obtain ⟨hbody, hpix, shown⟩ := result.published hdone
  refine ⟨shown.outWidth, shown.outHeight, shown.outChannels, shown.outColorspace, shown.outLen, shown.consumed,
    fun a ha => (result.work hbody).output a (ha.trans_le ?_)⟩
  obtain ⟨-, -, -, -, -, -, -, hch, -⟩ := (hok.iterate (m := s.decStream d) m).2 hdone
  refine Nat.mul_le_mul hpix ?_
  unfold Decoder.pixelBytes
  obtain h3 | h4 := hch
  · rw [h3]
    decide
  · rw [h4]
    decide

end Sys2Proof.Machine
end

section
/-! PROOFS. The host's register port (10_state.md R48 to R63): what a read and a write of each register leave, and
START. -/

namespace Sys2Proof.Machine

/-! ### The STATUS word -/

/-- Settles O25: the fields of the word do not overlap, and the numbers are those of the tables. -/
theorem statusWordLayout : Obligations.StatusWordLayout := by
  refine ⟨fun p e => ?_, by decide, by decide⟩
  have hp := (phaseCode p).isLt
  unfold statusWord
  rw [BitVec.toNat_append, BitVec.toNat_append, ← Nat.shiftLeft_add_eq_or_of_lt (by omega),
    ← Nat.shiftLeft_add_eq_or_of_lt (by decide), Nat.shiftLeft_eq, Nat.shiftLeft_eq, BitVec.toNat_ofNat]
  omega

/-! ### Which writes start an operation -/

/-- Replacing an element by itself changes nothing. -/
theorem set_self_of_getElem? {α : Type} {l : List α} {k : Nat} {a : α} (h : l[k]? = some a) : l.set k a = l := by
  obtain ⟨hk, rfl⟩ := List.getElem?_eq_some_iff.1 h
  exact List.set_getElem_self hk

theorem startsOperation_iff (phase : Phase) (reg value : Nat) :
    startsOperation phase reg value = true ↔ reg = 0 ∧ value % 2 = 1 ∧ phase ≠ .busy := by
  simp [startsOperation, startBit, and_assoc]

/-- A write to another register than CTRL starts nothing. -/
theorem startsOperation_of_ne {reg : Nat} (h : reg ≠ 0) (phase : Phase) (value : Nat) :
    startsOperation phase reg value = false := by simp [startsOperation, h]

/-- A write of CTRL with bit 0 clear, or in BUSY, starts nothing (10_state.md R49, R54, R63). -/
theorem startsOperation_ignored {phase : Phase} {value : Nat} (h : value % 2 = 0 ∨ phase = .busy) :
    startsOperation phase 0 value = false := by
  rw [← Bool.not_eq_true, startsOperation_iff]
  rintro ⟨-, hbit, hidle⟩
  obtain h | h := h
  · omega
  · exact hidle h

/-! ### Writes -/

/-- A register write of an encoder that starts nothing, or an encode whose output no BUSY decoder reads. -/
theorem step_writeEncReg {s : State} {k reg v : Nat} {e : Encoder}
    (hm : s.nextMove = some (.host (.writeEncReg k reg v))) (he : s.encs[k]? = some e)
    (hfree : (startsOperation e.phase reg v && s.streamInUse k) = false) :
    step s = .next (s.afterEnc k (e.writeReg s.cfg reg v)) := by
  have hfree' : (startsOperation e.phase reg v && State.streamInUse { s with agenda := s.agenda.tail } k) = false :=
    hfree
  rw [step_host hm]
  simp only [runHost, hostWriteEncReg, he, hfree']
  rfl

/-- START of an encoder whose output a BUSY decoder reads (notes/assumptions/14.md). -/
theorem step_writeEncReg_shared {s : State} {k reg v : Nat} {e : Encoder}
    (hm : s.nextMove = some (.host (.writeEncReg k reg v))) (he : s.encs[k]? = some e)
    (hshared : (startsOperation e.phase reg v && s.streamInUse k) = true) :
    step s = .next ((s.afterEnc k (e.writeReg s.cfg reg v)).openStreams k) := by
  have hshared' : (startsOperation e.phase reg v && State.streamInUse { s with agenda := s.agenda.tail } k) = true :=
    hshared
  rw [step_host hm]
  simp only [runHost, hostWriteEncReg, he, hshared']
  rfl

/-- A register write of a decoder that starts nothing, or a decode whose stream is ready. -/
theorem step_writeDecReg {s : State} {k reg v : Nat} {d : Decoder}
    (hm : s.nextMove = some (.host (.writeDecReg k reg v))) (hd : s.decs[k]? = some d)
    (hready : (startsOperation d.phase reg v && !s.streamReady d) = false) :
    step s = .next { s with agenda := s.agenda.tail, decs := s.decs.set k (d.writeReg s.cfg reg v) } := by
  have hready' : (startsOperation d.phase reg v && !State.streamReady { s with agenda := s.agenda.tail } d) = false :=
    hready
  rw [step_host hm]
  simp only [runHost, hostWriteDecReg, hd, hready']
  rfl

/-- START of a decoder whose stream is not ready (notes/assumptions/14.md). -/
theorem step_writeDecReg_open {s : State} {k reg v : Nat} {d : Decoder}
    (hm : s.nextMove = some (.host (.writeDecReg k reg v))) (hd : s.decs[k]? = some d)
    (hopen : (startsOperation d.phase reg v && !s.streamReady d) = true) :
    step s = .next { s with
      agenda := s.agenda.tail
      decs := s.decs.set k { d.writeReg s.cfg reg v with openStream := some s.draws }
      draws := s.draws + 1 } := by
  have hopen' : (startsOperation d.phase reg v && !State.streamReady { s with agenda := s.agenda.tail } d) = true :=
    hopen
  rw [step_host hm]
  simp only [runHost, hostWriteDecReg, hd, hopen']
  rfl

/-! ### START -/

/-- A write of ENC_CTRL that is not START changes nothing (10_state.md R49, R63). -/
theorem Encoder.writeReg_ignored {e : Encoder} {value : Nat} (h : value % 2 = 0 ∨ e.phase = .busy) (c : Config) :
    e.writeReg c 0 value = e := by
  show (if startBit value then e.start else e) = e
  split
  · next hbit => exact Encoder.start_busy (h.resolve_left (by simp [startBit] at hbit; omega))
  · rfl

/-- A write of DEC_CTRL that is not START changes nothing (10_state.md R54, R63). -/
theorem Decoder.writeReg_ignored {d : Decoder} {value : Nat} (h : value % 2 = 0 ∨ d.phase = .busy) (c : Config) :
    d.writeReg c 0 value = d := by
  show (if startBit value then d.start else d) = d
  split
  · next hbit => exact Decoder.start_busy (h.resolve_left (by simp [startBit] at hbit; omega))
  · rfl

/-- START (10_state.md R49). -/
theorem Encoder.writeReg_start {e : Encoder} {value : Nat} (hbit : value % 2 = 1) (hidle : e.phase ≠ .busy)
    (c : Config) :
    e.writeReg c 0 value = { e with
      w := e.regWidth, h := e.regHeight, ch := e.regChannels, cs := e.regColorspace, inLen := e.regInLen,
      err := .none, stage := .init, phase := .busy, outLen := 0, observed := false } := by
  rw [← Encoder.start_not_busy hidle]
  exact if_pos (by simpa [startBit] using hbit)

/-- START (10_state.md R54). -/
theorem Decoder.writeReg_start {d : Decoder} {value : Nat} (hbit : value % 2 = 1) (hidle : d.phase ≠ .busy)
    (c : Config) :
    d.writeReg c 0 value = { d with
      inLen := d.regInLen, err := .none, stage := .init, phase := .busy, outLen := 0, consumed := 0,
      observed := false, openStream := none } := by
  rw [← Decoder.start_not_busy hidle]
  exact if_pos (by simpa [startBit] using hbit)

/-- Settles O26, by whether a BUSY decoder reads the output. -/
theorem encoderStart : Obligations.EncoderStart := by
  intro s k v e hm he
  refine ⟨fun hbit hidle => ?_, fun hignored => ?_⟩
  · have hstarts : startsOperation e.phase 0 v = true := (startsOperation_iff _ _ _).2 ⟨rfl, hbit, hidle⟩
    cases hused : s.streamInUse k with
    | false =>
      refine ⟨s.decs, s.draws, ?_, fun _ => ⟨rfl, rfl⟩, rfl, fun j d d' hd hd' => ?_⟩
      · rw [step_writeEncReg hm he (by simp [hused]), Encoder.writeReg_start hbit hidle]
        rfl
      · obtain rfl : d = d' := Option.some.inj (hd.symm.trans hd')
        exact ⟨rfl, fun _ => rfl, fun hb hfrom =>
          absurd hb (State.streamInUse_eq_false.1 hused d (List.mem_of_getElem? hd) hfrom)⟩
    | true =>
      refine ⟨(s.openStreams k).decs, (s.openStreams k).draws, ?_, fun hnone => ?_, State.openStreams_length s k,
        fun j d d' hd hd' => ?_⟩
      · rw [step_writeEncReg_shared hm he (by simp [hstarts, hused]), Encoder.writeReg_start hbit hidle]
        rfl
      · obtain ⟨d, hd, hb, hfrom⟩ := State.streamInUse_eq_true.1 hused
        exact absurd hb (hnone d hd hfrom)
      · rw [State.openStreams_get, hd] at hd'
        obtain rfl := Option.some.inj hd'
        dsimp only
        split
        · next hreads => exact ⟨rfl, fun hnot => (not_and_or.2 hnot hreads).elim, fun _ _ _ _ => rfl⟩
        · next hreads => exact ⟨rfl, fun _ => rfl, fun hb hfrom => absurd ⟨hb, hfrom⟩ hreads⟩
  · rw [step_writeEncReg hm he (by simp [startsOperation_ignored hignored]), Encoder.writeReg_ignored hignored]

/-- DEC_IN is ready where every encoder it names was observed in DONE. -/
theorem State.streamReady_of_observed {s : State} {d : Decoder}
    (h : ∀ k, d.inputFrom = some k → s.observedDone k) : s.streamReady d = true := by
  cases hfrom : d.inputFrom with
  | none => exact State.streamReady_own hfrom
  | some k =>
    obtain ⟨e, he, hobserved⟩ := h k hfrom
    exact (State.streamReady_named hfrom he).2 hobserved

/-- DEC_IN is not ready where it names an encoder that was not observed in DONE. -/
theorem State.not_streamReady_of_unobserved {s : State} {d : Decoder} {k : Nat} {e : Encoder}
    (hfrom : d.inputFrom = some k) (he : s.encs[k]? = some e) (h : e.phase ≠ .done ∨ e.observed = false) :
    s.streamReady d = false := by
  rw [← Bool.not_eq_true, State.streamReady_named hfrom he]
  rintro ⟨hdone, hobserved⟩
  obtain h | h := h
  · exact h hdone
  · simp [hobserved] at h

/-- Settles O27, by whether the stream is ready. -/
theorem decoderStart : Obligations.DecoderStart := by
  intro s j v d hm hd
  refine ⟨fun hbit hidle => ?_, fun hignored => ?_⟩
  · have hstarts : startsOperation d.phase 0 v = true := (startsOperation_iff _ _ _).2 ⟨rfl, hbit, hidle⟩
    cases hready : s.streamReady d with
    | true =>
      refine ⟨d.writeReg s.cfg 0 v, s.draws, ?_, ?_, fun _ => ⟨?_, rfl⟩, fun k e hfrom he hun => ?_⟩
      · exact step_writeDecReg hm hd (by simp [hready])
      · rw [Decoder.writeReg_start hbit hidle]
      · rw [Decoder.writeReg_start hbit hidle, State.decStream_settled rfl]
        exact State.decInput_congr rfl rfl rfl
      · rw [State.not_streamReady_of_unobserved hfrom he hun] at hready
        cases hready
    | false =>
      refine ⟨{ d.writeReg s.cfg 0 v with openStream := some s.draws }, s.draws + 1, ?_, ?_, fun hobs => ?_,
        fun _ _ _ _ _ _ _ => rfl⟩
      · exact step_writeDecReg_open hm hd (by simp [hstarts, hready])
      · rw [Decoder.writeReg_start hbit hidle]
      · rw [State.streamReady_of_observed hobs] at hready
        cases hready
  · rw [step_writeDecReg hm hd (by simp [startsOperation_ignored hignored]), Decoder.writeReg_ignored hignored,
      set_self_of_getElem? hd]

/-! ### Writes of other registers -/

/-- A write to a register other than ENC_CTRL is read back in no other register. -/
theorem Encoder.readReg_writeReg_ne {reg j : Nat} (hreg : reg ≠ 0) (hne : j ≠ reg) (c : Config) (e : Encoder)
    (v : Nat) :
    (e.writeReg c reg v).readReg j = e.readReg j := by
  unfold Encoder.writeReg
  split
  · exact absurd rfl hreg
  all_goals
    unfold Encoder.readReg
    split <;> simp_all

/-- Settles O28, clause by clause, from what a write to one register leaves. -/
theorem encoderRegisterWrite : Obligations.EncoderRegisterWrite := by
  intro s k reg v e hm he hreg
  refine ⟨_, step_writeEncReg hm he (by rw [startsOperation_of_ne hreg, Bool.false_and]),
    fun j hne => Encoder.readReg_writeReg_ne hreg hne _ _ _, ?_, ?_, ?_, ?_, ?_⟩
  · rintro (rfl | rfl) hv <;> exact congrArg some (Nat.mod_eq_of_lt hv)
  · rintro (rfl | rfl) hv <;> exact congrArg some (Nat.mod_eq_of_lt hv)
  · rintro rfl hv
    simp [Encoder.writeReg, Encoder.readReg, lengthRegister_of_fits hv]
  · intro hro
    unfold Encoder.writeReg
    split <;> simp_all
  · obtain ⟨hctrl, -⟩ | ⟨w, h, ch, cs, len, hw⟩ := e.writeReg_cases s.cfg reg v
    · exact absurd hctrl hreg
    · rw [hw]

/-- A write to a register other than DEC_CTRL and DEC_IN_LEN changes nothing (10_state.md R57). -/
theorem Decoder.writeReg_readOnly {reg : Nat} (hreg : reg ≠ 0) (hlen : reg ≠ 2) (c : Config) (d : Decoder) (v : Nat) :
    d.writeReg c reg v = d := by
  unfold Decoder.writeReg
  split
  · exact absurd rfl hreg
  · exact absurd rfl hlen
  · rfl

/-- Settles O29: DEC_IN_LEN alone is stored. -/
theorem decoderRegisterWrite : Obligations.DecoderRegisterWrite := by
  intro s k reg v d hm hd hreg
  refine ⟨_, step_writeDecReg hm hd (by rw [startsOperation_of_ne hreg, Bool.false_and]), ?_,
    fun hlen => Decoder.writeReg_readOnly hreg hlen _ _ _, ?_⟩
  · rintro rfl hv
    simp [Decoder.writeReg, Decoder.readReg, lengthRegister_of_fits hv]
  · obtain ⟨hctrl, -⟩ | ⟨len, hw⟩ := d.writeReg_cases s.cfg reg v
    · exact absurd hctrl hreg
    · rw [hw]

/-! ### Reads -/

theorem step_readEncReg {s : State} {k reg : Nat} {e : Encoder} (hm : s.nextMove = some (.host (.readEncReg k reg)))
    (he : s.encs[k]? = some e) :
    step s = .next ((s.afterEnc k (if reg = 1 then e.observe else e)).deliverData none (e.readReg reg)) := by
  rw [step_host hm]
  simp only [runHost, hostReadEncReg, he]
  rfl

theorem step_readDecReg {s : State} {k reg : Nat} {d : Decoder} (hm : s.nextMove = some (.host (.readDecReg k reg)))
    (hd : s.decs[k]? = some d) :
    step s = .next (State.deliverData
      { s with agenda := s.agenda.tail, decs := s.decs.set k (if reg = 1 then d.observe else d) }
      (Decoder.drawWidth reg) (d.readReg reg)) := by
  rw [step_host hm]
  simp only [runHost, hostReadDecReg, hd]
  rfl

/-- The registers of an encoder by number (10_state.md R48). -/
theorem Encoder.readReg_table (e : Encoder) {reg : Nat} (h : reg ≤ 7) :
    e.readReg reg = some ([0, (statusWord e.phase e.err).toNat, e.regWidth.toNat, e.regHeight.toNat,
      e.regChannels.toNat, e.regColorspace.toNat, e.regInLen, e.outLen].getD reg 0) := by
  interval_cases reg <;> rfl

/-- The registers of a decoder by number (10_state.md R53); the result registers only in DONE (R61). -/
theorem Decoder.readReg_table (d : Decoder) {reg : Nat} (h : reg ≤ 8) (hshown : d.phase = .done ∨ reg ≤ 2 ∨ 7 ≤ reg) :
    d.readReg reg = some ([0, (statusWord d.phase d.err).toNat, d.regInLen, d.outWidth.toNat, d.outHeight.toNat,
      d.outChannels.toNat, d.outColorspace.toNat, d.outLen, d.consumed].getD reg 0) := by
  by_cases hresult : 3 ≤ reg ∧ reg ≤ 6
  · have hdone : d.phase = .done := hshown.resolve_right (by omega)
    obtain ⟨hlo, hhi⟩ := hresult
    interval_cases reg <;> exact if_pos hdone
  · obtain hlo | hhi : reg ≤ 2 ∨ 7 ≤ reg := by omega
    · interval_cases reg <;> rfl
    · interval_cases reg <;> rfl

/-- What a register read leaves of an encoder: a read of ENC_STATUS in DONE is the observation (20_memory.md R82). -/
theorem Encoder.observe_ite (e : Encoder) (reg : Nat) :
    (if reg = 1 then e.observe else e) =
      { e with observed := e.observed || decide (reg = 1 ∧ e.phase = .done) } := by
  by_cases hreg : reg = 1
  · simp [hreg, Encoder.observe_eq]
  · simp [hreg]

/-- What a register read leaves of a decoder: a read of DEC_STATUS in DONE is the observation (20_memory.md R82). -/
theorem Decoder.observe_ite (d : Decoder) (reg : Nat) :
    (if reg = 1 then d.observe else d) =
      { d with observed := d.observed || decide (reg = 1 ∧ d.phase = .done) } := by
  by_cases hreg : reg = 1
  · simp [hreg, Decoder.observe_eq]
  · simp [hreg]

/-- Settles O31: a read delivers the table's entry. -/
theorem registerReads : Obligations.RegisterReads := by
  refine ⟨fun s k reg e hm he hreg => ?_, fun s k reg d hm hd hreg hshown => ?_⟩
  · rw [step_readEncReg hm he, e.readReg_table hreg, e.observe_ite]
    rfl
  · rw [step_readDecReg hm hd, d.readReg_table hreg hshown, d.observe_ite]
    rfl

/-- Settles O32: a reserved register has no value, so a free one is drawn. -/
theorem reservedReadsAreFree : Obligations.ReservedReadsAreFree := by
  refine ⟨fun s k reg e hm he hreg => ?_, fun s k reg d hm hd hreg => ?_⟩
  · obtain ⟨n, rfl⟩ := Nat.exists_eq_add_of_le' hreg
    have hnone : e.readReg (n + 8) = none := rfl
    rw [step_readEncReg hm he, hnone, if_neg (by omega), State.afterEnc, set_self_of_getElem? he]
    rfl
  · obtain ⟨n, rfl⟩ := Nat.exists_eq_add_of_le' hreg
    have hnone : d.readReg (n + 9) = none := rfl
    have hwidth : Decoder.drawWidth (n + 9) = none := rfl
    rw [step_readDecReg hm hd, hnone, hwidth, if_neg (by omega), set_self_of_getElem? hd]
    rfl

end Sys2Proof.Machine
end

section
/-! PROOFS. Register writes beside a running operation (10_state.md R62; 70_reset_and_hazards.md R287), reads outside
DONE (R61), RESET and power-on (R60), and what an engine's turn leaves alone (R30, R31). -/

namespace Sys2Proof.Machine

/-! ### The step of an engine by PHASE and stage (10_state.md R31, R38, R46) -/

section Steps
variable {c : Config} {m : Memory} {e : Encoder} {d : Decoder}

theorem Encoder.step_idle (hb : e.phase ≠ .busy) : e.step c = e := if_neg hb

theorem Encoder.step_init (hb : e.phase = .busy) (hs : e.stage = .init) : e.step c = e.initStep c := by
  simp [Encoder.step, hb, hs]

theorem Encoder.step_pixel (h : e.atPixel) : e.step c = e.pixelStep c := by
  obtain ⟨hb, hs, hpix⟩ := h
  simp [Encoder.step, hb, hs, hpix]

theorem Encoder.step_final (hb : e.phase = .busy) (hs : e.stage = .body) (hpix : ¬e.pix < e.n) :
    e.step c = e.finalStep c := by
  simp [Encoder.step, hb, hs, hpix]

theorem Decoder.step_idle (hb : d.phase ≠ .busy) : d.step c m = d := if_neg hb

theorem Decoder.step_init (hb : d.phase = .busy) (hs : d.stage = .init) : d.step c m = d.initStep c m := by
  simp [Decoder.step, hb, hs]

theorem Decoder.step_pixel (h : d.atPixel) : d.step c m = d.pixelStep c m := by
  obtain ⟨hb, hs, hpix⟩ := h
  simp [Decoder.step, hb, hs, hpix]

theorem Decoder.step_final (hb : d.phase = .busy) (hs : d.stage = .body) (hpix : ¬d.pix < d.n) :
    d.step c m = d.finalStep c m := by
  simp [Decoder.step, hb, hs, hpix]

end Steps

/-! ### A register write and a step commute -/

/-- The encoder with its request registers changed, each as a function of what it held. -/
def Encoder.mapRegs (fw fh : Word32 → Word32) (fch fcs : Byte → Byte) (flen : Nat → Nat) (e : Encoder) : Encoder :=
  { e with
    regWidth := fw e.regWidth, regHeight := fh e.regHeight, regChannels := fch e.regChannels,
    regColorspace := fcs e.regColorspace, regInLen := flen e.regInLen }

/-- A write to another register than ENC_CTRL changes the request registers alone, whatever else the encoder holds. -/
theorem Encoder.writeReg_eq_mapRegs {reg : Nat} (hreg : reg ≠ 0) (c : Config) (value : Nat) :
    ∃ fw fh fch fcs flen, ∀ e : Encoder, e.writeReg c reg value = e.mapRegs fw fh fch fcs flen := by
  match reg, hreg with
  | 2, _ => exact ⟨fun _ => _, id, id, id, id, fun _ => rfl⟩
  | 3, _ => exact ⟨id, fun _ => _, id, id, id, fun _ => rfl⟩
  | 4, _ => exact ⟨id, id, fun _ => _, id, id, fun _ => rfl⟩
  | 5, _ => exact ⟨id, id, id, fun _ => _, id, fun _ => rfl⟩
  | 6, _ => exact ⟨id, id, id, id, fun _ => _, fun _ => rfl⟩
  | 1, _ | _ + 7, _ => exact ⟨id, id, id, id, id, fun _ => rfl⟩

section MapRegs
variable (fw fh : Word32 → Word32) (fch fcs : Byte → Byte) (flen : Nat → Nat) (c : Config) (e : Encoder)

theorem Encoder.initStep_mapRegs :
    (e.mapRegs fw fh fch fcs flen).initStep c = (e.initStep c).mapRegs fw fh fch fcs flen := by
  simp only [Encoder.initStep, apply_ite (Encoder.mapRegs fw fh fch fcs flen)]
  rfl

theorem Encoder.runFlush_mapRegs :
    (e.mapRegs fw fh fch fcs flen).runFlush c = (e.runFlush c).mapRegs fw fh fch fcs flen := by
  simp only [Encoder.runFlush, apply_ite (Encoder.mapRegs fw fh fch fcs flen)]
  rfl

theorem Encoder.runContinue_mapRegs (px : Pixel) :
    (e.mapRegs fw fh fch fcs flen).runContinue c px = (e.runContinue c px).mapRegs fw fh fch fcs flen := by
  by_cases hrun : e.run + 1 = 62
  · simp only [Encoder.runContinue, Encoder.mapRegs, hrun, if_true]
    cases c.encCacheOnRun <;> rfl
  · simp only [Encoder.runContinue, Encoder.mapRegs, hrun, if_false]
    cases c.encCacheOnRun <;> rfl

theorem Encoder.pixelStep_mapRegs :
    (e.mapRegs fw fh fch fcs flen).pixelStep c = (e.pixelStep c).mapRegs fw fh fch fcs flen := by
  have hread : (e.mapRegs fw fh fch fcs flen).readPixel e.pix = e.readPixel e.pix := rfl
  have hencode : ∀ px, (e.mapRegs fw fh fch fcs flen).encodePixel c px =
      (e.encodePixel c px).mapRegs fw fh fch fcs flen := fun px => by
    simp only [Encoder.encodePixel, apply_ite (Encoder.mapRegs fw fh fch fcs flen), Encoder.runContinue_mapRegs,
      Encoder.runFlush_mapRegs]
    rfl
  simp only [Encoder.pixelStep, hencode]
  rfl

/-- No step reads or writes the request registers (10_state.md R62). -/
theorem Encoder.step_mapRegs :
    (e.mapRegs fw fh fch fcs flen).step c = (e.step c).mapRegs fw fh fch fcs flen := by
  have hfinal : (e.mapRegs fw fh fch fcs flen).finalStep c = (e.finalStep c).mapRegs fw fh fch fcs flen := by
    simp only [Encoder.finalStep, Encoder.runFlush_mapRegs]
    rfl
  by_cases hb : e.phase = .busy
  · cases hs : e.stage with
    | init =>
      rw [Encoder.step_init hb hs, Encoder.step_init (e := e.mapRegs fw fh fch fcs flen) hb hs,
        Encoder.initStep_mapRegs]
    | body =>
      by_cases hpix : e.pix < e.n
      · rw [Encoder.step_pixel ⟨hb, hs, hpix⟩, Encoder.step_pixel (e := e.mapRegs fw fh fch fcs flen) ⟨hb, hs, hpix⟩,
          Encoder.pixelStep_mapRegs]
      · rw [Encoder.step_final hb hs hpix, Encoder.step_final (e := e.mapRegs fw fh fch fcs flen) hb hs hpix, hfinal]
  · rw [Encoder.step_idle hb, Encoder.step_idle (e := e.mapRegs fw fh fch fcs flen) hb]

end MapRegs

/-- A register write other than START commutes with a step of the encoder. -/
theorem Encoder.writeReg_step_comm {reg : Nat} (hreg : reg ≠ 0) (c : Config) (e : Encoder) (value : Nat) :
    (e.writeReg c reg value).step c = (e.step c).writeReg c reg value := by
  obtain ⟨fw, fh, fch, fcs, flen, hw⟩ := Encoder.writeReg_eq_mapRegs hreg c value
  rw [hw, hw, Encoder.step_mapRegs]

/-- The decoder with another DEC_IN_LEN. -/
def Decoder.withInLen (len : Nat) (d : Decoder) : Decoder := { d with regInLen := len }

/-- A write to another register than DEC_CTRL changes DEC_IN_LEN, or nothing, whatever else the decoder holds. -/
theorem Decoder.writeReg_eq_withInLen {reg : Nat} (hreg : reg ≠ 0) (c : Config) (value : Nat) :
    (∃ len, ∀ d : Decoder, d.writeReg c reg value = d.withInLen len) ∨ ∀ d : Decoder, d.writeReg c reg value = d := by
  by_cases hlen : reg = 2
  · subst hlen
    exact .inl ⟨_, fun _ => rfl⟩
  · exact .inr fun d => Decoder.writeReg_readOnly hreg hlen c d value

/-- No step reads or writes DEC_IN_LEN (10_state.md R56, R62). -/
theorem Decoder.step_withInLen (len : Nat) (c : Config) (m : Memory) (d : Decoder) :
    (d.withInLen len).step c m = (d.step c m).withInLen len := by
  have hinit : (d.withInLen len).initStep c m = (d.initStep c m).withInLen len := by
    simp only [Decoder.initStep, apply_ite (Decoder.withInLen len)]
    rfl
  have hexec : ∀ n i, Decoder.execChunk { d.withInLen len with pos := n } i =
      (Decoder.execChunk { d with pos := n } i).withInLen len := fun n i => by
    rw [Decoder.execChunk_eq, Decoder.execChunk_eq]
    rfl
  have hfinal : (d.withInLen len).finalStep c m = (d.finalStep c m).withInLen len := by
    simp only [Decoder.finalStep, apply_ite (Decoder.withInLen len)]
    rfl
  have hfetch : (d.withInLen len).fetchChunk c m = d.fetchChunk c m := rfl
  have hpixel : (d.withInLen len).pixelStep c m = (d.pixelStep c m).withInLen len := by
    simp only [Decoder.pixelStep, apply_ite (Decoder.withInLen len), hfetch]
    cases d.fetchChunk c m with
    | none => rfl
    | some il =>
      dsimp only
      rw [← hexec]
      rfl
  by_cases hb : d.phase = .busy
  · cases hs : d.stage with
    | init => rw [Decoder.step_init hb hs, Decoder.step_init (d := d.withInLen len) hb hs, hinit]
    | body =>
      by_cases hpix : d.pix < d.n
      · rw [Decoder.step_pixel ⟨hb, hs, hpix⟩, Decoder.step_pixel (d := d.withInLen len) ⟨hb, hs, hpix⟩, hpixel]
      · rw [Decoder.step_final hb hs hpix, Decoder.step_final (d := d.withInLen len) hb hs hpix, hfinal]
  · rw [Decoder.step_idle hb, Decoder.step_idle (d := d.withInLen len) hb]

/-- A register write other than START commutes with a step of the decoder. -/
theorem Decoder.writeReg_step_comm {reg : Nat} (hreg : reg ≠ 0) (c : Config) (m : Memory) (d : Decoder) (value : Nat) :
    (d.writeReg c reg value).step c m = (d.step c m).writeReg c reg value := by
  obtain ⟨len, hw⟩ | hw := Decoder.writeReg_eq_withInLen hreg c value
  · rw [hw, hw, Decoder.step_withInLen]
  · rw [hw, hw]

/-- A register write other than START leaves the stream that a decode reads. -/
theorem Decoder.writeReg_sameStream {reg : Nat} (hreg : reg ≠ 0) (c : Config) (d : Decoder) (value : Nat) :
    d.SameStream (d.writeReg c reg value) := by
  obtain ⟨len, hw⟩ | hw := Decoder.writeReg_eq_withInLen hreg c value <;> rw [hw] <;> exact ⟨rfl, rfl, rfl, rfl⟩

/-- A run of two steps. -/
theorem runSteps_two {s t u : State} (hs : step s = .next t) (ht : step t = .next u) : runSteps 2 s = .next u := by
  rw [runSteps_succ hs, runSteps_succ ht]
  rfl

/-- Settles O30: in both orders the engine ends after the write and the step, which commute. -/
theorem registerWriteCommutesWithStep : Obligations.RegisterWriteCommutesWithStep := by
  refine ⟨fun s k reg v e he hreg => ?_, fun s k reg v d hd hreg => ?_⟩
  · have hfree : ∀ phase used, (startsOperation phase reg v && used) = false := fun phase used => by
      rw [startsOperation_of_ne hreg, Bool.false_and]
    rw [runSteps_two (s := { s with agenda := [.host (.writeEncReg k reg v), .enc k] })
        (step_writeEncReg rfl he (hfree _ _)) (step_enc rfl (State.setEnc_get he _)),
      runSteps_two (s := { s with agenda := [.enc k, .host (.writeEncReg k reg v)] })
        (step_enc rfl he) (step_writeEncReg rfl (State.setEnc_get he _) (hfree _ _))]
    simp only [State.afterEnc, List.set_set, Encoder.writeReg_step_comm hreg]
    rfl
  · have hready : ∀ phase ready, (startsOperation phase reg v && ready) = false := fun phase ready => by
      rw [startsOperation_of_ne hreg, Bool.false_and]
    rw [runSteps_two (s := { s with agenda := [.host (.writeDecReg k reg v), .dec k] })
        (step_writeDecReg rfl hd (hready _ _)) (step_dec rfl (State.setDec_get hd _)),
      runSteps_two (s := { s with agenda := [.dec k, .host (.writeDecReg k reg v)] })
        (step_dec rfl hd) (step_writeDecReg rfl (State.setDec_get hd _) (hready _ _))]
    simp only [List.set_set, Decoder.writeReg_step_comm hreg]
    exact congrArg
      (fun stream => Host.Outcome.next { s with
        agenda := [], cur := k, decs := s.decs.set k ((d.step s.cfg stream).writeReg s.cfg reg v) })
      ((Decoder.writeReg_sameStream hreg s.cfg d v).decStream_eq rfl)

/-! ### Reads outside DONE -/

/-- A host move is on the agenda: no agent but the host makes it. -/
theorem State.agenda_of_host {s : State} {a : HostAction} (hm : s.nextMove = some (.host a)) :
    ∃ rest, s.agenda = .host a :: rest := by
  unfold State.nextMove at hm
  split at hm
  · next m rest hagenda => exact ⟨rest, by rw [hagenda, Option.some.inj hm]⟩
  · unfold State.idleMove at hm
    split at hm
    · cases hm
    · split at hm <;> cases hm

/-- Another state of a decoder leaves the host's turn. -/
theorem State.setDec_nextMove {s : State} {a : HostAction} (hm : s.nextMove = some (.host a)) (k : Nat) (d : Decoder) :
    (s.setDec k d).nextMove = some (.host a) := by
  obtain ⟨rest, hagenda⟩ := State.agenda_of_host hm
  unfold State.nextMove
  rw [State.setDec_agenda, hagenda]

/-- Outside DONE a read of a result register draws a value of its width (10_state.md R61). -/
theorem step_readDecReg_early {s : State} {k reg : Nat} {d : Decoder}
    (hm : s.nextMove = some (.host (.readDecReg k reg))) (hd : s.decs[k]? = some d) (hnot : d.phase ≠ .done)
    (hlo : 3 ≤ reg) (hhi : reg ≤ 6) :
    step s = .next { s with
      agenda := s.agenda.tail
      readData := Config.freeNat s.draws % 2 ^ (if reg ≤ 4 then 32 else 8), draws := s.draws + 1 } := by
  have hdraw : d.readReg reg = none ∧ Decoder.drawWidth reg = some (if reg ≤ 4 then 32 else 8) := by
    interval_cases reg <;> exact ⟨if_neg hnot, rfl⟩
  rw [step_readDecReg hm hd, hdraw.1, hdraw.2, if_neg (by omega), set_self_of_getElem? hd]
  rfl

/-- Settles O33: the value drawn depends on the register's number and the draw counter alone. -/
theorem earlyResultReadLearnsNothing : Obligations.EarlyResultReadLearnsNothing := by
  intro s k reg d w h ch cs hm hd hnot hlo hhi
  refine ⟨_, _, step_readDecReg_early hm hd hnot hlo hhi,
    step_readDecReg_early (State.setDec_nextMove hm _ _) (State.setDec_get hd _) hnot hlo hhi, rfl, rfl, fun hw => ?_,
    fun hb => ?_, rfl⟩
  · rw [if_pos hw]
    exact Nat.mod_lt _ (by decide)
  · rw [if_neg (by omega)]
    exact Nat.mod_lt _ (by decide)

/-! ### RESET and power-on -/

/-- Settles O41: every engine is in its power-on state but for its buffers. -/
theorem resetInput : Obligations.ResetInput := by
  intro s hm
  refine ⟨_, step_host hm, rfl, List.length_map _, List.length_map _, fun e he => ?_, fun d hd => ?_⟩
  · obtain ⟨e, -, rfl⟩ := List.mem_map.1 he
    exact ⟨rfl, rfl, rfl, rfl, rfl⟩
  · obtain ⟨d, -, rfl⟩ := List.mem_map.1 hd
    exact ⟨rfl, rfl, rfl, rfl, rfl, rfl, rfl⟩

/-- Settles O48: every engine is in its power-on state. -/
theorem powerOnMeetsInvariants : Obligations.PowerOnMeetsInvariants := by
  intro c
  have enc : ∀ P : Encoder → Prop, P Encoder.powerOn → ∀ e ∈ (State.resetWith c).encs, P e :=
    fun P hP e he => State.resetWith_enc he ▸ hP
  have dec : ∀ P : Decoder → Prop, P Decoder.powerOn → ∀ d ∈ (State.resetWith c).decs, P d :=
    fun P hP d hd => State.resetWith_dec hd ▸ hP
  exact ⟨⟨enc _ ⟨rfl, rfl⟩, dec _ ⟨rfl, rfl⟩⟩,
    ⟨enc _ fun i => .inl (cacheRead_zero i), dec _ fun i => .inl (cacheRead_zero i)⟩,
    ⟨enc _ ⟨by decide, fun _ => ⟨rfl, rfl⟩⟩, dec _ ⟨by decide, fun _ => ⟨rfl, rfl, rfl⟩⟩⟩,
    ⟨enc _ ⟨nofun, nofun⟩, dec _ ⟨nofun, nofun⟩⟩, dec _ nofun⟩

/-! ### What an engine's turn leaves alone -/

/-- Settles O52: an engine's step is a function of the engine, the parameters and, for a decoder, the stream. -/
theorem enginesAreIsolated : Obligations.EnginesAreIsolated := by
  refine ⟨fun s s' k e ⟨hm, he⟩ ⟨hm', he'⟩ hcfg => ?_, fun s s' k d ⟨hm, hd⟩ ⟨hm', hd'⟩ hcfg hstream => ?_⟩
  · refine ⟨_, _, step_enc hm he, step_enc hm' he', ?_, rfl, fun j hj => List.getElem?_set_ne hj.symm⟩
    rw [← hcfg]
    exact (State.setEnc_get he _).trans (State.setEnc_get he' _).symm
  · refine ⟨_, _, step_dec hm hd, step_dec hm' hd', ?_, rfl, fun j hj => List.getElem?_set_ne hj.symm⟩
    rw [← hcfg, ← hstream]
    exact (State.setDec_get hd _).trans (State.setDec_get hd' _).symm

/-- With no agenda and no BUSY engine there is no move to make. -/
theorem State.nextMove_of_rest {s : State} (hagenda : s.agenda = []) (hencs : ∀ e ∈ s.encs, e.phase ≠ .busy)
    (hdecs : ∀ d ∈ s.decs, d.phase ≠ .busy) : s.nextMove = none := by
  have henc : s.encs.findIdx? (fun e => decide (e.phase = .busy)) = none :=
    List.findIdx?_eq_none_iff.2 fun e he => decide_eq_false (hencs e he)
  have hdec : s.decs.findIdx? (fun d => decide (d.phase = .busy)) = none :=
    List.findIdx?_eq_none_iff.2 fun d hd => decide_eq_false (hdecs d hd)
  simp [State.nextMove, State.idleMove, hagenda, henc, hdec]

/-- Settles O53: the step of an engine that is not BUSY is the identity. -/
theorem quiescentOutsideBusy : Obligations.QuiescentOutsideBusy := by
  refine ⟨fun s k e ⟨hm, he⟩ hidle => ?_, fun s k d ⟨hm, hd⟩ hidle => ?_, fun s hagenda hencs hdecs => ?_⟩
  · rw [step_enc hm he, Encoder.step_idle hidle]
    rfl
  · rw [step_dec hm hd, Decoder.step_idle hidle]
    rfl
  · exact step_of_nextMove_none (State.nextMove_of_rest hagenda hencs hdecs)

end Sys2Proof.Machine
end

section
/-! PROOFS. Shared memories (20_memory.md R82, R85, R86): what one step does to the stream that a decoder reads, and
from it that a BUSY engine's input stays as it is. -/

namespace Sys2Proof.Machine

/-! ### What a step leaves of an observed output -/

/-- Where DONE was observed on `e` it still is on `e'`, and ENC_OUT holds the same bytes. -/
def Encoder.KeepsOutput (e e' : Encoder) : Prop :=
  e.phase = .done → e.observed = true → e'.phase = .done ∧ e'.observed = true ∧ e'.output = e.output

theorem Encoder.KeepsOutput.refl (e : Encoder) : e.KeepsOutput e := fun hdone hobs => ⟨hdone, hobs, rfl⟩

/-- `KeepsOutput` for encoder `k` of two states. -/
def State.KeepsOutput (s t : State) (k : Nat) : Prop :=
  ∀ e, s.encs[k]? = some e → ∃ e', t.encs[k]? = some e' ∧ e.KeepsOutput e'

theorem State.KeepsOutput.of_encs_eq {s t : State} (h : t.encs = s.encs) (k : Nat) : s.KeepsOutput t k :=
  fun e he => ⟨e, h ▸ he, .refl e⟩

/-- Another state of encoder `j` leaves the outputs of the others. -/
theorem State.KeepsOutput.of_encs_set {s t : State} {j k : Nat} {old new : Encoder} (hold : s.encs[j]? = some old)
    (ht : t.encs = s.encs.set j new) (h : j = k → old.KeepsOutput new) : s.KeepsOutput t k := by
  intro e he
  rw [ht]
  by_cases hjk : j = k
  · subst hjk
    obtain rfl : old = e := Option.some.inj (hold.symm.trans he)
    exact ⟨new, State.setEnc_get hold new, h rfl⟩
  · exact ⟨e, by rw [List.getElem?_set_ne hjk, he], .refl e⟩

/-- What was observed on an encoder still is. -/
theorem State.KeepsOutput.observedDone {s t : State} {k : Nat} (h : s.KeepsOutput t k) (hobs : s.observedDone k) :
    t.observedDone k := by
  obtain ⟨e, he, hdone, hobserved⟩ := hobs
  obtain ⟨e', he', hkeeps⟩ := h e he
  obtain ⟨hdone', hobserved', -⟩ := hkeeps hdone hobserved
  exact ⟨e', he', hdone', hobserved'⟩

/-- A BUSY decoder whose DEC_IN names encoder `k` uses its output. -/
theorem State.streamInUse_of_reader {s : State} {d : Decoder} {k : Nat} (hd : d ∈ s.decs) (hb : d.phase = .busy)
    (hfrom : d.inputFrom = some k) : s.streamInUse k = true := State.streamInUse_eq_true.2 ⟨d, hd, hb, hfrom⟩

/-- A register write that does not start an encode keeps the output. -/
theorem Encoder.writeReg_keepsOutput {e : Encoder} {reg value : Nat} (c : Config)
    (h : startsOperation e.phase reg value = false) : e.KeepsOutput (e.writeReg c reg value) := by
  obtain ⟨hreg, hbit, hidle, -⟩ | ⟨w, ht, ch, cs, len, hw⟩ := e.writeReg_cases c reg value
  · rw [(startsOperation_iff _ _ _).2 ⟨hreg, hbit, hidle⟩] at h
    cases h
  · rw [hw]
    exact .refl e

/-- An engine's turn keeps every observed output: an encoder in DONE does nothing (10_state.md R31). -/
theorem Encoder.step_keepsOutput (c : Config) (e : Encoder) : e.KeepsOutput (e.step c) := by
  intro hdone hobs
  rw [Encoder.step_idle (by simp [hdone])]
  exact ⟨hdone, hobs, rfl⟩

/-! ### What a step does to the stream of a decoder -/

/-- What a step from `s` to `t`, whose move is `m`, can do to the stream that decoder `d` reads: it stays, with the
output that DEC_IN names; the decoder is not BUSY afterwards; a decode starts, on what is ready or on an open stream; or
the encoder whose output is read is started, which opens the stream (notes/assumptions/14.md). -/
inductive Decoder.StreamEvent (m : Option Move) (s t : State) (d : Decoder) : Decoder → Prop where
  | keeps {d' : Decoder} (same : d.SameStream d') (busy : d'.phase = .busy → d.phase = .busy)
      (outputs : d.phase = .busy → ∀ k, d.inputFrom = some k → s.KeepsOutput t k) : StreamEvent m s t d d'
  | rests {d' : Decoder} (idle : d'.phase ≠ .busy)
      (names : ∀ k, d'.inputFrom = some k → d.inputFrom = some k ∨ k < s.encs.length) : StreamEvent m s t d d'
  | starts {d' : Decoder} (idle : d.phase ≠ .busy) (names : d'.inputFrom = d.inputFrom) (encs : t.encs = s.encs)
      (ready : d'.openStream = none → s.streamReady d = true) : StreamEvent m s t d d'
  | opens {k value n : Nat} (names : d.inputFrom = some k) (start : value % 2 = 1)
      (turn : m = some (.host (.writeEncReg k 0 value))) : StreamEvent m s t d { d with openStream := some n }

/-- A decoder that a step leaves as it was, with the output it reads. -/
theorem Decoder.StreamEvent.stays {m : Option Move} {s t : State} {k : Nat} {d d' : Decoder}
    (outputs : d.phase = .busy → ∀ k, d.inputFrom = some k → s.KeepsOutput t k)
    (hd : s.decs[k]? = some d) (hd' : s.decs[k]? = some d') : Decoder.StreamEvent m s t d d' := by
  obtain rfl := Option.some.inj (hd.symm.trans hd')
  exact .keeps ⟨rfl, rfl, rfl, rfl⟩ id outputs

/-- Replacing decoder `j` by its state after an event is an event of every decoder. -/
theorem Decoder.StreamEvent.of_decs_set {m : Option Move} {s t : State} {j k : Nat} {old new d d' : Decoder}
    (hencs : t.encs = s.encs) (hold : s.decs[j]? = some old) (h : Decoder.StreamEvent m s t old new)
    (hd : s.decs[k]? = some d) (hd' : (s.decs.set j new)[k]? = some d') : Decoder.StreamEvent m s t d d' := by
  obtain ⟨rfl, rfl⟩ | ⟨-, rfl⟩ := getElem?_set_cases hd hd'
  · obtain rfl : old = d := Option.some.inj (hold.symm.trans hd)
    exact h
  · exact .keeps ⟨rfl, rfl, rfl, rfl⟩ id fun _ k _ => .of_encs_eq hencs k

/-- A register write of a decoder leaves its stream, or starts a decode. -/
theorem Decoder.StreamEvent.writeReg {m : Option Move} {s t : State} {reg value : Nat} {d : Decoder} (c : Config)
    (hencs : t.encs = s.encs) (hready : (startsOperation d.phase reg value && !s.streamReady d) = false) :
    Decoder.StreamEvent m s t d (d.writeReg c reg value) := by
  obtain ⟨hreg, hbit, hidle, hw⟩ | ⟨len, hw⟩ := d.writeReg_cases c reg value <;> rw [hw]
  · rw [(startsOperation_iff _ _ _).2 ⟨hreg, hbit, hidle⟩] at hready
    exact .starts hidle (by rw [Decoder.start_not_busy hidle]) hencs fun _ => by simpa using hready
  · exact .keeps ⟨rfl, rfl, rfl, rfl⟩ id fun _ k _ => .of_encs_eq hencs k

/-- A host move is an event of every decoder's stream. -/
theorem HostEffect.streamEvent {s t : State} {a : HostAction} {k : Nat} {d d' : Decoder} (h : HostEffect s a t)
    (hd : s.decs[k]? = some d) (hd' : t.decs[k]? = some d') :
    Decoder.StreamEvent (some (.host a)) s t d d' := by
  have inUse : ∀ j, d.phase = .busy → d.inputFrom = some j → s.streamInUse j = true := fun j hb hfrom =>
    State.streamInUse_of_reader (List.mem_of_getElem? hd) hb hfrom
  cases h with
  | reset =>
    simp only [State.assertReset, List.getElem?_map, hd, Option.map_some, Option.some.injEq] at hd'
    subst hd'
    exact .rests nofun nofun
  | writeEncReg hold free =>
    refine .stays (fun hb j hfrom => .of_encs_set hold rfl fun hjk => Encoder.writeReg_keepsOutput _ ?_) hd hd'
    subst hjk
    simpa [inUse _ hb hfrom] using free
  | startShared hold starts used =>
    obtain ⟨rfl, hbit, -⟩ := (startsOperation_iff _ _ _).1 starts
    rw [State.openStreams_get, State.setEnc_decs, hd] at hd'
    obtain rfl := Option.some.inj hd'
    dsimp only
    split
    · next hreads => exact .opens hreads.2 hbit rfl
    · next hreads =>
      exact .keeps ⟨rfl, rfl, rfl, rfl⟩ id fun hb j hfrom =>
        .of_encs_set hold rfl fun hjk => absurd ⟨hb, hjk ▸ hfrom⟩ hreads
  | startOpen hold starts unready =>
    refine .of_decs_set rfl hold ?_ hd hd'
    obtain ⟨rfl, hbit, hidle⟩ := (startsOperation_iff _ _ _).1 starts
    exact .starts hidle (by rw [Decoder.writeReg_start hbit hidle]) rfl nofun
  | writeDecReg hold ready => exact .of_decs_set rfl hold (.writeReg _ rfl ready) hd hd'
  | readEncReg data draws hold =>
    refine .stays (fun _ j _ => .of_encs_set hold rfl fun _ hdone hobs => ?_) hd hd'
    rw [Encoder.observe_ite]
    exact ⟨hdone, by simp [hobs], rfl⟩
  | readDecReg data draws hold =>
    refine .of_decs_set rfl hold ?_ hd hd'
    rw [Decoder.observe_ite]
    exact .keeps ⟨rfl, rfl, rfl, rfl⟩ id fun _ j _ => .of_encs_eq rfl j
  | readBuffer => exact .stays (fun _ j _ => .of_encs_eq rfl j) hd hd'
  | storeEncIn _ hold => exact .stays (fun _ j _ => .of_encs_set hold rfl fun _ => .refl _) hd hd'
  | storeEncOut _ hold _ free =>
    refine .stays (fun hb j hfrom => .of_encs_set hold rfl fun hjk => ?_) hd hd'
    subst hjk
    rw [inUse _ hb hfrom] at free
    cases free
  | storeDecIn _ hold idle | storeDecOut _ hold idle =>
    refine .of_decs_set rfl hold ?_ hd hd'
    exact .rests idle fun _ hfrom => .inl hfrom
  | nameInput hold idle hexists =>
    refine .of_decs_set rfl hold ?_ hd hd'
    exact .rests idle fun j hfrom => .inr (hexists j hfrom)

/-- A step of the machine is an event of every decoder's stream. -/
theorem step_streamEvent {s t : State} {k : Nat} {d d' : Decoder} (h : step s = .next t) (hd : s.decs[k]? = some d)
    (hd' : t.decs[k]? = some d') : Decoder.StreamEvent s.nextMove s t d d' := by
  obtain ⟨-, rfl⟩ | ⟨j, e, -, hold, rfl⟩ | ⟨j, old, -, hold, rfl⟩ | ⟨a, hm, hrun⟩ := step_cases h
  · exact .stays (fun _ j _ => .of_encs_eq rfl j) hd hd'
  · exact .stays (fun _ j _ => .of_encs_set hold rfl fun _ => Encoder.step_keepsOutput _ _) hd hd'
  · refine .of_decs_set rfl hold (.keeps (Decoder.step_frame _ _ _).1 (fun hb => ?_) fun _ j _ => .of_encs_eq rfl j)
      hd hd'
    obtain hsame | ⟨hb', -⟩ := Decoder.step_phase s.cfg (s.decStream old) old
    · exact hsame ▸ hb
    · exact hb'
  · rw [hm]
    cases (runHost_next hrun).streamEvent hd hd' with
    | keeps same busy outputs => exact .keeps same busy outputs
    | rests idle names => exact .rests idle names
    | starts idle names encs ready => exact .starts idle names encs ready
    | opens names start turn => exact .opens names start turn

/-! ### The invariant -/

/-- `State.sharedInv` for one decoder. -/
def State.sharedOk (s : State) (d : Decoder) : Prop :=
  ∀ k, d.inputFrom = some k → k < s.encs.length ∧ (d.phase = .busy → d.openStream = none → s.observedDone k)

/-- DEC_IN that names an encoder there is is ready only where DONE was observed on it. -/
theorem State.observedDone_of_streamReady {s : State} {d : Decoder} {k : Nat} (hfrom : d.inputFrom = some k)
    (hk : k < s.encs.length) (hready : s.streamReady d = true) : s.observedDone k := by
  have he := List.getElem?_eq_getElem hk
  exact ⟨_, he, (State.streamReady_named hfrom he).1 hready⟩

/-- Every event of a decoder's stream keeps the invariant. -/
theorem State.sharedOk.event {m : Option Move} {s t : State} {d d' : Decoder} (h : s.sharedOk d)
    (hlen : t.encs.length = s.encs.length) (hevent : Decoder.StreamEvent m s t d d') : t.sharedOk d' := by
  intro k hfrom'
  rw [hlen]
  cases hevent with
  | keeps same busy outputs =>
    have hfrom : d.inputFrom = some k := same.inputFrom ▸ hfrom'
    obtain ⟨hk, hobs⟩ := h k hfrom
    exact ⟨hk, fun hb hopen =>
      (outputs (busy hb) k hfrom).observedDone (hobs (busy hb) (same.openStream ▸ hopen))⟩
  | rests idle names =>
    refine ⟨?_, fun hb => absurd hb idle⟩
    obtain hfrom | hk := names k hfrom'
    · exact (h k hfrom).1
    · exact hk
  | starts idle names encs ready =>
    have hfrom : d.inputFrom = some k := names ▸ hfrom'
    have hk := (h k hfrom).1
    refine ⟨hk, fun _ hopen => ?_⟩
    obtain ⟨e, he, hobs⟩ := State.observedDone_of_streamReady hfrom hk (ready hopen)
    exact ⟨e, encs ▸ he, hobs⟩
  | opens => exact ⟨(h k hfrom').1, nofun⟩

/-- A step keeps what holds of every shared memory. -/
theorem State.sharedInv.step {s t : State} (h : s.sharedInv) (hstep : step s = .next t) : t.sharedInv := by
  intro d' hd'
  obtain ⟨k, hk, rfl⟩ := List.getElem_of_mem hd'
  have same := step_sameSystem hstep
  have hks : k < s.decs.length := same.decs ▸ hk
  exact State.sharedOk.event (h _ (List.getElem_mem hks)) same.encs
    (step_streamEvent hstep (List.getElem?_eq_getElem hks) (List.getElem?_eq_getElem hk))

/-! ### The inputs of BUSY engines -/

/-- No event changes the input of an encoder that stays BUSY. -/
theorem Encoder.Event.input_eq {c : Config} {k : Nat} {m : Option Move} {e e' : Encoder}
    (hevent : Encoder.Event c k m e e') (hb : e.phase = .busy) (hb' : e'.phase = .busy) : e'.input = e.input := by
  cases hevent with
  | stays => rfl
  | steps => exact (e.step_frame c).1
  | @writes reg value =>
    obtain ⟨-, -, hidle, -⟩ | ⟨w, ht, ch, cs, len, hw⟩ := e.writeReg_cases c reg value
    · exact absurd hb hidle
    · rw [hw]
  | observes => rw [Encoder.observe_eq]
  | resets => cases hb'
  | stores idle => exact absurd hb idle

/-- Of a stream that stays, a running decode reads the same bytes. -/
theorem State.sharedOk.decStream_eq {s t : State} {d d' : Decoder} (h : s.sharedOk d) (hb : d.phase = .busy)
    (same : d.SameStream d') (outputs : ∀ k, d.inputFrom = some k → s.KeepsOutput t k) :
    t.decStream d' = s.decStream d := by
  cases hopen : d.openStream with
  | some n => rw [State.decStream_open hopen, State.decStream_open (same.openStream.trans hopen), same.inLen]
  | none =>
    rw [State.decStream_settled hopen, State.decStream_settled (same.openStream.trans hopen)]
    cases hfrom : d.inputFrom with
    | none => rw [State.decInput_own hfrom, State.decInput_own (same.inputFrom.trans hfrom), same.input]
    | some k =>
      obtain ⟨e, he, hdone, hobs⟩ := (h k hfrom).2 hb hopen
      obtain ⟨e', he', hkeeps⟩ := outputs k hfrom e he
      obtain ⟨-, -, hout⟩ := hkeeps hdone hobs
      rw [State.decInput_named hfrom he, State.decInput_named (same.inputFrom.trans hfrom) he', hout]

/-- Every event of the stream of a decoder that stays BUSY leaves the stream, but for START of the encoder whose output
is read, after which the stream is open. -/
theorem State.sharedOk.event_decStream {m : Option Move} {s t : State} {d d' : Decoder} (h : s.sharedOk d)
    (hevent : Decoder.StreamEvent m s t d d') (hb : d.phase = .busy) (hb' : d'.phase = .busy) :
    t.decStream d' = s.decStream d ∨
    ∃ k v, d.inputFrom = some k ∧ v % 2 = 1 ∧ m = some (.host (.writeEncReg k 0 v)) ∧
      ∀ u u' : State, u.decStream d' = u'.decStream d' := by
  cases hevent with
  | keeps same _ outputs => exact .inl (h.decStream_eq hb same (outputs hb))
  | rests idle => exact absurd hb' idle
  | starts idle => exact absurd hb idle
  | @opens k v n names start turn => exact .inr ⟨k, v, names, start, turn, fun _ _ => rfl⟩

/-- Settles O47: a step is an event of every encoder, and of the stream of every decoder. -/
theorem stepKeepsBusyInputs : Obligations.StepKeepsBusyInputs := fun _ _ hinv hstep =>
  ⟨hinv.step hstep,
    fun _ _ _ he he' hb hb' => (step_encEvent hstep he he').input_eq hb hb',
    fun _ d _ hd hd' hb hb' =>
      State.sharedOk.event_decStream (hinv d (List.mem_of_getElem? hd)) (step_streamEvent hstep hd hd') hb hb'⟩

end Sys2Proof.Machine
end

section
/-! PROOFS. The host's buffer reads (20_memory.md R70, R71, R76, R77, R82): what a read of each buffer delivers, by
whether the host may rely on the bytes. -/

namespace Sys2Proof.Machine

/-! ### What a read of each buffer delivers -/

section Reads
variable {s : State} {k addr len : Nat} {e : Encoder} {d : Decoder}

theorem step_readEncIn (hm : s.nextMove = some (.host (.readBuffer (.encIn k) addr len))) (he : s.encs[k]? = some e) :
    step s = State.deliverBytes { s with agenda := s.agenda.tail } len
      (readWithin s.cfg e.regInLen e.input addr len) := by
  rw [step_host hm]
  simp only [runHost, hostReadBuffer, he]

theorem step_readEncOut (hm : s.nextMove = some (.host (.readBuffer (.encOut k) addr len)))
    (he : s.encs[k]? = some e) :
    step s = State.deliverBytes { s with agenda := s.agenda.tail } len
      (readOutput s.cfg e.phase e.observed e.outLen e.output addr len) := by
  rw [step_host hm]
  simp only [runHost, hostReadBuffer, he]

theorem step_readDecIn (hm : s.nextMove = some (.host (.readBuffer (.decIn k) addr len))) (hd : s.decs[k]? = some d) :
    step s = State.deliverBytes { s with agenda := s.agenda.tail } len (s.readDecInput d addr len) := by
  rw [step_host hm]
  simp only [runHost, hostReadBuffer, hd]
  rfl

theorem step_readDecOut (hm : s.nextMove = some (.host (.readBuffer (.decOut k) addr len)))
    (hd : s.decs[k]? = some d) :
    step s = State.deliverBytes { s with agenda := s.agenda.tail } len
      (readOutput s.cfg d.phase d.observed d.outLen d.output addr len) := by
  rw [step_host hm]
  simp only [runHost, hostReadBuffer, hd]

theorem State.readDecInput_ready (h : s.streamReady d = true) :
    s.readDecInput d addr len = readWithin s.cfg d.regInLen (s.decInput d) addr len := if_pos h

theorem State.readDecInput_unready (h : s.streamReady d = false) :
    s.readDecInput d addr len = if addressesOk s.cfg addr len then .unspecified else .outside :=
  if_neg (by simp [h])

end Reads

/-! ### Reads whose bytes the host may rely on -/

/-- Below the buffer's length a read delivers its bytes; any other is outside the buffer (20_memory.md R70). -/
theorem State.deliverBytes_readWithin (s : State) (bufferLen : Nat) (m : Memory) (addr len : Nat) :
    (addr + len ≤ bufferLen → s.cfg.addressable addr len →
      s.deliverBytes len (readWithin s.cfg bufferLen m addr len) =
        .next { s with readBytes := m.readBytes addr len }) ∧
    (bufferLen < addr + len ∨ ¬s.cfg.addressable addr len →
      s.deliverBytes len (readWithin s.cfg bufferLen m addr len) = .fault .outsideBuffer) := by
  refine ⟨fun hle haddr => ?_, fun h => ?_⟩
  · rw [readWithin_ok m ((addressesOk_iff _ _ _).2 haddr) hle]
    rfl
  · rw [readWithin_outside m (h.symm.imp_left (addressesOk_eq_false_iff _ _ _).2)]
    rfl

/-- Settles O35: an observed output buffer is read as a buffer of its published length. -/
theorem publishedOutputReads : Obligations.PublishedOutputReads := by
  refine ⟨fun s k addr len e hm he hdone hobs => ?_, fun s k addr len d hm hd hdone hobs => ?_⟩
  · rw [step_readEncOut hm he, readOutput_observed _ ⟨hdone, hobs⟩]
    exact State.deliverBytes_readWithin { s with agenda := s.agenda.tail } _ _ _ _
  · rw [step_readDecOut hm hd, readOutput_observed _ ⟨hdone, hobs⟩]
    exact State.deliverBytes_readWithin { s with agenda := s.agenda.tail } _ _ _ _

/-- Settles O36: an input buffer is read as a buffer of the length in its register. -/
theorem hostInputReads : Obligations.HostInputReads := by
  refine ⟨fun s k addr len e hm he => ?_, fun s j addr len d hm hd hobs => ?_⟩
  · rw [step_readEncIn hm he]
    exact State.deliverBytes_readWithin { s with agenda := s.agenda.tail } _ _ _ _
  · rw [step_readDecIn hm hd, State.readDecInput_ready (State.streamReady_of_observed hobs)]
    exact State.deliverBytes_readWithin { s with agenda := s.agenda.tail } _ _ _ _

/-! ### Reads before the DONE observation -/

/-- Another state of an encoder leaves the host's turn. -/
theorem State.setEnc_nextMove {s : State} {a : HostAction} (hm : s.nextMove = some (.host a)) (k : Nat) (e : Encoder) :
    (s.setEnc k e).nextMove = some (.host a) := by
  obtain ⟨rest, hagenda⟩ := State.agenda_of_host hm
  unfold State.nextMove
  rw [State.setEnc_agenda, hagenda]

/-- Two reads that deliver unspecified bytes deliver the same ones where as many free values were drawn before; at
addresses a buffer does not have, a read is a fault. -/
theorem State.readsNothingOf_of_unspecified {s s' : State} {addr len : Nat} (hdraws : s'.draws = s.draws)
    (h : step s = State.deliverBytes { s with agenda := s.agenda.tail } len
      (if addressesOk s.cfg addr len then .unspecified else .outside))
    (h' : step s' = State.deliverBytes { s' with agenda := s'.agenda.tail } len
      (if addressesOk s.cfg addr len then .unspecified else .outside)) :
    (s.cfg.addressable addr len → s.ReadsNothingOf s' len) ∧
    (¬s.cfg.addressable addr len → step s = .fault .outsideBuffer) := by
  refine ⟨fun haddr => ?_, fun haddr => ?_⟩
  · rw [if_pos ((addressesOk_iff _ _ _).2 haddr)] at h h'
    refine ⟨_, _, h, h', ?_, freeBytes_length _ _, ?_, rfl⟩
    · show freeBytes s.draws len = freeBytes s'.draws len
      rw [hdraws]
    · show s.draws + len = s'.draws + len
      rw [hdraws]
  · rw [h, if_neg (mt (addressesOk_iff _ _ _).1 haddr)]
    rfl

/-- Settles O34: what is drawn depends on the draw counter and the length alone. -/
theorem earlyOutputReadLearnsNothing : Obligations.EarlyOutputReadLearnsNothing := by
  refine ⟨fun s k addr len e m hm he hun => ?_, fun s k addr len d m hm hd hun => ?_,
    fun s j k addr len d e m hm hd hfrom he hun => ?_⟩
  · refine State.readsNothingOf_of_unspecified rfl ?_ ?_
    · rw [step_readEncOut hm he, readOutput_unobserved _ hun]
    · rw [step_readEncOut (State.setEnc_nextMove hm _ _) (State.setEnc_get he _), readOutput_unobserved _ hun]
      rfl
  · refine State.readsNothingOf_of_unspecified rfl ?_ ?_
    · rw [step_readDecOut hm hd, readOutput_unobserved _ hun]
    · rw [step_readDecOut (State.setDec_nextMove hm _ _) (State.setDec_get hd _), readOutput_unobserved _ hun]
      rfl
  · refine State.readsNothingOf_of_unspecified rfl ?_ ?_
    · rw [step_readDecIn hm hd, State.readDecInput_unready (State.not_streamReady_of_unobserved hfrom he hun)]
    · rw [step_readDecIn (State.setEnc_nextMove hm _ _) hd, State.readDecInput_unready
        (State.not_streamReady_of_unobserved hfrom (State.setEnc_get he { e with output := m }) hun)]
      rfl

end Sys2Proof.Machine
end

section
/-! PROOFS. The host's buffer writes (20_memory.md R70, R71, R85) and the two ways of a stream from an encoder to a
decoder (R86): which writes are refused, and what the others store. -/

namespace Sys2Proof.Machine

/-! ### What a write to each buffer does -/

/-- A write that no BUSY engine forbids is made at addresses of LEN_WIDTH bits, and is a fault at any other. -/
theorem hostStore_free (c : Config) (addr len : Nat) (t : State) :
    (c.addressable addr len → hostStore c false addr len t = .next t) ∧
    (¬c.addressable addr len → hostStore c false addr len t = .fault .outsideBuffer) := by
  refine ⟨fun h => hostStore_ok ((addressesOk_iff _ _ _).2 h), fun h => ?_⟩
  simp [hostStore, (addressesOk_eq_false_iff _ _ _).2 h]

section Writes
variable {s : State} {k addr : Nat} {bytes : List Byte} {e : Encoder} {d : Decoder}

theorem hostWriteEncIn_busy (he : s.encs[k]? = some e) (hb : e.phase = .busy) :
    hostWriteBuffer (.encIn k) addr bytes s = .refused .hostWriteWhileBusy := by
  simp only [hostWriteBuffer, he, hb, decide_true, hostStore_busy]

theorem hostWriteEncIn_free (he : s.encs[k]? = some e) (hidle : e.phase ≠ .busy) :
    hostWriteBuffer (.encIn k) addr bytes s = hostStore s.cfg false addr bytes.length
      (s.setEnc k { e with input := e.input.writeBytes addr bytes }) := by
  simp only [hostWriteBuffer, he, hidle, decide_false]

theorem hostWriteDecOut_busy (hd : s.decs[k]? = some d) (hb : d.phase = .busy) :
    hostWriteBuffer (.decOut k) addr bytes s = .refused .hostWriteWhileBusy := by
  simp only [hostWriteBuffer, hd, hb, decide_true, hostStore_busy]

theorem hostWriteEncOut_eq (he : s.encs[k]? = some e) :
    hostWriteEncOut k addr bytes s = hostStore s.cfg (decide (e.phase = .busy) || s.streamInUse k) addr bytes.length
      (s.setEnc k { e with output := e.output.writeBytes addr bytes }) := by
  simp only [hostWriteEncOut, he]

theorem hostWriteDecIn_busy (hd : s.decs[k]? = some d) (hb : d.phase = .busy) :
    hostWriteBuffer (.decIn k) addr bytes s = .refused .hostWriteWhileBusy := by
  simp only [hostWriteBuffer, hd, hb, if_true]

/-- The decoder's own memory. -/
theorem hostWriteDecIn_own (hd : s.decs[k]? = some d) (hidle : d.phase ≠ .busy) (hfrom : d.inputFrom = none) :
    hostWriteBuffer (.decIn k) addr bytes s = hostStore s.cfg false addr bytes.length
      (s.setDec k { d with input := d.input.writeBytes addr bytes }) := by
  simp only [hostWriteBuffer, hd, hidle, if_false]
  rw [hfrom]

/-- DEC_IN that names the memory of an ENC_OUT is written as that memory (20_memory.md R86). -/
theorem hostWriteDecIn_named {i : Nat} (hd : s.decs[k]? = some d) (hidle : d.phase ≠ .busy)
    (hfrom : d.inputFrom = some i) :
    hostWriteBuffer (.decIn k) addr bytes s = hostWriteEncOut i addr bytes s := by
  simp only [hostWriteBuffer, hd, hidle, if_false, hfrom]

/-- A memory that a BUSY encoder writes or a BUSY decoder reads is not the host's. -/
theorem hostWriteEncOut_busy (he : s.encs[k]? = some e) (h : e.phase = .busy ∨ s.streamInUse k = true) :
    hostWriteEncOut k addr bytes s = .refused .hostWriteWhileBusy := by
  have hbusy : (decide (e.phase = .busy) || s.streamInUse k) = true := by simpa using h
  rw [hostWriteEncOut_eq he, hbusy, hostStore_busy]

/-- Nor is it under the name DEC_IN, whether or not the decoder with that name is BUSY. -/
theorem hostWriteDecIn_named_busy {i : Nat} (hd : s.decs[i]? = some d) (hfrom : d.inputFrom = some k)
    (he : s.encs[k]? = some e) (h : e.phase = .busy ∨ s.streamInUse k = true) :
    hostWriteBuffer (.decIn i) addr bytes s = .refused .hostWriteWhileBusy := by
  by_cases hb : d.phase = .busy
  · exact hostWriteDecIn_busy hd hb
  · rw [hostWriteDecIn_named hd hb hfrom, hostWriteEncOut_busy he h]

/-- DEC_IN that names a memory no BUSY engine uses. -/
theorem hostWriteDecIn_named_free {i : Nat} (hd : s.decs[i]? = some d) (hidle : d.phase ≠ .busy)
    (hfrom : d.inputFrom = some k) (he : s.encs[k]? = some e) (hidle' : e.phase ≠ .busy)
    (hfree : ∀ f ∈ s.decs, f.inputFrom = some k → f.phase ≠ .busy) :
    hostWriteBuffer (.decIn i) addr bytes s = hostStore s.cfg false addr bytes.length
      (s.setEnc k { e with output := e.output.writeBytes addr bytes }) := by
  rw [hostWriteDecIn_named hd hidle hfrom, hostWriteEncOut_eq he, State.streamInUse_eq_false.2 hfree,
    decide_eq_false hidle', Bool.or_false]

end Writes

/-! ### Which writes are refused -/

/-- Settles O37, by the buffer that the write names. -/
theorem busyBufferWritesAreRefused : Obligations.BusyBufferWritesAreRefused := by
  refine ⟨fun s k addr bytes e he hb hm => ?_, fun s j addr bytes d hd hb hm => ?_⟩
  · obtain hm | hm | ⟨j, d, hm, hd, hfrom⟩ := hm <;> rw [step_host hm]
    · exact hostWriteEncIn_busy he hb
    · exact hostWriteEncOut_busy he (.inl hb)
    · exact hostWriteDecIn_named_busy hd hfrom he (.inl hb)
  · obtain hm | hm | ⟨k, e, hfrom, he, hm⟩ := hm
    · rw [step_host hm]
      exact hostWriteDecIn_busy hd hb
    · rw [step_host hm]
      exact hostWriteDecOut_busy hd hb
    · have inUse : s.streamInUse k = true := State.streamInUse_of_reader (List.mem_of_getElem? hd) hb hfrom
      obtain hm | ⟨i, f, hm, hf, hfrom'⟩ := hm <;> rw [step_host hm]
      · exact hostWriteEncOut_busy he (.inr inUse)
      · exact hostWriteDecIn_named_busy hf hfrom' he (.inr inUse)

/-! ### What a write stores -/

/-- A step that is a write which no BUSY engine forbids. -/
theorem step_of_hostStore {s t : State} {addr len : Nat} (h : step s = hostStore s.cfg false addr len t) :
    (s.cfg.addressable addr len → step s = .next t) ∧
    (¬s.cfg.addressable addr len → step s = .fault .outsideBuffer) := by
  rw [h]
  exact hostStore_free _ _ _ _

/-- Settles O38, by the memory that the buffer names. -/
theorem hostBufferWrite : Obligations.HostBufferWrite := by
  refine ⟨fun s k addr bytes e hm he hidle => ?_, fun s j addr bytes d hm hd hidle => ?_⟩
  · obtain ⟨hok, hout⟩ := step_of_hostStore (t := s.afterEnc k { e with input := e.input.writeBytes addr bytes })
      ((step_host hm).trans (hostWriteEncIn_free (s := { s with agenda := s.agenda.tail }) he hidle))
    exact ⟨fun haddr => ⟨_, hok haddr, Memory.writeBytes_stores _ _ _⟩, hout⟩
  · have own := fun hfrom : d.inputFrom = none => step_of_hostStore
      ((step_host hm).trans (hostWriteDecIn_own (s := { s with agenda := s.agenda.tail }) hd hidle hfrom))
    refine ⟨fun hfrom haddr => ⟨_, (own hfrom).1 haddr, Memory.writeBytes_stores _ _ _⟩,
      fun k e hfrom he hidle' hfree => ?_, fun hfrom => (own hfrom).2⟩
    obtain ⟨hok, hout⟩ := step_of_hostStore (t := s.afterEnc k { e with output := e.output.writeBytes addr bytes })
      ((step_host hm).trans
        (hostWriteDecIn_named_free (s := { s with agenda := s.agenda.tail }) hd hidle hfrom he hidle' hfree))
    exact ⟨fun haddr => ⟨_, hok haddr, Memory.writeBytes_stores _ _ _⟩, hout⟩

/-! ### The copy of a stream -/

/-- The copy of a stream whose DONE was observed is a write of its bytes to DEC_IN from address 0. -/
theorem step_copyStream {s : State} {k j : Nat} {e : Encoder} (hm : s.nextMove = some (.host (.copyStream k j)))
    (he : s.encs[k]? = some e) (hdone : e.phase = .done) (hobs : e.observed = true)
    (haddr : s.cfg.addressable 0 e.outLen) :
    step s = hostWriteBuffer (.decIn j) 0 (e.output.readBytes 0 e.outLen) { s with agenda := s.agenda.tail } := by
  have hread : readOutput s.cfg e.phase e.observed e.outLen e.output 0 e.outLen =
      .bytes (e.output.readBytes 0 e.outLen) := by
    rw [readOutput_observed _ ⟨hdone, hobs⟩,
      readWithin_ok _ ((addressesOk_iff _ _ _).2 haddr) (Nat.le_of_eq (Nat.zero_add _))]
  rw [step_host hm]
  simp only [runHost, hostCopyStream, he, hread]

/-- After the first bytes of one buffer are written over another, the two agree there. -/
theorem Memory.read_writeBytes_readBytes (m m' : Memory) {len a : Nat} (h : a < len) :
    (m.writeBytes 0 (m'.readBytes 0 len)).read a = m'.read a := by
  have hlen : a < (m'.readBytes 0 len).length := by simpa using h
  have hread := Memory.read_writeBytes_at (m'.readBytes 0 len) m 0 a hlen
  rwa [Memory.readBytes_getElem, Nat.zero_add] at hread

/-- Settles O39: the copy is a write to DEC_IN of the bytes a read of ENC_OUT gives. -/
theorem copyStreamCopiesBytes : Obligations.CopyStreamCopiesBytes := by
  intro s k j e d hm he hdone hobs haddr hd hidle
  have hstep := step_copyStream hm he hdone hobs haddr
  have haddr' : s.cfg.addressable 0 (e.output.readBytes 0 e.outLen).length := by simpa using haddr
  refine ⟨(s.decInput d).writeBytes 0 (e.output.readBytes 0 e.outLen),
    fun a ha => Memory.read_writeBytes_readBytes _ _ ha, fun a ha => ?_, fun hfrom => ?_,
    fun i f hfrom hf hidle' hfree => ?_⟩
  · exact Memory.read_writeBytes_above _ _ (by simpa using ha)
  · rw [State.decInput_own hfrom]
    exact (step_of_hostStore (hstep.trans
      (hostWriteDecIn_own (s := { s with agenda := s.agenda.tail }) hd hidle hfrom))).1 haddr'
  · rw [State.decInput_named hfrom hf]
    exact (step_of_hostStore (hstep.trans (hostWriteDecIn_named_free (s := { s with agenda := s.agenda.tail })
      hd hidle hfrom hf hidle' hfree))).1 haddr'

/-! ### Naming the memory of DEC_IN -/

section Names
variable {s : State} {j k : Nat} {d : Decoder}

theorem hostNameInput_busy (source : Option Nat) (hd : s.decs[j]? = some d) (hb : d.phase = .busy) :
    hostNameInput j source s = .refused .hostWriteWhileBusy := by
  simp only [hostNameInput, hd, hb, if_true]

theorem hostNameInput_own (hd : s.decs[j]? = some d) (hidle : d.phase ≠ .busy) :
    hostNameInput j none s = .next (s.setDec j { d with inputFrom := none }) := by
  simp only [hostNameInput, hd, hidle, if_false]

theorem hostNameInput_absent (hd : s.decs[j]? = some d) (hidle : d.phase ≠ .busy) (hk : s.encs[k]? = none) :
    hostNameInput j (some k) s = .refused .noSuchEngine := by
  simp only [hostNameInput, hd, hidle, if_false, List.getElem?_eq_none_iff.1 hk, if_true]

/-- An encoder's output is named once DONE was observed on it (20_memory.md R86). -/
theorem hostNameInput_observed {e : Encoder} (hd : s.decs[j]? = some d) (hidle : d.phase ≠ .busy)
    (he : s.encs[k]? = some e) (hdone : e.phase = .done) (hobs : e.observed = true) :
    hostNameInput j (some k) s = .next (s.setDec j { d with inputFrom := some k }) := by
  obtain ⟨hk, -⟩ := List.getElem?_eq_some_iff.1 he
  have hready : s.streamReady { d with inputFrom := some k } = true := (State.streamReady_named rfl he).2 ⟨hdone, hobs⟩
  simp only [hostNameInput, hd, hidle, if_false, Nat.not_le.2 hk, hready, if_true]

theorem hostNameInput_unobserved {e : Encoder} (hd : s.decs[j]? = some d) (hidle : d.phase ≠ .busy)
    (he : s.encs[k]? = some e) (hun : e.phase ≠ .done ∨ e.observed = false) :
    hostNameInput j (some k) s = .refused .streamNotObserved := by
  obtain ⟨hk, -⟩ := List.getElem?_eq_some_iff.1 he
  have hready : s.streamReady { d with inputFrom := some k } = false :=
    State.not_streamReady_of_unobserved rfl he hun
  simp only [hostNameInput, hd, hidle, if_false, Nat.not_le.2 hk, hready, Bool.false_eq_true]

end Names

/-- Settles O40, by the memory named and the DONE observation. -/
theorem nameInputSharesMemory : Obligations.NameInputSharesMemory := by
  intro s j source d hm hd
  rw [step_host hm]
  refine ⟨fun hb => hostNameInput_busy source hd hb, fun k e hsource he hidle => ?_, fun k hsource hk hidle => ?_,
    fun hsource hidle => ?_⟩ <;> subst hsource
  · exact ⟨fun hdone hobs => ⟨_, _,
        hostNameInput_observed (s := { s with agenda := s.agenda.tail }) hd hidle he hdone hobs,
        State.setDec_get hd _, State.decInput_named rfl he, rfl⟩,
      fun hun => hostNameInput_unobserved hd hidle he hun⟩
  · exact hostNameInput_absent hd hidle hk
  · exact ⟨_, _, hostNameInput_own (s := { s with agenda := s.agenda.tail }) hd hidle, State.setDec_get hd _,
      State.decInput_own rfl, rfl⟩

end Sys2Proof.Machine
end

section
/-! PROOFS. What holds of every run from power-on: the sequencers stay in range, so streams and pixel reads stay within
their bounds (20_memory.md R78, R79; 41_encoder.md R175). -/

namespace Sys2Proof.Machine

/-- What every step keeps holds after every run. -/
theorem runSteps_keeps {P : State → Prop} (keeps : ∀ s t, P s → step s = .next t → P t) {n : Nat} {s t : State}
    (hs : P s) (hrun : runSteps n s = .next t) : P t := by
  induction n generalizing s with
  | zero =>
    cases hrun
    exact hs
  | succ n ih =>
    cases hstep : step s with
    | next u =>
      rw [runSteps_succ hstep] at hrun
      exact ih (keeps s u hs hstep) hrun
    | fault r | refused r => simp [runSteps, hstep] at hrun

/-- After any run from power-on the parameters are as chosen and the sequencers are in range. -/
theorem reachable_sequencerInv {c : Config} {agenda : List Move} {n : Nat} {t : State}
    (hrun : runSteps n { State.resetWith c with agenda := agenda } = .next t) : t.cfg = c ∧ t.sequencerInv := by
  obtain ⟨-, -, -, hpower, -⟩ := powerOnMeetsInvariants c
  refine runSteps_keeps (P := fun u => u.cfg = c ∧ u.sequencerInv)
    (fun s u ⟨hcfg, hinv⟩ hstep => ⟨(step_sameSystem hstep).cfg.trans hcfg, stepKeepsSequencersInRange s u hinv hstep⟩)
    ?_ hrun
  exact ⟨rfl, hpower⟩

/-- Settles O49: the bounds follow from the sequencer invariant, which every run from power-on keeps. -/
theorem reachableEncodersStayInBounds : Obligations.ReachableEncodersStayInBounds := by
  intro c agenda n t hrun e he
  obtain ⟨rfl, hinv, -⟩ := reachable_sequencerInv hrun
  obtain ⟨hbody, hdone⟩ := hinv e he
  refine ⟨fun hd => ?_, fun ⟨hb, hs, hpix⟩ => (hbody hb hs).pixel_in_input hpix⟩
  obtain ⟨hlen, hupper, hlower⟩ := hdone hd
  exact ⟨hupper, hlower, fun hfits => hlen.trans (lengthRegister_of_fits hfits)⟩

end Sys2Proof.Machine
end

section
/-! PROOFS. The chunk grammar (30_encoding.md R107 to R117): the chunk type by the value of the first byte, the fields of
a byte and their biases, and that `decode` and `encode` are inverse to each other. -/

namespace Sys2Proof

/-! ### Operand ranges -/

@[simp] theorem inRange_iff (lo hi x : Int) : inRange lo hi x = true ↔ lo ≤ x ∧ x ≤ hi := by
  simp [inRange]

theorem Instr.wellFormed_diff_iff (dr dg db : Int) :
    (Instr.diff dr dg db).wellFormed = true ↔ (-2 ≤ dr ∧ dr ≤ 1) ∧ (-2 ≤ dg ∧ dg ≤ 1) ∧ -2 ≤ db ∧ db ≤ 1 := by
  simp [Instr.wellFormed, diffDeltaOk, and_assoc]

theorem Instr.wellFormed_luma_iff (dg drDg dbDg : Int) :
    (Instr.luma dg drDg dbDg).wellFormed = true ↔
      (-32 ≤ dg ∧ dg ≤ 31) ∧ (-8 ≤ drDg ∧ drDg ≤ 7) ∧ -8 ≤ dbDg ∧ dbDg ≤ 7 := by
  simp [Instr.wellFormed, lumaGreenOk, lumaRelativeOk, and_assoc]

theorem Instr.wellFormed_run_iff (n : Nat) : (Instr.run n).wellFormed = true ↔ 1 ≤ n ∧ n ≤ 62 := by
  simp [Instr.wellFormed, runLengthOk]

/-! ### The chunk type by the value of the first byte (30_encoding.md R108) -/

theorem chunkKind_eq_index_iff (t : TagAssignment) : ∀ b : Byte, chunkKind t b = .index ↔ b.toNat / 64 = 0 := by
  cases t <;> decide

theorem chunkKind_eq_diff_iff (t : TagAssignment) : ∀ b : Byte, chunkKind t b = .diff ↔ b.toNat / 64 = 1 := by
  cases t <;> decide

theorem chunkKind_eq_luma_iff (t : TagAssignment) : ∀ b : Byte, chunkKind t b = .luma ↔ b.toNat / 64 = 2 := by
  cases t <;> decide

/-- The tag bytes 0xFE and 0xFF are taken out of the last quarter. -/
theorem chunkKind_eq_run_iff (t : TagAssignment) :
    ∀ b : Byte, chunkKind t b = .run ↔ 0xC0 ≤ b.toNat ∧ b.toNat ≤ 0xFD := by
  cases t <;> decide

theorem chunkKind_eq_rgb_iff (t : TagAssignment) (b : Byte) : chunkKind t b = .rgb ↔ b = tagRgb t := by
  refine ⟨fun h => ?_, fun h => h ▸ chunkKind_tagRgb t⟩
  unfold chunkKind at h
  split_ifs at h with hrgb
  exact hrgb

theorem chunkKind_eq_rgba_iff (t : TagAssignment) (b : Byte) : chunkKind t b = .rgba ↔ b = tagRgba t := by
  refine ⟨fun h => ?_, fun h => h ▸ chunkKind_tagRgba t⟩
  unfold chunkKind at h
  split_ifs at h with _ hrgba
  exact hrgba

/-! ### What `decode` answers for each chunk type -/

section DecodeByKind
variable {t : TagAssignment} {b : Byte}

theorem decode_index (h : chunkKind t b = .index) (rest : List Byte) :
    decode t (b :: rest) = .ok (.index (b.extractLsb' 0 6), rest) := by
  simp only [decode, h]

theorem decode_diff (h : chunkKind t b = .diff) (rest : List Byte) :
    decode t (b :: rest) =
      .ok (.diff (biasedField b 4 2 2) (biasedField b 2 2 2) (biasedField b 0 2 2), rest) := by
  simp only [decode, h]

theorem decode_luma (h : chunkKind t b = .luma) (b1 : Byte) (rest : List Byte) :
    decode t (b :: b1 :: rest) =
      .ok (.luma (biasedField b 0 6 32) (biasedField b1 4 4 8) (biasedField b1 0 4 8), rest) := by
  simp only [decode, h]

theorem decode_run (h : chunkKind t b = .run) (rest : List Byte) :
    decode t (b :: rest) = .ok (.run ((b.extractLsb' 0 6).toNat + 1), rest) := by
  simp only [decode, h]

theorem decode_rgb (t : TagAssignment) (r g bl : Byte) (rest : List Byte) :
    decode t (tagRgb t :: r :: g :: bl :: rest) = .ok (.rgb r g bl, rest) := by
  simp only [decode, chunkKind_tagRgb]

theorem decode_rgba (t : TagAssignment) (r g bl a : Byte) (rest : List Byte) :
    decode t (tagRgba t :: r :: g :: bl :: a :: rest) = .ok (.rgba r g bl a, rest) := by
  simp only [decode, chunkKind_tagRgba]

/-- A chunk whose bytes run out is rejected (30_encoding.md R117). -/
theorem decode_of_length_lt {rest : List Byte} (h : rest.length + 1 < chunkLen t b) :
    decode t (b :: rest) = .error .incomplete := by
  rw [chunkLen_eq] at h
  cases hk : chunkKind t b <;> simp only [hk] at h
  case index | diff | run => omega
  case luma => match rest, h with | [], _ => simp only [decode, hk]
  case rgb => match rest, h with | [], _ | [_], _ | [_, _], _ => simp only [decode, hk]
  case rgba => match rest, h with | [], _ | [_], _ | [_, _], _ | [_, _, _], _ => simp only [decode, hk]

/-- A chunk whose bytes are there is read, and what follows them is left (30_encoding.md R116). -/
theorem decode_of_length_le {rest : List Byte} (h : chunkLen t b ≤ rest.length + 1) :
    ∃ i, decode t (b :: rest) = .ok (i, (b :: rest).drop (chunkLen t b)) := by
  obtain ⟨own, hown⟩ : ∃ own, chunkLen t b = own + 1 := ⟨_, (Nat.sub_add_cancel (chunkLen_pos t b)).symm⟩
  obtain ⟨i, -, hi⟩ := decode_cons_append (t := t) (b := b) (own := rest.take own) (more := rest.drop own)
    (by rw [List.length_take]; omega)
  rw [List.take_append_drop] at hi
  exact ⟨i, by rw [hi, hown, List.drop_succ_cons]⟩

end DecodeByKind

/-- The length from the first byte's value (30_encoding.md R116). -/
theorem chunkLen_by_value (t : TagAssignment) (b : Byte) :
    chunkLen t b = if b = tagRgb t then 4 else if b = tagRgba t then 5 else if b.toNat / 64 = 2 then 2 else 1 := by
  simp only [← chunkKind_eq_rgb_iff, ← chunkKind_eq_rgba_iff, ← chunkKind_eq_luma_iff t, chunkLen_eq]
  cases chunkKind t b <;> rfl

/-! ### Fields of a byte -/

/-- Concatenation is a sum of the parts, each at its weight (30_encoding.md R109 to R112). -/
theorem toNat_append_eq_add {m n : Nat} (x : BitVec m) (y : BitVec n) :
    (x ++ y).toNat = x.toNat * 2 ^ n + y.toNat := by
  rw [BitVec.toNat_append, ← Nat.shiftLeft_add_eq_or_of_lt y.isLt, Nat.shiftLeft_eq]

/-- A number that fits a field is stored as it is. -/
theorem toNat_ofInt_of_fits {len : Nat} {x : Int} (h0 : 0 ≤ x) (h1 : x < 2 ^ len) :
    ((BitVec.ofInt len x).toNat : Int) = x := by
  have hmod : x % ((2 ^ len : Nat) : Int) = x := Int.emod_eq_of_lt h0 (by exact_mod_cast h1)
  rw [BitVec.toNat_ofInt, hmod, Int.toNat_of_nonneg h0]

/-- A field in arithmetic on the byte's value (30_encoding.md R108). -/
theorem biasedField_eq (b : Byte) (lo len : Nat) (bias : Int) :
    biasedField b lo len bias = ((b.toNat / 2 ^ lo % 2 ^ len : Nat) : Int) - bias := by
  rw [biasedField, BitVec.extractLsb'_toNat, Nat.shiftRight_eq_div_pow]

/-- The values of a field lie in a range of `2 ^ len` numbers from `-bias` on (30_encoding.md R110, R111). -/
theorem biasedField_range (b : Byte) (lo len : Nat) (bias : Int) :
    -bias ≤ biasedField b lo len bias ∧ biasedField b lo len bias < 2 ^ len - bias := by
  have h : ((b.extractLsb' lo len).toNat : Int) < 2 ^ len := by exact_mod_cast (b.extractLsb' lo len).isLt
  unfold biasedField
  omega

/-- Biasing what was read gives the field back. -/
theorem ofInt_biasedField_add (b : Byte) (lo len : Nat) (bias : Int) :
    BitVec.ofInt len (biasedField b lo len bias + bias) = b.extractLsb' lo len := by
  rw [biasedField, Int.sub_add_cancel, BitVec.ofInt_natCast, BitVec.ofNat_toNat, BitVec.setWidth_eq]

/-- Reading a field that holds a biased number gives the number back. -/
theorem biasedField_of_field {b : Byte} {lo len : Nat} {bias x : Int}
    (hfield : b.extractLsb' lo len = BitVec.ofInt len (x + bias)) (h0 : 0 ≤ x + bias) (h1 : x + bias < 2 ^ len) :
    biasedField b lo len bias = x := by
  rw [biasedField, hfield, toNat_ofInt_of_fits h0 h1, Int.add_sub_cancel]

/-- The low six bits, in arithmetic on the byte's value (30_encoding.md R108). -/
theorem low_six_toNat (b : Byte) : (b.extractLsb' 0 6).toNat = b.toNat % 64 := by
  rw [BitVec.extractLsb'_toNat, Nat.shiftRight_zero]

/-- A byte is its top two bits and its low six (30_encoding.md R109, R111, R112). -/
theorem tag_append_low_six {b : Byte} {tag : BitVec 2} (h : b.toNat / 64 = tag.toNat) :
    tag ++ b.extractLsb' 0 6 = b := by
  apply BitVec.eq_of_toNat_eq
  rw [toNat_append_eq_add, low_six_toNat]
  omega

/-- A byte is four fields of two bits (30_encoding.md R110). -/
theorem tag_append_two_bit_fields {b : Byte} {tag : BitVec 2} (h : b.toNat / 64 = tag.toNat) :
    tag ++ b.extractLsb' 4 2 ++ b.extractLsb' 2 2 ++ b.extractLsb' 0 2 = b := by
  apply BitVec.eq_of_toNat_eq
  simp only [toNat_append_eq_add, BitVec.extractLsb'_toNat, Nat.shiftRight_eq_div_pow]
  omega

/-! ### Decoding what was encoded -/

theorem decode_encode_index (t : TagAssignment) (i : Slot) (rest : List Byte) :
    decode t (encode t (.index i) ++ rest) = .ok (.index i, rest) := by
  simp only [encode, List.singleton_append, decode_index (chunkKind_index t i)]
  rw [BitVec.extractLsb'_append_eq_right]

/-- The three low fields of a DIFF byte (30_encoding.md R110). -/
theorem two_bit_fields_of_append (tag r g b : BitVec 2) :
    (tag ++ r ++ g ++ b).extractLsb' 4 2 = r ∧ (tag ++ r ++ g ++ b).extractLsb' 2 2 = g ∧
    (tag ++ r ++ g ++ b).extractLsb' 0 2 = b := by
  refine ⟨?_, ?_, BitVec.extractLsb'_append_eq_right⟩
  · rw [BitVec.extractLsb'_append_eq_of_le (by decide), BitVec.extractLsb'_append_eq_of_le (by decide)]
    exact BitVec.extractLsb'_append_eq_right
  · rw [BitVec.extractLsb'_append_eq_of_le (by decide)]
    exact BitVec.extractLsb'_append_eq_right

theorem decode_encode_diff (t : TagAssignment) {dr dg db : Int} (h : (Instr.diff dr dg db).wellFormed = true)
    (rest : List Byte) : decode t (encode t (.diff dr dg db) ++ rest) = .ok (.diff dr dg db, rest) := by
  obtain ⟨hr, hg, hb⟩ := (Instr.wellFormed_diff_iff dr dg db).1 h
  obtain ⟨fr, fg, fb⟩ :=
    two_bit_fields_of_append 1#2 (BitVec.ofInt 2 (dr + 2)) (BitVec.ofInt 2 (dg + 2)) (BitVec.ofInt 2 (db + 2))
  simp only [encode, List.singleton_append, decode_diff (chunkKind_diff t _ _ _)]
  rw [biasedField_of_field fr (by omega) (by omega), biasedField_of_field fg (by omega) (by omega),
    biasedField_of_field fb (by omega) (by omega)]

theorem decode_encode_luma (t : TagAssignment) {dg drDg dbDg : Int}
    (h : (Instr.luma dg drDg dbDg).wellFormed = true) (rest : List Byte) :
    decode t (encode t (.luma dg drDg dbDg) ++ rest) = .ok (.luma dg drDg dbDg, rest) := by
  obtain ⟨hg, hr, hb⟩ := (Instr.wellFormed_luma_iff dg drDg dbDg).1 h
  have fg : (2#2 ++ BitVec.ofInt 6 (dg + 32)).extractLsb' 0 6 = BitVec.ofInt 6 (dg + 32) :=
    BitVec.extractLsb'_append_eq_right
  have fr : (BitVec.ofInt 4 (drDg + 8) ++ BitVec.ofInt 4 (dbDg + 8)).extractLsb' 4 4 = BitVec.ofInt 4 (drDg + 8) :=
    BitVec.extractLsb'_append_eq_left
  have fb : (BitVec.ofInt 4 (drDg + 8) ++ BitVec.ofInt 4 (dbDg + 8)).extractLsb' 0 4 = BitVec.ofInt 4 (dbDg + 8) :=
    BitVec.extractLsb'_append_eq_right
  simp only [encode, List.cons_append, List.nil_append, decode_luma (chunkKind_luma t _)]
  rw [biasedField_of_field fg (by omega) (by omega), biasedField_of_field fr (by omega) (by omega),
    biasedField_of_field fb (by omega) (by omega)]

theorem decode_encode_run (t : TagAssignment) {n : Nat} (h : (Instr.run n).wellFormed = true) (rest : List Byte) :
    decode t (encode t (.run n) ++ rest) = .ok (.run n, rest) := by
  obtain ⟨hpos, -⟩ := (Instr.wellFormed_run_iff n).1 h
  obtain ⟨hstored, hle⟩ := storedRun_le h
  simp only [encode, List.singleton_append, decode_run (chunkKind_run t _ (hstored.trans_le hle))]
  rw [BitVec.extractLsb'_append_eq_right, hstored, Nat.sub_add_cancel hpos]

/-- Settles O1, by the chunk type: the first byte selects the type again, and each field gives its operand back. -/
theorem decodeOfEncode : Obligations.DecodeOfEncode := by
  intro t i rest h
  cases i with
  | index i => exact decode_encode_index t i rest
  | diff dr dg db => exact decode_encode_diff t h rest
  | luma dg drDg dbDg => exact decode_encode_luma t h rest
  | run n => exact decode_encode_run t h rest
  | rgb r g b => exact decode_rgb t r g b rest
  | rgba r g b a => exact decode_rgba t r g b a rest

/-! ### Encoding what was decoded -/

section EncodeByKind
variable {t : TagAssignment} {b : Byte}

theorem encode_decoded_index (h : chunkKind t b = .index) : encode t (.index (b.extractLsb' 0 6)) = [b] := by
  simp only [encode]
  rw [tag_append_low_six (tag := 0#2) ((chunkKind_eq_index_iff t b).1 h)]

theorem encode_decoded_diff (h : chunkKind t b = .diff) :
    encode t (.diff (biasedField b 4 2 2) (biasedField b 2 2 2) (biasedField b 0 2 2)) = [b] := by
  simp only [encode, ofInt_biasedField_add]
  rw [tag_append_two_bit_fields (tag := 1#2) ((chunkKind_eq_diff_iff t b).1 h)]

theorem encode_decoded_luma (h : chunkKind t b = .luma) (b1 : Byte) :
    encode t (.luma (biasedField b 0 6 32) (biasedField b1 4 4 8) (biasedField b1 0 4 8)) = [b, b1] := by
  simp only [encode, ofInt_biasedField_add]
  rw [tag_append_low_six (tag := 2#2) ((chunkKind_eq_luma_iff t b).1 h), BitVec.extractLsb'_append_extractLsb']

theorem encode_decoded_run (h : chunkKind t b = .run) :
    encode t (.run ((b.extractLsb' 0 6).toNat + 1)) = [b] := by
  obtain ⟨hlo, hhi⟩ := (chunkKind_eq_run_iff t b).1 h
  simp only [encode, Nat.add_sub_cancel, BitVec.ofNat_toNat, BitVec.setWidth_eq]
  rw [tag_append_low_six (tag := 3#2) (show b.toNat / 64 = 3 by omega)]

theorem wellFormed_decoded_diff (b : Byte) :
    (Instr.diff (biasedField b 4 2 2) (biasedField b 2 2 2) (biasedField b 0 2 2)).wellFormed = true := by
  have hr := biasedField_range b 4 2 2
  have hg := biasedField_range b 2 2 2
  have hb := biasedField_range b 0 2 2
  exact (Instr.wellFormed_diff_iff _ _ _).2 (by omega)

theorem wellFormed_decoded_luma (b b1 : Byte) :
    (Instr.luma (biasedField b 0 6 32) (biasedField b1 4 4 8) (biasedField b1 0 4 8)).wellFormed = true := by
  have hg := biasedField_range b 0 6 32
  have hr := biasedField_range b1 4 4 8
  have hb := biasedField_range b1 0 4 8
  exact (Instr.wellFormed_luma_iff _ _ _).2 (by omega)

theorem wellFormed_decoded_run (h : chunkKind t b = .run) :
    (Instr.run ((b.extractLsb' 0 6).toNat + 1)).wellFormed = true := by
  have hle := Machine.chunkKind_run_le t b h
  exact (Instr.wellFormed_run_iff _).2 (by omega)

end EncodeByKind

/-- Settles O2, by the type that the first byte selects: the fields that were read, put together again, are the bytes. -/
theorem encodeOfDecode : Obligations.EncodeOfDecode := by
  intro t bytes i rest h
  cases bytes with
  | nil => cases h
  | cons b more =>
    cases hk : chunkKind t b with
    | index =>
      rw [decode_index hk] at h
      cases h
      exact ⟨rfl, by rw [encode_decoded_index hk, List.singleton_append]⟩
    | diff =>
      rw [decode_diff hk] at h
      cases h
      exact ⟨wellFormed_decoded_diff b, by rw [encode_decoded_diff hk, List.singleton_append]⟩
    | luma =>
      match more, h with
      | [], h => simp only [decode, hk, reduceCtorEq] at h
      | b1 :: more, h =>
        rw [decode_luma hk] at h
        cases h
        exact ⟨wellFormed_decoded_luma b b1, by rw [encode_decoded_luma hk, List.cons_append, List.singleton_append]⟩
    | run =>
      rw [decode_run hk] at h
      cases h
      exact ⟨wellFormed_decoded_run hk, by rw [encode_decoded_run hk, List.singleton_append]⟩
    | rgb =>
      obtain rfl := (chunkKind_eq_rgb_iff t b).1 hk
      match more, h with
      | [], h | [_], h | [_, _], h => simp only [decode, hk, reduceCtorEq] at h
      | r :: g :: bl :: more, h =>
        rw [decode_rgb] at h
        cases h
        exact ⟨rfl, rfl⟩
    | rgba =>
      obtain rfl := (chunkKind_eq_rgba_iff t b).1 hk
      match more, h with
      | [], h | [_], h | [_, _], h | [_, _, _], h => simp only [decode, hk, reduceCtorEq] at h
      | r :: g :: bl :: a :: more, h =>
        rw [decode_rgba] at h
        cases h
        exact ⟨rfl, rfl⟩

/-! ### The first byte, and the bytes in arithmetic -/

/-- Settles O3: a chunk is read where its bytes are there, and rejected where they run out. -/
theorem firstByteFixesLength : Obligations.FirstByteFixesLength := by
  intro t b rest
  refine ⟨?_, rfl⟩
  dsimp only
  rw [← chunkLen_by_value]
  split_ifs with hlen
  · obtain ⟨i, hi⟩ := decode_of_length_le hlen
    exact ⟨i, _, hi, rfl⟩
  · exact decode_of_length_lt (Nat.lt_of_not_le hlen)

/-- Settles O4, by the quarter that the first byte's value lies in. -/
theorem opcodeMapByValue : Obligations.OpcodeMapByValue := by
  intro t b c r g bl a rest
  refine ⟨fun h => ?_, fun h => ?_, fun h => ?_, fun h => ?_, decode_rgba .source r g bl a rest,
    decode_rgb .source r g bl rest, decode_rgb .swapped r g bl rest, decode_rgba .swapped r g bl a rest⟩
  · have hfield : b.extractLsb' 0 6 = BitVec.ofNat 6 b.toNat := by
      apply BitVec.eq_of_toNat_eq
      rw [low_six_toNat, BitVec.toNat_ofNat]
    rw [decode_index ((chunkKind_eq_index_iff t b).2 (by omega)), hfield]
  · rw [decode_diff ((chunkKind_eq_diff_iff t b).2 (by omega))]
    simp only [biasedField_eq, Except.ok.injEq, Prod.mk.injEq, Instr.diff.injEq, and_true]
    omega
  · rw [decode_luma ((chunkKind_eq_luma_iff t b).2 (by omega))]
    simp only [biasedField_eq, Except.ok.injEq, Prod.mk.injEq, Instr.luma.injEq, and_true]
    omega
  · have hrun : (b.extractLsb' 0 6).toNat + 1 = b.toNat - 0xC0 + 1 := by rw [low_six_toNat]; omega
    rw [decode_run ((chunkKind_eq_run_iff t b).2 h), hrun]

/-- Settles O5: a byte is the sum of its fields at their weights, and a biased operand in range is stored as it is. -/
theorem chunkBytesByArithmetic : Obligations.ChunkBytesByArithmetic := by
  intro t
  refine ⟨fun i => ?_, fun dr dg db h => ?_, fun dg drDg dbDg h => ?_, fun n h => ?_, fun _ _ _ => rfl,
    fun _ _ _ _ => rfl⟩
  · simp only [encode, List.map_cons, List.map_nil, toNat_append_eq_add, BitVec.toNat_ofNat, List.cons.injEq,
      and_true]
    omega
  · obtain ⟨hr, hg, hb⟩ := (Instr.wellFormed_diff_iff dr dg db).1 h
    have fr := toNat_ofInt_of_fits (len := 2) (x := dr + 2) (by omega) (by omega)
    have fg := toNat_ofInt_of_fits (len := 2) (x := dg + 2) (by omega) (by omega)
    have fb := toNat_ofInt_of_fits (len := 2) (x := db + 2) (by omega) (by omega)
    simp only [encode, List.map_cons, List.map_nil, toNat_append_eq_add, BitVec.toNat_ofNat, List.cons.injEq,
      and_true]
    omega
  · obtain ⟨hg, hr, hb⟩ := (Instr.wellFormed_luma_iff dg drDg dbDg).1 h
    have fg := toNat_ofInt_of_fits (len := 6) (x := dg + 32) (by omega) (by omega)
    have fr := toNat_ofInt_of_fits (len := 4) (x := drDg + 8) (by omega) (by omega)
    have fb := toNat_ofInt_of_fits (len := 4) (x := dbDg + 8) (by omega) (by omega)
    simp only [encode, List.map_cons, List.map_nil, toNat_append_eq_add, BitVec.toNat_ofNat, List.cons.injEq,
      and_true]
    omega
  · obtain ⟨hstored, -⟩ := storedRun_le h
    simp only [encode, List.map_cons, List.map_nil, toNat_append_eq_add, BitVec.toNat_ofNat, List.cons.injEq,
      and_true]
    omega

/-- Settles O6, by running the decoder on each word. -/
theorem specWordsDecode : Obligations.SpecWordsDecode := by
  unfold Obligations.SpecWordsDecode
  decide

end Sys2Proof
end

section
/-! PROOFS. The encoder's choice of a chunk (41_encoder.md R164, R167 to R172): which chunk it is in each case, and that
it is none of the non-canonical ones (30_encoding.md R118). -/

namespace Sys2Proof.Machine

/-- The encoder's DIFF test is that the DIFF chunk has an encoding (41_encoder.md R169; 30_encoding.md R110). -/
theorem fitsDiff_eq_wellFormed (dr dg db : Int) : fitsDiff dr dg db = (Instr.diff dr dg db).wellFormed := rfl

/-- The encoder's LUMA test is that the LUMA chunk has an encoding (41_encoder.md R170; 30_encoding.md R111). -/
theorem fitsLuma_eq_wellFormed (dr dg db : Int) :
    fitsLuma dr dg db = (Instr.luma dg (dr - dg) (db - dg)).wellFormed := rfl

/-- Everything the encoder can choose, with the tests that lead there (41_encoder.md R164). -/
theorem chooseChunk_cases (px prev slotPixel : Pixel) :
    let dr := (px.r - prev.r).toInt
    let dg := (px.g - prev.g).toInt
    let db := (px.b - prev.b).toInt
    let chunk := chooseChunk px prev slotPixel
    (slotPixel = px ∧ chunk = .index (hashOf px)) ∨
    (slotPixel ≠ px ∧ px.a ≠ prev.a ∧ chunk = .rgba px.r px.g px.b px.a) ∨
    (slotPixel ≠ px ∧ px.a = prev.a ∧ (Instr.diff dr dg db).wellFormed = true ∧ chunk = .diff dr dg db) ∨
    (slotPixel ≠ px ∧ px.a = prev.a ∧ (Instr.diff dr dg db).wellFormed = false ∧
      (Instr.luma dg (dr - dg) (db - dg)).wellFormed = true ∧ chunk = .luma dg (dr - dg) (db - dg)) ∨
    (slotPixel ≠ px ∧ px.a = prev.a ∧ (Instr.diff dr dg db).wellFormed = false ∧
      (Instr.luma dg (dr - dg) (db - dg)).wellFormed = false ∧ chunk = .rgb px.r px.g px.b) := by
  simp only [chooseChunk, delta_eq_toInt, fitsDiff_eq_wellFormed, fitsLuma_eq_wellFormed]
  split_ifs with hslot ha hdiff hluma
  · exact .inl ⟨hslot, rfl⟩
  · exact .inr (.inr (.inl ⟨hslot, ha, hdiff, rfl⟩))
  · exact .inr (.inr (.inr (.inl ⟨hslot, ha, Bool.eq_false_iff.2 hdiff, hluma, rfl⟩)))
  · exact .inr (.inr (.inr (.inr ⟨hslot, ha, Bool.eq_false_iff.2 hdiff, Bool.eq_false_iff.2 hluma, rfl⟩)))
  · exact .inr (.inl ⟨hslot, ha, rfl⟩)

/-- A byte difference of 0 is between equal bytes. -/
theorem eq_of_sub_toInt_eq_zero {a b : Byte} (h : (a - b).toInt = 0) : a = b :=
  sub_eq_zero.1 (BitVec.eq_of_toInt_eq (h.trans BitVec.toInt_zero.symm))

/-- Pixels with equal alpha and no delta are equal (41_encoder.md R168). -/
theorem Pixel.eq_of_deltas_eq_zero {px prev : Pixel} (ha : px.a = prev.a) (hr : (px.r - prev.r).toInt = 0)
    (hg : (px.g - prev.g).toInt = 0) (hb : (px.b - prev.b).toInt = 0) : px = prev := by
  cases px
  cases prev
  simp only [Pixel.mk.injEq]
  exact ⟨eq_of_sub_toInt_eq_zero hr, eq_of_sub_toInt_eq_zero hg, eq_of_sub_toInt_eq_zero hb, ha⟩

/-- Settles O24, by the chunk that is chosen: each clause follows from the tests that led to the choice. -/
theorem chosenChunkIsCanonical : Obligations.ChosenChunkIsCanonical := by
  intro px prev slotPixel hne dr dg db
  obtain ⟨hslot, h⟩ | ⟨hslot, ha, h⟩ | ⟨-, ha, hdiff, h⟩ | ⟨-, -, hdiff, hluma, h⟩ |
      ⟨hslot, -, hdiff, hluma, h⟩ :=
    chooseChunk_cases px prev slotPixel
  · rw [h]
    refine ⟨rfl, nofun, nofun, nofun, nofun, nofun, fun i hi => ?_⟩
    cases hi
    exact ⟨by rw [hslot], hslot⟩
  · rw [h]
    refine ⟨rfl, nofun, nofun, nofun, nofun, fun r g b a hi => ?_, nofun⟩
    cases hi
    exact ⟨hslot, ha⟩
  · rw [h]
    refine ⟨hdiff, nofun, fun hzero => hne ?_, nofun, nofun, nofun, nofun⟩
    obtain ⟨hr, hg, hb⟩ := Instr.diff.inj hzero
    exact Pixel.eq_of_deltas_eq_zero ha hr hg hb
  · rw [h]
    refine ⟨hluma, nofun, nofun, fun g rg bg hi => ?_, nofun, nofun, nofun⟩
    obtain ⟨rfl, rfl, rfl⟩ := Instr.luma.inj hi
    rwa [add_sub_cancel, add_sub_cancel]
  · rw [h]
    exact ⟨rfl, nofun, nofun, nofun, fun _ _ _ _ => ⟨hslot, hdiff, hluma⟩, nofun, nofun⟩

end Sys2Proof.Machine
end

section
/-! PROOFS. The encoder's pixel step as one record update per case (41_encoder.md R164 to R173): a repeated pixel counts
up the run or ends a run of 62, and any other closes the open run and is emitted. -/

namespace Sys2Proof.Machine

/-- The cache that RunContinue leaves: written only under ENC_CACHE_ON_RUN (41_encoder.md R165). -/
def Encoder.runCache (c : Config) (e : Encoder) : Cache :=
  if c.encCacheOnRun then cacheUpdate e.cache e.prev else e.cache

/-- The chunk of the next pixel where it differs from the previous one (41_encoder.md R164). -/
def Encoder.nextChunk (e : Encoder) : Instr :=
  chooseChunk (e.readPixel e.pix) e.prev (cacheRead e.cache (hashOf (e.readPixel e.pix)))

/-- The byte of an open run is its RUN chunk (41_encoder.md R166). -/
theorem Encoder.openRun_eq_encode (t : TagAssignment) {e : Encoder} (hrun : e.run ≠ 0) :
    e.openRun = encode t (.run e.run.toNat) := by
  rw [encode_run_toNat t e.run hrun]
  exact if_neg hrun

/-- Without a run there is no chunk to close it. -/
theorem Encoder.openRun_of_zero {e : Encoder} (h : e.run = 0) : e.openRun = [] := if_pos h

/-- The chunk that closes a run is one byte. -/
theorem Encoder.openRun_length_of_ne {e : Encoder} (h : e.run ≠ 0) : e.openRun.length = 1 := by
  rw [Encoder.openRun_eq_encode .source h]
  rfl

/-- RunFlush emits the open run, if there is one, and clears it (41_encoder.md R166). -/
theorem Encoder.runFlush_eq (c : Config) (e : Encoder) : e.runFlush c = { e.emit e.openRun with run := 0 } := by
  unfold Encoder.runFlush
  split
  · next hrun =>
    rw [Encoder.openRun_of_zero hrun, ← hrun]
    rfl
  · next hrun =>
    rw [Encoder.openRun_eq_encode c.tags hrun]
    rfl

/-- A pixel that repeats the previous one counts up the run. -/
theorem Encoder.pixelStep_repeat {e : Encoder} (hpx : e.readPixel e.pix = e.prev) (hrun : e.run + 1 ≠ 62)
    (c : Config) :
    e.pixelStep c = { e with run := e.run + 1, cache := e.runCache c, pix := e.pix + 1 } := by
  simp only [Encoder.pixelStep, Encoder.encodePixel, Encoder.runContinue, hpx, hrun, if_true, if_false,
    Encoder.runCache]
  split <;> rfl

/-- The pixel that makes a run of 62 ends it (41_encoder.md R165). -/
theorem Encoder.pixelStep_fullRun {e : Encoder} (hpx : e.readPixel e.pix = e.prev) (hrun : e.run + 1 = 62)
    (c : Config) :
    e.pixelStep c =
      { e.emit (encode c.tags (.run 62)) with run := 0, cache := e.runCache c, pix := e.pix + 1 } := by
  simp only [Encoder.pixelStep, Encoder.encodePixel, Encoder.runContinue, hpx, hrun, if_true, Encoder.runCache]
  split <;> rfl

/-- A pixel that differs from the previous one closes the open run and is emitted (41_encoder.md R164, R173). -/
theorem Encoder.pixelStep_change {e : Encoder} (hpx : e.readPixel e.pix ≠ e.prev) (c : Config) :
    e.pixelStep c =
      { e.emit (e.openRun ++ encode c.tags e.nextChunk) with
        run := 0, cache := cacheUpdate e.cache (e.readPixel e.pix), prev := e.readPixel e.pix, pix := e.pix + 1 } := by
  rw [← Encoder.emit_emit]
  simp only [Encoder.pixelStep, Encoder.encodePixel, hpx, if_false, Encoder.runFlush_eq]
  rfl

@[simp] theorem Encoder.pixelStep_pix (c : Config) (e : Encoder) : (e.pixelStep c).pix = e.pix + 1 := rfl

@[simp] theorem Encoder.pixelStep_prev (c : Config) (e : Encoder) : (e.pixelStep c).prev = e.readPixel e.pix := rfl

/-- A pixel step leaves PHASE, the stage, the pixel count and the pixels to read. -/
theorem Encoder.pixelStep_frame (c : Config) (e : Encoder) :
    (e.pixelStep c).phase = e.phase ∧ (e.pixelStep c).stage = e.stage ∧ (e.pixelStep c).n = e.n ∧
    (e.pixelStep c).readPixel = e.readPixel := by
  obtain ⟨run, opos, output, cache, hstep⟩ := e.pixelStep_shape c
  rw [hstep]
  exact ⟨rfl, rfl, rfl, rfl⟩

/-- The cache after a pixel step. -/
theorem Encoder.pixelStep_cache (c : Config) (e : Encoder) :
    (e.pixelStep c).cache =
      if e.readPixel e.pix = e.prev then e.runCache c else cacheUpdate e.cache (e.readPixel e.pix) := by
  split
  · next hpx =>
    by_cases hrun : e.run + 1 = 62
    · rw [Encoder.pixelStep_fullRun hpx hrun]
    · rw [Encoder.pixelStep_repeat hpx hrun]
  · next hpx => rw [Encoder.pixelStep_change hpx]

end Sys2Proof.Machine
end

section
/-! PROOFS. The hash (40_cache_hash.md R141), and the slot invariant over every event of an engine (R147). -/

namespace Sys2Proof.Machine

/-! ### The hash (40_cache_hash.md R141) -/

/-- The hash sum has at most 13 bits (40_cache_hash.md R141). -/
theorem hashSum_le (px : Pixel) : hashSum px ≤ 6630 := by
  have hr := px.r.isLt
  have hg := px.g.isLt
  have hb := px.b.isLt
  have ha := px.a.isLt
  unfold hashSum
  omega

/-- Settles O7: six bits keep the sum modulo 64, and four bytes of at most 255 bound it. -/
theorem hashIsSumModSixtyFour : Obligations.HashIsSumModSixtyFour :=
  ⟨fun px => ⟨BitVec.toNat_ofNat _ _, hashSum_le px⟩, rfl, rfl, rfl, rfl, rfl⟩

/-! ### The slot invariant (40_cache_hash.md R147) -/

/-- The cleared cache meets the slot invariant. -/
theorem slotsOk_zero : slotsOk Cache.zero := fun i => .inl (cacheRead_zero i)

/-- CacheUpdate keeps the slot invariant: the pixel goes to the slot of its own hash. -/
theorem slotsOk.cacheUpdate {cache : Cache} (h : slotsOk cache) (px : Pixel) : slotsOk (cacheUpdate cache px) := by
  intro i
  rw [cacheRead_cacheUpdate]
  split
  · next hi => exact .inr hi.symm
  · exact h i

/-- RunContinue keeps the slot invariant. -/
theorem slotsOk.runCache {e : Encoder} (h : slotsOk e.cache) (c : Config) : slotsOk (e.runCache c) := by
  unfold Encoder.runCache
  split
  · exact h.cacheUpdate _
  · exact h

/-- A step of an encoder keeps the slot invariant: INIT clears the cache, and a pixel step writes by CacheUpdate. -/
theorem Encoder.step_slotsOk {e : Encoder} (h : slotsOk e.cache) (c : Config) : slotsOk (e.step c).cache := by
  obtain ⟨-, hstep⟩ | ⟨-, -, hstep⟩ | ⟨-, hstep⟩ | ⟨-, -, -, hstep⟩ := e.step_cases c <;> rw [hstep]
  · exact h
  · obtain ⟨-, n, hinit⟩ | ⟨-, hinit⟩ := e.initStep_cases c <;> rw [hinit]
    · exact h
    · exact slotsOk_zero
  · rw [Encoder.pixelStep_cache]
    split
    · exact h.runCache c
    · exact h.cacheUpdate _
  · obtain ⟨output, hfinal⟩ := e.finalStep_shape c
    rw [hfinal]
    exact h

/-- A step of a decoder keeps the slot invariant: INIT clears the cache, and PixelCommit writes by CacheUpdate. -/
theorem Decoder.step_slotsOk {d : Decoder} (h : slotsOk d.cache) (c : Config) (m : Memory) :
    slotsOk (d.step c m).cache := by
  obtain ⟨-, hstep⟩ | ⟨-, -, hstep⟩ | ⟨-, -, hstep⟩ | ⟨-, -, -, hstep⟩ | ⟨i, len, -, -, -, hstep⟩ |
    ⟨-, -, -, hstep⟩ := d.step_cases c m <;> rw [hstep]
  · exact h
  · obtain ⟨-, w, ht, ch, cs, n, hinit⟩ | ⟨-, hinit⟩ := d.initStep_cases c m <;> rw [hinit]
    · exact h
    · exact slotsOk_zero
  · exact h.cacheUpdate _
  · exact h
  · rw [Decoder.execChunk_eq]
    exact h.cacheUpdate _
  · obtain ⟨pos, code, -, hfinal⟩ | ⟨-, -, hfinal⟩ := d.finalStep_cases c m <;> rw [hfinal]
    · exact h
    · exact h

/-- Every event of an encoder keeps the slot invariant. -/
theorem Encoder.Event.slotsOk {c : Config} {k : Nat} {m : Option Move} {e e' : Encoder}
    (hevent : Encoder.Event c k m e e') (h : slotsOk e.cache) : slotsOk e'.cache := by
  cases hevent with
  | stays | stores => exact h
  | steps => exact Encoder.step_slotsOk h c
  | @writes reg value =>
    obtain ⟨-, -, hidle, hw⟩ | ⟨w, ht, ch, cs, len, hw⟩ := e.writeReg_cases c reg value <;> rw [hw]
    · rw [Encoder.start_not_busy hidle]
      exact h
    · exact h
  | observes =>
    rw [Encoder.observe_eq]
    exact h
  | resets => exact slotsOk_zero

/-- Every event of a decoder keeps the slot invariant. -/
theorem Decoder.Event.slotsOk {c : Config} {k : Nat} {m : Option Move} {d d' : Decoder}
    (hevent : Decoder.Event c k m d d') (h : slotsOk d.cache) : slotsOk d'.cache := by
  cases hevent with
  | stays | stores | opens => exact h
  | steps _ stream => exact Decoder.step_slotsOk h c stream
  | @writes reg value =>
    obtain ⟨-, -, hidle, hw⟩ | ⟨len, hw⟩ := d.writeReg_cases c reg value <;> rw [hw]
    · rw [Decoder.start_not_busy hidle]
      exact h
    · exact h
  | observes =>
    rw [Decoder.observe_eq]
    exact h
  | resets => exact slotsOk_zero

/-- Settles O44: the slot invariant of a cache survives every event of its engine. -/
theorem stepKeepsSlotInvariant : Obligations.StepKeepsSlotInvariant := by
  rintro s t ⟨hencs, hdecs⟩ h
  exact ⟨step_keeps_encs (P := fun e => slotsOk e.cache) h hencs fun hevent he => hevent.slotsOk he,
    step_keeps_decs (P := fun d => slotsOk d.cache) h hdecs fun hevent hd => hevent.slotsOk hd⟩

end Sys2Proof.Machine
end

section
/-! PROOFS. The encoder's choice read by a decoder: the chosen chunk stands for the pixel (41_encoder.md R164, R168;
42_decoder.md R207 to R211), a chunk's bytes are fetched as that chunk (R206), and the emitted header is parsed to the
request (R202). -/

namespace Sys2Proof.Machine

/-! ### The chosen chunk stands for the pixel -/

/-- Adding the signed difference gives the byte back (00_scope.md R10; 41_encoder.md R168). -/
theorem wrap8_add_delta (a b : Byte) : wrap8 (u8 b + (a - b).toInt) = a := by
  unfold wrap8 u8
  rw [BitVec.ofInt_add, BitVec.ofInt_natCast, BitVec.ofNat_toNat, BitVec.setWidth_eq, BitVec.ofInt_toInt]
  exact add_sub_cancel b a

/-- DIFF with the differences to a pixel of the same alpha gives that pixel (42_decoder.md R210). -/
theorem diffPixel_deltas {px prev : Pixel} (ha : px.a = prev.a) :
    diffPixel prev (px.r - prev.r).toInt (px.g - prev.g).toInt (px.b - prev.b).toInt = px := by
  unfold diffPixel
  rw [wrap8_add_delta, wrap8_add_delta, wrap8_add_delta, ← ha]

/-- LUMA adds the green difference and the relative ones to the whole differences (42_decoder.md R211). -/
theorem lumaPixel_eq_diffPixel (prev : Pixel) (dr dg db : Int) :
    lumaPixel prev dg (dr - dg) (db - dg) = diffPixel prev dr dg db := by
  unfold lumaPixel diffPixel
  rw [add_assoc, add_sub_cancel, add_assoc, add_sub_cancel]

/-- The chunk chosen for a pixel stands for it, for a decoder that holds the same previous pixel and hits in its cache
where the encoder does (41_encoder.md R164; 42_decoder.md R207 to R211). -/
theorem chunkPixel_chooseChunk {px prev slotPixel : Pixel} {cache : Cache}
    (hit : slotPixel = px → cacheRead cache (hashOf px) = px) :
    chunkPixel prev cache (chooseChunk px prev slotPixel) = px := by
  obtain ⟨hslot, h⟩ | ⟨-, -, h⟩ | ⟨-, ha, -, h⟩ | ⟨-, ha, -, -, h⟩ | ⟨-, ha, -, -, h⟩ :=
    chooseChunk_cases px prev slotPixel <;> rw [h]
  · exact hit hslot
  · rfl
  · exact diffPixel_deltas ha
  · exact (lumaPixel_eq_diffPixel _ _ _ _).trans (diffPixel_deltas ha)
  · show rgbPixel prev px.r px.g px.b = px
    rw [rgbPixel, ← ha]

/-- The chunk chosen for a pixel that differs opens no run (30_encoding.md R118). -/
theorem chunkRun_chooseChunk (run : BitVec 6) (px prev slotPixel : Pixel) :
    chunkRun run (chooseChunk px prev slotPixel) = run := by
  obtain ⟨-, h⟩ | ⟨-, -, h⟩ | ⟨-, -, -, h⟩ | ⟨-, -, -, -, h⟩ | ⟨-, -, -, -, h⟩ :=
    chooseChunk_cases px prev slotPixel <;> rw [h] <;> rfl

/-! ### A chunk's bytes are fetched as that chunk -/

/-- The first byte of an encoded chunk gives its length (30_encoding.md R116). -/
theorem encode_eq_cons (t : TagAssignment) {i : Instr} (hi : i.wellFormed = true) :
    ∃ b rest, encode t i = b :: rest ∧ chunkLen t b = (encode t i).length := by
  cases i with
  | index i => exact Laws.EncodedLength.index i t hi
  | diff dr dg db => exact Laws.EncodedLength.diff dr dg db t hi
  | luma dg drDg dbDg => exact Laws.EncodedLength.luma dg drDg dbDg t hi
  | run n => exact Laws.EncodedLength.run n t hi
  | rgb r g b => exact Laws.EncodedLength.rgb r g b t hi
  | rgba r g b a => exact Laws.EncodedLength.rgba r g b a t hi

/-- Two chunks with the same bytes are the same chunk. -/
theorem encode_injective {t : TagAssignment} {i j : Instr} (hi : i.wellFormed = true) (hj : j.wellFormed = true)
    (h : encode t i = encode t j) : i = j := by
  have hdecode := decodeOfEncode t i [] hi
  rw [h, decodeOfEncode t j [] hj] at hdecode
  simpa using hdecode.symm

/-- Where the bytes of a chunk stand in the stream, that chunk is fetched (42_decoder.md R206). -/
theorem Decoder.fetchChunk_of_bytes {c : Config} {m : Memory} {d : Decoder} {i : Instr} (hi : i.wellFormed = true)
    (hbytes : m.readBytes d.pos (encode c.tags i).length = encode c.tags i)
    (hlen : d.pos + (encode c.tags i).length ≤ d.inLen) :
    d.fetchChunk c m = some (i, (encode c.tags i).length) := by
  obtain ⟨b, rest, hcons, hchunk⟩ := encode_eq_cons c.tags hi
  have hfirst : m.read d.pos = b := by
    rw [hcons] at hbytes
    exact (List.cons.inj hbytes).1
  have hpos : 0 < (encode c.tags i).length := by rw [hcons]; exact Nat.succ_pos _
  have hdecode := decodeOfEncode c.tags i [] hi
  rw [List.append_nil] at hdecode
  unfold Decoder.fetchChunk
  rw [if_neg (by omega), hfirst, hchunk]
  dsimp only
  rw [if_neg (by omega), hbytes, hdecode]

/-! ### A pixel step of the decoder (42_decoder.md R204, R205) -/

/-- Without an open run, the decoder's step is the chunk whose bytes stand at d.pos. -/
theorem Decoder.step_of_bytes {c : Config} {m : Memory} {d : Decoder} {i : Instr} (hd : d.atPixel) (hrun : d.run = 0)
    (hi : i.wellFormed = true) (hlen : d.pos + (encode c.tags i).length ≤ d.inLen)
    (hbytes : m.readBytes d.pos (encode c.tags i).length = encode c.tags i) :
    d.step c m = Decoder.commit { d with pos := d.pos + (encode c.tags i).length, run := chunkRun 0 i }
      (chunkPixel d.prev d.cache i) := by
  rw [Decoder.step_pixel hd, Decoder.pixelStep, if_neg (not_not.2 hrun), Decoder.fetchChunk_of_bytes hi hbytes hlen]
  dsimp only
  rw [Decoder.execChunk_eq]
  dsimp only
  rw [hrun]

/-- With an open run, the decoder's step replays the previous pixel (42_decoder.md R205). -/
theorem Decoder.step_of_run {d : Decoder} (hd : d.atPixel) (hrun : d.run ≠ 0) (c : Config) (m : Memory) :
    d.step c m = Decoder.commit { d with pos := d.pos, run := d.run - 1 } d.prev := by
  rw [Decoder.step_pixel hd, Decoder.pixelStep, if_pos hrun]
  rfl

/-! ### The emitted header is parsed to the request -/

/-- The four bytes of a word, put together (20_memory.md R73). -/
theorem ofBe32_extract (v : Word32) :
    ofBe32 (v.extractLsb' 24 8) (v.extractLsb' 16 8) (v.extractLsb' 8 8) (v.extractLsb' 0 8) = v := by
  apply BitVec.eq_of_toNat_eq
  have := v.isLt
  simp only [ofBe32_toNat, BitVec.extractLsb'_toNat, Nat.shiftRight_eq_div_pow]
  omega

/-- A stream that starts with the header of a request has its MAGIC, and its fields are the request's
(30_encoding.md R101; 42_decoder.md R202). -/
theorem Decoder.parseHeader_of_bytes {c : Config} {m : Memory} {w h : Word32} {ch cs : Byte}
    (hbytes : m.readBytes 0 (hdrLen c) = headerBytes c w h ch cs) (d : Decoder) :
    m.readBytes 0 (magicLen c) = c.magic ∧ d.parseHeader c m = { d with w := w, h := h, ch := ch, cs := cs } := by
  have hsplit : m.readBytes 0 (magicLen c) ++ m.readBytes (magicLen c) 10 =
      c.magic ++ (be32 w ++ be32 h ++ [ch, cs]) := by
    rw [hdrLen, Memory.readBytes_add, Nat.zero_add] at hbytes
    simpa only [headerBytes, List.append_assoc] using hbytes
  obtain ⟨hmagic, hfields⟩ := List.append_inj hsplit (by simp [magicLen])
  refine ⟨hmagic, ?_⟩
  simp only [Memory.readBytes, be32, List.cons_append, List.nil_append, List.cons.injEq, and_true, Nat.add_assoc,
    Nat.reduceAdd] at hfields
  obtain ⟨h0, h1, h2, h3, h4, h5, h6, h7, h8, h9⟩ := hfields
  simp only [Decoder.parseHeader, headerByte, Nat.add_zero, h0, h1, h2, h3, h4, h5, h6, h7, h8, h9, ofBe32_extract]

/-- INIT passes on a stream that starts with the header of a legal request (42_decoder.md R202, R203). -/
theorem Decoder.initStep_of_header {c : Config} {m : Memory} {d : Decoder} {e : Encoder} (hlegal : e.legal c)
    (hlen : hdrLen c ≤ d.inLen) (hbytes : m.readBytes 0 (hdrLen c) = headerBytes c e.w e.h e.ch e.cs) :
    d.initStep c m = Decoder.clearWorking c
      { d with w := e.w, h := e.h, ch := e.ch, cs := e.cs, n := e.w.toNat * e.h.toNat } := by
  obtain ⟨hmagic, hparse⟩ := Decoder.parseHeader_of_bytes hbytes d
  obtain ⟨hch, hcs, hw, hh, hmax, -⟩ := hlegal
  have hformat : (channelsOk e.ch && colorspaceOk e.cs) = true := (channelsOk_and_colorspaceOk _ _).2 ⟨hch, hcs⟩
  have hover : overMaxPixels c (e.w.toNat * e.h.toNat) = false :=
    Bool.eq_false_iff.2 (mt (overMaxPixels_iff _ _).1 (not_not.2 hmax))
  simp only [Decoder.initStep, Nat.not_lt.2 hlen, hmagic, ne_eq, not_true_eq_false, hparse, hformat, hw, hh, hover,
    or_self, if_false, Bool.true_eq_false, Bool.false_eq_true]

end Sys2Proof.Machine
end

section
/-! PROOFS. The stream of a running encode: what an encoder has emitted stays in ENC_OUT to the end (10_state.md R34),
and an open run ends in one RUN chunk at e.opos, at least as long as it is so far (41_encoder.md R165, R166). -/

namespace Sys2Proof.Machine

/-! ### Bytes emitted -/

/-- The stream `m`, `len` bytes long, starts with the bytes that `e` has emitted. -/
structure Encoder.EmittedIn (e : Encoder) (m : Memory) (len : Nat) : Prop where
  le : e.opos ≤ len
  read : ∀ a, a < e.opos → m.read a = e.output.read a

/-- A stream that holds what was emitted after an append holds what was emitted before, and the bytes appended. -/
theorem Encoder.EmittedIn.of_appends {e e' : Encoder} {m : Memory} {len : Nat} {bytes : List Byte}
    (h : e'.EmittedIn m len) (happ : e.Appends e' bytes) :
    e.EmittedIn m len ∧ e.opos + bytes.length ≤ len ∧ m.readBytes e.opos bytes.length = bytes := by
  obtain ⟨hpos, hread, hkeep⟩ := happ
  have hle := hpos ▸ h.le
  refine ⟨⟨by omega, fun a ha => ?_⟩, hle, ?_⟩
  · rw [h.read a (by omega), hkeep a (.inl ha)]
  · exact (Memory.readBytes_congr _ _ _ _ fun a _ ha => h.read a (by omega)).trans hread

/-- The next pixel repeats the previous one: nothing is appended, or the chunk of a run of 62. -/
theorem Encoder.pixelStep_appends_repeat {e : Encoder} (hpx : e.readPixel e.pix = e.prev) (c : Config) :
    e.Appends (e.pixelStep c) (if e.run + 1 = 62 then encode c.tags (.run 62) else []) := by
  split
  · next hrun =>
    rw [Encoder.pixelStep_fullRun hpx hrun]
    exact e.emit_appends _
  · next hrun =>
    rw [Encoder.pixelStep_repeat hpx hrun]
    exact Encoder.appends_nil rfl rfl

/-- The next pixel differs: the open run's chunk and the pixel's are appended. -/
theorem Encoder.pixelStep_appends_change {e : Encoder} (hpx : e.readPixel e.pix ≠ e.prev) (c : Config) :
    e.Appends (e.pixelStep c) (e.openRun ++ encode c.tags e.nextChunk) := by
  rw [Encoder.pixelStep_change hpx]
  exact e.emit_appends _

/-- A pixel step appends to ENC_OUT. -/
theorem Encoder.pixelStep_appends (c : Config) (e : Encoder) : ∃ bytes, e.Appends (e.pixelStep c) bytes := by
  by_cases hpx : e.readPixel e.pix = e.prev
  · exact ⟨_, Encoder.pixelStep_appends_repeat hpx c⟩
  · exact ⟨_, Encoder.pixelStep_appends_change hpx c⟩

/-- FINAL appends the open run's chunk and the end marker (41_encoder.md R174). -/
theorem Encoder.finalStep_appends (c : Config) (e : Encoder) :
    e.Appends (e.finalStep c) (e.openRun ++ endMarker) := by
  obtain ⟨hflush, -, -⟩ := e.runFlush_spec c
  exact Encoder.appends_trans hflush ((e.runFlush c).emit_appends endMarker)

/-- INIT of a legal request emits the header and starts the body (41_encoder.md R162). -/
theorem Encoder.initStep_legal {c : Config} {e : Encoder} (hlegal : e.legal c) :
    e.initStep c = { (Encoder.clearWorking { e with n := e.w.toNat * e.h.toNat }).emit
      (headerBytes c e.w e.h e.ch e.cs) with stage := .body } :=
  ((e.initStep_cases c).resolve_left fun h => h.1 hlegal).2

/-! ### The end of an encode -/

/-- The encoder in BODY after its remaining pixels and FINAL. -/
def Encoder.finished (c : Config) (e : Encoder) : Encoder := (Encoder.step c)^[e.n - e.pix + 1] e

/-- A pixel step comes closer to the same end. -/
theorem Encoder.finished_pixelStep {e : Encoder} (h : e.atPixel) (c : Config) :
    (e.pixelStep c).finished c = e.finished c := by
  obtain ⟨-, -, hn, -⟩ := e.pixelStep_frame c
  obtain ⟨-, -, hpix⟩ := id h
  have hcount : e.n - e.pix = (e.pixelStep c).n - (e.pixelStep c).pix + 1 := by
    rw [hn, Encoder.pixelStep_pix]
    omega
  unfold Encoder.finished
  rw [hcount, Function.iterate_succ_apply _ _ e, Encoder.step_pixel h]

/-- After the last pixel there is FINAL alone. -/
theorem Encoder.finished_last {e : Encoder} (hb : e.phase = .busy) (hs : e.stage = .body) (hpix : e.pix = e.n)
    (c : Config) : e.finished c = e.finalStep c := by
  unfold Encoder.finished
  rw [hpix, Nat.sub_self]
  exact Encoder.step_final hb hs (by omega)

/-- The pixel counter of a running encoder (10_state.md R33). -/
theorem Encoder.bodyInv.pix_le {c : Config} {e : Encoder} (h : e.bodyInv c) : e.pix ≤ e.n := h.2.2.1

/-- The run counter of a running encoder (10_state.md R36). -/
theorem Encoder.bodyInv.run_le {c : Config} {e : Encoder} (h : e.bodyInv c) : e.run.toNat ≤ 61 := h.2.2.2.1

/-- `e` is in BODY of a legal encode, and `m`, `len` bytes long, starts with the stream that the encode
comes to. -/
structure Encoder.Streams (c : Config) (m : Memory) (len : Nat) (e : Encoder) : Prop where
  busy : e.phase = .busy
  body : e.stage = .body
  inv : e.bodyInv c
  ends : (e.finished c).EmittedIn m len

section Streams
variable {c : Config} {m : Memory} {len : Nat} {e : Encoder}

theorem Encoder.Streams.atPixel (h : e.Streams c m len) (hpix : e.pix < e.n) : e.atPixel := ⟨h.busy, h.body, hpix⟩

/-- A pixel step stays on the way to the same stream. -/
theorem Encoder.Streams.pixelStep (h : e.Streams c m len) (hpix : e.pix < e.n) :
    (e.pixelStep c).Streams c m len := by
  obtain ⟨hphase, hstage, -⟩ := e.pixelStep_frame c
  exact ⟨hphase.trans h.busy, hstage.trans h.body, h.inv.pixelStep hpix,
    (Encoder.finished_pixelStep (h.atPixel hpix) c).symm ▸ h.ends⟩

/-- INIT of a legal request, of which `m` holds the whole encode's stream. -/
theorem Encoder.initStep_streams (hb : e.phase = .busy) (hs : e.stage = .init) (hlegal : e.legal c)
    (hends : ((Encoder.step c)^[e.w.toNat * e.h.toNat + 2] e).EmittedIn m len) : (e.initStep c).Streams c m len := by
  rw [Function.iterate_succ_apply, Encoder.step_init hb hs] at hends
  rw [Encoder.initStep_legal hlegal] at hends ⊢
  exact ⟨hb, rfl, Encoder.initStep_bodyInv hlegal, hends⟩

/-- What holds before FINAL, and before a pixel step where it holds after it, holds all along an encode. -/
theorem Encoder.Streams.induction {P : ∀ e : Encoder, e.Streams c m len → Prop}
    (last : ∀ (e : Encoder) (h : e.Streams c m len), e.pix = e.n → P e h)
    (pixel : ∀ (e : Encoder) (h : e.Streams c m len) (hpix : e.pix < e.n),
      P (e.pixelStep c) (h.pixelStep hpix) → P e h)
    (h : e.Streams c m len) : P e h := by
  have hle := h.inv.pix_le
  induction hleft : e.n - e.pix generalizing e with
  | zero => exact last e h (by omega)
  | succ left ih =>
    have hpix : e.pix < e.n := by omega
    obtain ⟨-, -, hn, -⟩ := e.pixelStep_frame c
    exact pixel e h hpix (ih _ (h.pixelStep hpix).inv.pix_le (by rw [hn, Encoder.pixelStep_pix]; omega))

/-- All along an encode the stream starts with the bytes emitted so far. -/
theorem Encoder.Streams.emitted (h : e.Streams c m len) : e.EmittedIn m len := by
  induction h using Encoder.Streams.induction with
  | last e h hpix =>
    have hends := h.ends
    rw [Encoder.finished_last h.busy h.body hpix] at hends
    exact (hends.of_appends (e.finalStep_appends c)).1
  | pixel e h hpix ih =>
    obtain ⟨bytes, happ⟩ := e.pixelStep_appends c
    exact (ih.of_appends happ).1

/-- What a step appends stands in the stream. -/
theorem Encoder.Streams.appended {bytes : List Byte} (h : e.Streams c m len) (hpix : e.pix < e.n)
    (happ : e.Appends (e.pixelStep c) bytes) :
    e.opos + bytes.length ≤ len ∧ m.readBytes e.opos bytes.length = bytes :=
  ((h.pixelStep hpix).emitted.of_appends happ).2

/-- The stream holds a RUN chunk of `n` pixels at `pos` (30_encoding.md R112). -/
structure Memory.RunAt (c : Config) (m : Memory) (len pos n : Nat) : Prop where
  max : n ≤ 62
  inside : pos + 1 ≤ len
  read : m.readBytes pos 1 = encode c.tags (.run n)

/-- The RUN chunk at one place of the stream has one length. -/
theorem Memory.RunAt.unique {pos n k : Nat} (hn : m.RunAt c len pos n) (hk : m.RunAt c len pos k) (hn1 : 1 ≤ n)
    (hk1 : 1 ≤ k) : n = k :=
  Instr.run.inj (encode_injective ((Instr.wellFormed_run_iff n).2 ⟨hn1, hn.max⟩)
    ((Instr.wellFormed_run_iff k).2 ⟨hk1, hk.max⟩) (hn.read.symm.trans hk.read))

/-- A stream that goes on with the open run's chunk. -/
theorem Encoder.runAt_of_flush {rest : List Byte} (hrun : e.run ≠ 0) (hmax : e.run.toNat ≤ 61)
    (hlen : e.opos + (e.openRun ++ rest).length ≤ len)
    (hread : m.readBytes e.opos (e.openRun ++ rest).length = e.openRun ++ rest) : m.RunAt c len e.opos e.run.toNat := by
  rw [Encoder.openRun_eq_encode c.tags hrun] at hlen hread
  rw [List.length_append, show (encode c.tags (.run e.run.toNat)).length = 1 from rfl] at hlen hread
  refine ⟨by omega, by omega, ?_⟩
  rw [Memory.readBytes_add] at hread
  exact (List.append_inj hread (by simp [encode])).1

/-- An open run ends in one RUN chunk at e.opos, for the pixels counted so far or more (41_encoder.md R165, R166). -/
theorem Encoder.Streams.openRun_ends (h : e.Streams c m len) (hrun : e.run ≠ 0) :
    ∃ n, e.run.toNat ≤ n ∧ m.RunAt c len e.opos n := by
  induction h using Encoder.Streams.induction with
  | last e h hpix =>
    have hends := h.ends
    rw [Encoder.finished_last h.busy h.body hpix] at hends
    obtain ⟨-, hlen, hread⟩ := hends.of_appends (e.finalStep_appends c)
    exact ⟨_, le_rfl, Encoder.runAt_of_flush hrun h.inv.run_le hlen hread⟩
  | pixel e h hpix ih =>
    have hmax := h.inv.run_le
    by_cases hpx : e.readPixel e.pix = e.prev
    · by_cases hfull : e.run + 1 = 62
      · have happ := Encoder.pixelStep_appends_repeat hpx c
        rw [if_pos hfull] at happ
        obtain ⟨hlen, hread⟩ := h.appended hpix happ
        exact ⟨62, hmax.trans (by decide), le_rfl, hlen, hread⟩
      · rw [Encoder.pixelStep_repeat hpx hfull] at ih
        obtain ⟨n, hle, hn⟩ := ih (by show e.run + 1 ≠ 0; bv_omega)
        exact ⟨n, by change (e.run + 1).toNat ≤ n at hle; bv_omega, hn⟩
    · obtain ⟨hlen, hread⟩ := h.appended hpix (Encoder.pixelStep_appends_change hpx c)
      exact ⟨_, le_rfl, Encoder.runAt_of_flush hrun hmax hlen hread⟩

end Streams

end Sys2Proof.Machine
end

section
/-! PROOFS. An encoder and a decoder of its stream, pixel by pixel (40_cache_hash.md R148): they hold the same previous
pixel and, but for slot 53 where the encoder does not cache runs, the same cache. -/

namespace Sys2Proof.Machine

/-! ### The two caches -/

/-- The caches agree slot by slot, but that without ENC_CACHE_ON_RUN the decoder may have cached the initial previous
pixel, in slot 53, where the encoder has not (40_cache_hash.md R148). -/
def CachesAgree (c : Config) (ec dc : Cache) : Prop :=
  ∀ i : Slot, cacheRead dc i = cacheRead ec i ∨
    (c.encCacheOnRun = false ∧ i = 53 ∧ cacheRead ec i = Pixel.zero ∧ cacheRead dc i = Pixel.initial)

/-- The encoder's previous pixel is in its cache, or is the initial one and its slot was never written. -/
def Encoder.PrevCached (e : Encoder) : Prop :=
  cacheRead e.cache (hashOf e.prev) = e.prev ∨
    (e.prev = Pixel.initial ∧ cacheRead e.cache (hashOf e.prev) = Pixel.zero)

section Caches
variable {c : Config} {e : Encoder} {ec dc : Cache}

/-- CacheUpdate with the same pixel keeps caches in agreement. -/
theorem CachesAgree.cacheUpdate (h : CachesAgree c ec dc) (px : Pixel) :
    CachesAgree c (cacheUpdate ec px) (cacheUpdate dc px) := by
  intro i
  rw [cacheRead_cacheUpdate, cacheRead_cacheUpdate]
  split
  · exact .inl rfl
  · exact h i

/-- Where the encoder hits, the decoder does: slot 53 of (0,0,0,0) is no hit, because that pixel has another hash. -/
theorem CachesAgree.hit (h : CachesAgree c ec dc) {px : Pixel} (hslot : cacheRead ec (hashOf px) = px) :
    cacheRead dc (hashOf px) = px := by
  obtain heq | ⟨-, hi, hzero, -⟩ := h (hashOf px)
  · rw [heq, hslot]
  · rw [hslot.symm.trans hzero] at hi
    exact absurd hi (by decide)

/-- A repeated pixel: the decoder caches it, and the encoder has cached it before or caches it too, but for the initial
previous pixel. -/
theorem CachesAgree.runCache (h : CachesAgree c e.cache dc) (hprev : e.PrevCached) :
    CachesAgree c (e.runCache c) (Machine.cacheUpdate dc e.prev) := by
  unfold Encoder.runCache
  split
  · exact h.cacheUpdate _
  · next hoff =>
    intro i
    rw [cacheRead_cacheUpdate]
    split
    · next hi =>
      subst hi
      obtain hcached | ⟨hinit, hzero⟩ := hprev
      · exact .inl hcached.symm
      · exact .inr ⟨Bool.eq_false_iff.2 hoff, by rw [hinit]; rfl, hzero, hinit⟩
    · exact h i

/-- A pixel step keeps the caches in agreement, where the decoder commits the same pixel. -/
theorem CachesAgree.pixelStep (h : CachesAgree c e.cache dc) (hprev : e.PrevCached) :
    CachesAgree c (e.pixelStep c).cache (Machine.cacheUpdate dc (e.readPixel e.pix)) := by
  rw [Encoder.pixelStep_cache]
  split
  · next hpx =>
    rw [hpx]
    exact h.runCache hprev
  · exact h.cacheUpdate _

/-- After a pixel step the previous pixel is cached, or still the initial one. -/
theorem Encoder.PrevCached.pixelStep (h : e.PrevCached) (c : Config) : (e.pixelStep c).PrevCached := by
  unfold Encoder.PrevCached
  rw [Encoder.pixelStep_cache, Encoder.pixelStep_prev]
  split
  · next hpx =>
    rw [hpx]
    unfold Encoder.runCache
    split
    · exact .inl (cacheRead_cacheUpdate_same _ _)
    · exact h
  · exact .inl (cacheRead_cacheUpdate_same _ _)

end Caches

/-! ### Lockstep -/

/-- `d` has decoded from the stream `m` as many pixels as `e` has encoded. An open run of `e` is one RUN chunk of the
stream, which `d` has fetched, and the rest of which it is still to replay. -/
structure Lockstep (c : Config) (m : Memory) (e : Encoder) (d : Decoder) : Prop where
  streams : e.Streams c m d.inLen
  prevCached : e.PrevCached
  phase : d.phase = .busy
  stage : d.stage = .body
  n : d.n = e.n
  pix : d.pix = e.pix
  prev : d.prev = e.prev
  cache : CachesAgree c e.cache d.cache
  pos : d.pos = e.opos + e.openRun.length
  noRun : e.run = 0 → d.run = 0
  openRun : e.run ≠ 0 → m.RunAt c d.inLen e.opos (e.run.toNat + d.run.toNat)

section Lockstep
variable {c : Config} {m : Memory} {e : Encoder} {d : Decoder}

/-- After INIT of both engines (41_encoder.md R162; 42_decoder.md R203). -/
theorem lockstep_init (hlegal : e.legal c) (hbusy : d.phase = .busy)
    (streams : (e.initStep c).Streams c m d.inLen) : Lockstep c m (e.initStep c) (d.initStep c m) := by
  rw [Encoder.initStep_legal hlegal] at streams ⊢
  obtain ⟨-, hlen, hbytes⟩ := streams.emitted.of_appends
    (Encoder.emit_appends (Encoder.clearWorking { e with n := e.w.toNat * e.h.toNat })
      (headerBytes c e.w e.h e.ch e.cs))
  rw [headerBytes_length] at hlen hbytes
  rw [Encoder.clearWorking_opos, Nat.zero_add] at hlen
  rw [Decoder.initStep_of_header hlegal hlen hbytes]
  exact {
    streams := streams
    prevCached := .inr ⟨rfl, cacheRead_zero _⟩
    phase := hbusy
    stage := rfl, n := rfl, pix := rfl, prev := rfl
    cache := fun _ => .inl rfl
    pos := by simp [Decoder.clearWorking, Encoder.openRun]
    noRun := fun _ => rfl
    openRun := fun h => absurd rfl h }

/-- When both engines commit the same pixel, and their positions and runs fit, they stay in lockstep. -/
theorem Lockstep.commit (h : Lockstep c m e d) (hpix : e.pix < e.n) {pos : Nat} {run : BitVec 6}
    (hpos : pos = (e.pixelStep c).opos + (e.pixelStep c).openRun.length) (hnone : (e.pixelStep c).run = 0 → run = 0)
    (hopen : (e.pixelStep c).run ≠ 0 →
      m.RunAt c d.inLen (e.pixelStep c).opos ((e.pixelStep c).run.toNat + run.toNat)) :
    Lockstep c m (e.pixelStep c) (Decoder.commit { d with pos := pos, run := run } (e.readPixel e.pix)) := by
  obtain ⟨-, -, hn, -⟩ := e.pixelStep_frame c
  exact {
    streams := h.streams.pixelStep hpix
    prevCached := h.prevCached.pixelStep c
    phase := h.phase
    stage := h.stage
    n := h.n.trans hn.symm
    pix := congrArg (· + 1) h.pix
    prev := rfl
    cache := h.cache.pixelStep h.prevCached
    pos := hpos
    noRun := hnone
    openRun := hopen }

/-- A decoder in lockstep is at a pixel with its encoder. -/
theorem Lockstep.atPixel (h : Lockstep c m e d) (hpix : e.pix < e.n) : d.atPixel :=
  ⟨h.phase, h.stage, by rw [h.pix, h.n]; exact hpix⟩

/-- What the decoder still has to replay of an open run that the stream gives `n` pixels. -/
theorem Lockstep.run_of_runAt (h : Lockstep c m e d) (hrun : e.run ≠ 0) {n : Nat} (hn : m.RunAt c d.inLen e.opos n)
    (hle : e.run.toNat ≤ n) : e.run.toNat + d.run.toNat = n := by
  have hpos : e.run.toNat ≠ 0 := fun hz => hrun (BitVec.eq_of_toNat_eq hz)
  exact (h.openRun hrun).unique hn (by omega) (by omega)

/-- The decoder on a repeated pixel, where the stream's RUN chunk is of `n` pixels, more than are encoded: it opens the
run, or replays it. -/
theorem Lockstep.decoderStep_repeat (h : Lockstep c m e d) (hpix : e.pix < e.n)
    (hpx : e.readPixel e.pix = e.prev) {n : Nat} (hn : m.RunAt c d.inLen e.opos n) (hlt : e.run.toNat < n) :
    d.step c m = Decoder.commit { d with pos := e.opos + 1, run := BitVec.ofNat 6 (n - (e.run.toNat + 1)) }
      (e.readPixel e.pix) := by
  have hd := h.atPixel hpix
  have hmax := hn.max
  rw [hpx, ← h.prev]
  by_cases hrun : e.run = 0
  · have hz : e.run.toNat = 0 := by rw [hrun]; rfl
    have hpos : d.pos = e.opos := by rw [h.pos, Encoder.openRun_of_zero hrun]; rfl
    rw [Decoder.step_of_bytes (i := .run n) hd (h.noRun hrun) ((Instr.wellFormed_run_iff n).2 ⟨by omega, hmax⟩)
      (by rw [hpos]; exact hn.inside) (by rw [hpos]; exact hn.read), hpos, hz]
    rfl
  · have hsum := h.run_of_runAt hrun hn hlt.le
    have hpos : d.pos = e.opos + 1 := by rw [h.pos, Encoder.openRun_length_of_ne hrun]
    have hcount : d.run - 1 = BitVec.ofNat 6 (n - (e.run.toNat + 1)) := by bv_omega
    rw [Decoder.step_of_run hd (by bv_omega), hpos, hcount]

/-- Lockstep over a repeated pixel: the encoder counts up its run or ends a run of 62, and the decoder opens the run or
replays it (41_encoder.md R165; 42_decoder.md R205, R212). -/
theorem Lockstep.pixelStep_repeat (h : Lockstep c m e d) (hpix : e.pix < e.n) (hpx : e.readPixel e.pix = e.prev) :
    Lockstep c m (e.pixelStep c) (d.step c m) := by
  have hmax := h.streams.inv.run_le
  by_cases hfull : e.run + 1 = 62
  · have happ := Encoder.pixelStep_appends_repeat hpx c
    rw [if_pos hfull] at happ
    obtain ⟨hlen, hread⟩ := h.streams.appended hpix happ
    rw [h.decoderStep_repeat hpix hpx (n := 62) ⟨le_rfl, hlen, hread⟩ (by omega)]
    refine h.commit hpix ?_ (fun _ => ?_) fun hne => ?_
    · rw [Encoder.pixelStep_fullRun hpx hfull]
      rfl
    · bv_omega
    · rw [Encoder.pixelStep_fullRun hpx hfull] at hne
      exact absurd rfl hne
  · obtain ⟨hrun, hopos⟩ : (e.pixelStep c).run = e.run + 1 ∧ (e.pixelStep c).opos = e.opos := by
      rw [Encoder.pixelStep_repeat hpx hfull]
      exact ⟨rfl, rfl⟩
    have hne : (e.pixelStep c).run ≠ 0 := by bv_omega
    obtain ⟨n, hle, hn⟩ := (h.streams.pixelStep hpix).openRun_ends hne
    have hn62 := hn.max
    have hsum : (e.pixelStep c).run.toNat + (BitVec.ofNat 6 (n - (e.run.toNat + 1))).toNat = n := by bv_omega
    rw [h.decoderStep_repeat hpix hpx (hopos ▸ hn) (by bv_omega)]
    refine h.commit hpix ?_ (fun hz => absurd hz hne) fun _ => ?_
    · rw [hopos, Encoder.openRun_length_of_ne hne]
    · rw [hsum]
      exact hn

/-- Lockstep over a pixel that differs: the decoder has no run left to replay, and its next chunk is the one chosen for
that pixel (41_encoder.md R164; 42_decoder.md R204). -/
theorem Lockstep.pixelStep_change (h : Lockstep c m e d) (hpix : e.pix < e.n) (hpx : e.readPixel e.pix ≠ e.prev) :
    Lockstep c m (e.pixelStep c) (d.step c m) := by
  obtain ⟨hlen, hread⟩ := h.streams.appended hpix (Encoder.pixelStep_appends_change hpx c)
  have hrun : d.run = 0 := by
    by_cases hrun : e.run = 0
    · exact h.noRun hrun
    · have hsum := h.run_of_runAt hrun (Encoder.runAt_of_flush hrun h.streams.inv.run_le hlen hread) le_rfl
      bv_omega
  have hwf : e.nextChunk.wellFormed = true := (chosenChunkIsCanonical _ _ _ hpx).1
  rw [List.length_append, Memory.readBytes_add, ← h.pos] at hread
  rw [List.length_append, ← Nat.add_assoc, ← h.pos] at hlen
  obtain ⟨-, hchunk⟩ := List.append_inj hread (by simp)
  have hpixel : chunkPixel d.prev d.cache e.nextChunk = e.readPixel e.pix := by
    rw [h.prev]
    exact chunkPixel_chooseChunk h.cache.hit
  rw [Decoder.step_of_bytes (h.atPixel hpix) hrun hwf hlen hchunk, hpixel]
  refine h.commit hpix ?_ (fun _ => chunkRun_chooseChunk _ _ _ _) fun hne => ?_
  · rw [Encoder.pixelStep_change hpx, h.pos]
    simp [Encoder.openRun, Nat.add_assoc]
  · rw [Encoder.pixelStep_change hpx] at hne
    exact absurd rfl hne

/-- A pixel step of both engines keeps them in lockstep. -/
theorem Lockstep.step (h : Lockstep c m e d) (hpix : e.pix < e.n) : Lockstep c m (e.step c) (d.step c m) := by
  rw [Encoder.step_pixel (h.streams.atPixel hpix)]
  by_cases hpx : e.readPixel e.pix = e.prev
  · exact h.pixelStep_repeat hpix hpx
  · exact h.pixelStep_change hpix hpx

/-- The engines stay in lockstep for as many pixels as are left. -/
theorem Lockstep.iterate (k : Nat) (h : Lockstep c m e d) (hk : e.pix + k ≤ e.n) :
    Lockstep c m ((Encoder.step c)^[k] e) ((Decoder.step c m)^[k] d) ∧ ((Encoder.step c)^[k] e).n = e.n ∧
    ((Encoder.step c)^[k] e).pix = e.pix + k ∧ ((Encoder.step c)^[k] e).readPixel = e.readPixel := by
  induction k with
  | zero => exact ⟨h, rfl, rfl, rfl⟩
  | succ k ih =>
    obtain ⟨hk', hn, hpix, hread⟩ := ih (by omega)
    have hat : ((Encoder.step c)^[k] e).pix < ((Encoder.step c)^[k] e).n := by omega
    obtain ⟨-, -, hn', hread'⟩ := ((Encoder.step c)^[k] e).pixelStep_frame c
    rw [Function.iterate_succ_apply', Function.iterate_succ_apply']
    refine ⟨hk'.step hat, ?_⟩
    rw [Encoder.step_pixel (hk'.streams.atPixel hat)]
    exact ⟨hn'.trans hn, by rw [Encoder.pixelStep_pix, hpix, Nat.add_assoc], hread'.trans hread⟩

/-- After a pixel step of each, the encoder's previous pixel is the one it has read. -/
theorem Lockstep.iterate_prev (k : Nat) (h : Lockstep c m e d) (hk : e.pix + (k + 1) ≤ e.n) :
    ((Encoder.step c)^[k + 1] e).prev = e.readPixel (e.pix + k) := by
  obtain ⟨hk', hn, hpix, hread⟩ := h.iterate k (by omega)
  rw [Function.iterate_succ_apply', Encoder.step_pixel (hk'.streams.atPixel (by omega)), Encoder.pixelStep_prev, hpix,
    hread]

end Lockstep

/-- Settles O58: INIT brings the engines into lockstep, and every pixel step keeps them there. -/
theorem enginesRunInLockstep : Obligations.EnginesRunInLockstep := by
  intro s k j e d he hb hs hlegal hd hdb hds
  obtain ⟨t1, hrun1, hget1⟩ := runSteps_enc_get (e.w.toNat * e.h.toNat + 2) he
  refine ⟨t1, _, hrun1, hget1, fun hlen hstream p hp => ?_⟩
  have start : Lockstep s.cfg (s.decStream d) (e.initStep s.cfg) (d.initStep s.cfg (s.decStream d)) :=
    lockstep_init hlegal hdb (Encoder.initStep_streams hb hs hlegal ⟨hlen.ge, hstream⟩)
  obtain ⟨hn, hpix, hread⟩ : (e.initStep s.cfg).n = e.w.toNat * e.h.toNat ∧ (e.initStep s.cfg).pix = 0 ∧
      (e.initStep s.cfg).readPixel = e.readPixel := by
    rw [Encoder.initStep_legal hlegal]
    exact ⟨rfl, rfl, rfl⟩
  have hleft : (e.initStep s.cfg).pix + (p + 1) ≤ (e.initStep s.cfg).n := by omega
  obtain ⟨lock, -⟩ := start.iterate (p + 1) hleft
  have hprev := start.iterate_prev p hleft
  rw [hpix, hread, Nat.zero_add] at hprev
  rw [← Encoder.step_init hb hs, ← Function.iterate_succ_apply] at lock hprev
  rw [← Decoder.step_init hdb hds, ← Function.iterate_succ_apply] at lock
  obtain ⟨te, hrune, hgete⟩ := runSteps_enc_get (p + 2) he
  obtain ⟨td, hrund, hgetd⟩ := runSteps_dec_get (p + 2) hd
  refine ⟨te, _, td, _, hrune, hgete, hrund, hgetd, lock.phase, lock.pix, hprev, lock.prev, fun hon i => ?_,
    fun hoff i => ?_⟩
  · obtain heq | ⟨hoff, -⟩ := lock.cache i
    · exact heq
    · exact nomatch hon.symm.trans hoff
  · exact (lock.cache i).imp_right And.right

end Sys2Proof.Machine
end

section
/-! PROOFS. The three kinds of step of an encoder, whole: the header INIT writes (41_encoder.md R162), where a pixel is
read (R163), the run a repeated pixel continues (R165), and FINAL (R174). -/

namespace Sys2Proof.Machine

/-- In an encoder's turn the system takes that encoder's step (10_state.md R30). -/
theorem step_of_encTurn {s : State} {k : Nat} {e : Encoder} (h : s.encTurn k e) :
    step s = .next (s.afterEnc k (e.step s.cfg)) := step_enc h.1 h.2

/-! ### INIT (41_encoder.md R162) -/

/-- The checks of the format come first, and every other check has the code ShapeMismatch. -/
theorem Encoder.rejectCode_eq (e : Encoder) :
    e.rejectCode = if (e.ch = 3 ∨ e.ch = 4) ∧ (e.cs = 0 ∨ e.cs = 1) then .shapeMismatch
      else .invalidChannelOrColorspace := by
  simp only [Encoder.rejectCode, ← Bool.not_eq_true, channelsOk_and_colorspaceOk, ite_not]

/-- INIT aborts an illegal request (60_exceptions.md R260). -/
theorem Encoder.initStep_aborts {c : Config} {e : Encoder} (hillegal : ¬e.legal c) :
    e.Aborts (e.initStep c) e.rejectCode := by
  obtain ⟨-, n, hinit⟩ := (e.initStep_cases c).resolve_right fun h => hillegal h.1
  rw [hinit]
  exact e.raise_aborts n _

/-- Where the header's bytes start a memory, its fields stand at their offsets (30_encoding.md R101). -/
theorem Memory.headerFields_of_bytes {c : Config} {m : Memory} {w h : Word32} {ch cs : Byte}
    (hbytes : m.readBytes 0 (hdrLen c) = headerBytes c w h ch cs) :
    m.readBytes 0 (magicLen c) = c.magic ∧ be32At m (magicLen c) = w.toNat ∧ be32At m (magicLen c + 4) = h.toNat ∧
    m.read (magicLen c + 8) = ch ∧ m.read (magicLen c + 9) = cs := by
  obtain ⟨hmagic, hparse⟩ := Decoder.parseHeader_of_bytes hbytes Decoder.powerOn
  refine ⟨hmagic, ?_, ?_, congrArg Decoder.ch hparse, congrArg Decoder.cs hparse⟩
  · rw [← Decoder.parseHeader_w c m Decoder.powerOn, hparse]
  · rw [← Decoder.parseHeader_h c m Decoder.powerOn, hparse]

/-- Settles O18, by the first check that fails, or else by the header emitted from address 0 on. -/
theorem encoderInitStep : Obligations.EncoderInitStep := by
  intro s k e hturn hb hs
  refine ⟨e.initStep s.cfg, by rw [step_of_encTurn hturn, Encoder.step_init hb hs], fun hformat => ?_,
    fun hformat hillegal => ?_, fun hlegal => ?_⟩
  · have habort := Encoder.initStep_aborts fun hlegal : e.legal s.cfg => hformat ⟨hlegal.1, hlegal.2.1⟩
    rwa [Encoder.rejectCode_eq, if_neg hformat] at habort
  · have habort := Encoder.initStep_aborts hillegal
    rwa [Encoder.rejectCode_eq, if_pos hformat] at habort
  · obtain ⟨hopos, hbytes, hkeep⟩ := Encoder.emit_appends
      (Encoder.clearWorking { e with n := e.w.toNat * e.h.toNat }) (headerBytes s.cfg e.w e.h e.ch e.cs)
    rw [headerBytes_length, Encoder.clearWorking_opos] at hopos hbytes hkeep
    rw [Nat.zero_add] at hopos hkeep
    obtain ⟨hmagic, hw, hh, hch, hcs⟩ := Memory.headerFields_of_bytes hbytes
    rw [Encoder.initStep_legal hlegal]
    exact ⟨hmagic, hw, hh, hch, hcs, fun a ha => hkeep a (.inr ha), rfl, cacheRead_zero, rfl, rfl, rfl, hopos, rfl,
      rfl⟩

/-! ### The pixel read (41_encoder.md R163) -/

/-- Settles O19: ReadPixel's addresses, with the channel count 4 and with any other. -/
theorem encoderReadsPixelLayout : Obligations.EncoderReadsPixelLayout := by
  intro e i
  refine ⟨fun h4 => ?_, fun hne => ?_⟩
  · rw [Encoder.readPixel, if_pos h4, h4]
    rfl
  · rw [Encoder.readPixel, if_neg hne]

/-! ### A repeated pixel (41_encoder.md R165) -/

/-- RunContinue writes the slot of the repeated pixel alone, and that only under ENC_CACHE_ON_RUN. -/
theorem Encoder.cacheRead_runCache (c : Config) (e : Encoder) (i : Slot) :
    cacheRead (e.runCache c) i =
      if c.encCacheOnRun = true ∧ i = hashOf e.prev then e.prev else cacheRead e.cache i := by
  unfold Encoder.runCache
  cases c.encCacheOnRun with
  | true => simpa using cacheRead_cacheUpdate e.cache e.prev i
  | false => simp

/-- Settles O20: the run counts up to 61, and the pixel after that ends it in a RUN of 62. -/
theorem encoderContinuesRun : Obligations.EncoderContinuesRun := by
  intro s k e hturn hat hmax hpx
  have happ := Encoder.pixelStep_appends_repeat hpx s.cfg
  refine ⟨e.pixelStep s.cfg, by rw [step_of_encTurn hturn, Encoder.step_pixel hat], fun hlt => ?_, fun hfull => ?_,
    fun i => ?_, rfl, ?_⟩
  · have hrun : e.run + 1 ≠ 62 := by bv_omega
    rw [if_neg hrun] at happ
    refine ⟨?_, happ⟩
    rw [Encoder.pixelStep_repeat hpx hrun]
    show (e.run + 1).toNat = _
    bv_omega
  · have hrun : e.run + 1 = 62 := by bv_omega
    rw [if_pos hrun] at happ
    exact ⟨by rw [Encoder.pixelStep_fullRun hpx hrun], happ⟩
  · rw [Encoder.pixelStep_cache, if_pos hpx]
    exact e.cacheRead_runCache s.cfg i
  · by_cases hrun : e.run + 1 = 62
    · rw [Encoder.pixelStep_fullRun hpx hrun]
      rfl
    · rw [Encoder.pixelStep_repeat hpx hrun]

/-! ### FINAL (41_encoder.md R174) -/

/-- Settles O22: FINAL's bytes, and the registers it leaves. -/
theorem encoderFinalStep : Obligations.EncoderFinalStep := by
  intro s k e hturn hb hs hpix
  obtain ⟨output, hfinal⟩ := e.finalStep_shape s.cfg
  exact ⟨e.finalStep s.cfg, by rw [step_of_encTurn hturn, Encoder.step_final hb hs hpix.not_lt],
    e.finalStep_appends s.cfg, lengthRegister_of_fits, by rw [hfinal], rfl, by rw [hfinal]⟩

end Sys2Proof.Machine
end

section
/-! PROOFS. The bytes of the chunks the encoder chooses, in arithmetic (30_encoding.md R109 to R111). -/

namespace Sys2Proof

/-- Byte lists with the same values are equal. -/
theorem bytes_eq_of_toNat_eq {bytes bytes' : List Byte}
    (h : bytes.map (fun b => (b.toNat : Int)) = bytes'.map fun b => (b.toNat : Int)) : bytes = bytes' :=
  List.map_injective_iff.2 (fun _ _ hb => BitVec.eq_of_toNat_eq (Int.ofNat.inj hb)) h

/-- The byte of INDEX is its slot number (30_encoding.md R109). -/
theorem encode_index_eq (t : TagAssignment) (i : Slot) : encode t (.index i) = [BitVec.ofNat 8 i.toNat] := by
  obtain ⟨hindex, -⟩ := chunkBytesByArithmetic t
  refine List.map_injective_iff.2 (fun _ _ => BitVec.eq_of_toNat_eq) ?_
  rw [hindex i, List.map_singleton, BitVec.toNat_ofNat, Nat.mod_eq_of_lt (by omega)]

/-- The byte of DIFF holds three deltas, two bits each (30_encoding.md R110). -/
theorem encode_diff_eq (t : TagAssignment) {dr dg db : Int} (h : (Instr.diff dr dg db).wellFormed = true) :
    encode t (.diff dr dg db) = [BitVec.ofInt 8 (0x40 + 16 * (dr + 2) + 4 * (dg + 2) + (db + 2))] := by
  obtain ⟨-, hdiff, -⟩ := chunkBytesByArithmetic t
  obtain ⟨hr, hg, hb⟩ := (Instr.wellFormed_diff_iff dr dg db).1 h
  apply bytes_eq_of_toNat_eq
  rw [hdiff dr dg db h, List.map_singleton, toNat_ofInt_of_fits (by omega) (by omega)]

/-- The bytes of LUMA hold the green delta and the two relative ones (30_encoding.md R111). -/
theorem encode_luma_eq (t : TagAssignment) {dg drDg dbDg : Int} (h : (Instr.luma dg drDg dbDg).wellFormed = true) :
    encode t (.luma dg drDg dbDg) =
      [BitVec.ofInt 8 (0x80 + (dg + 32)), BitVec.ofInt 8 (16 * (drDg + 8) + (dbDg + 8))] := by
  obtain ⟨-, -, hluma, -⟩ := chunkBytesByArithmetic t
  obtain ⟨hg, hr, hb⟩ := (Instr.wellFormed_luma_iff dg drDg dbDg).1 h
  apply bytes_eq_of_toNat_eq
  rw [hluma dg drDg dbDg h, List.map_cons, List.map_singleton, toNat_ofInt_of_fits (by omega) (by omega),
    toNat_ofInt_of_fits (by omega) (by omega)]

end Sys2Proof
end

section
/-! PROOFS. The pixel step on a pixel that differs from the previous one: the tests in the encoder's order (41_encoder.md
R164, R167 to R172), and the pixel a decoder makes of the chunk (42_decoder.md R207 to R213). -/

namespace Sys2Proof.Machine

/-- The tests in the encoder's order (41_encoder.md R164), on the signed values of the byte differences (R168). -/
theorem chooseChunk_eq (px prev slotPixel : Pixel) :
    let dr := (px.r - prev.r).toInt
    let dg := (px.g - prev.g).toInt
    let db := (px.b - prev.b).toInt
    chooseChunk px prev slotPixel =
      if slotPixel = px then .index (hashOf px)
      else if px.a = prev.a then
        if (Instr.diff dr dg db).wellFormed = true then .diff dr dg db
        else if (Instr.luma dg (dr - dg) (db - dg)).wellFormed = true then .luma dg (dr - dg) (db - dg)
        else .rgb px.r px.g px.b
      else .rgba px.r px.g px.b px.a := by
  simp only [chooseChunk, delta_eq_toInt, fitsDiff_eq_wellFormed, fitsLuma_eq_wellFormed]

/-- Settles O21: the bytes are the open run's and the chosen chunk's, and the choice is the first test passed. -/
theorem encoderEmitsChunk : Obligations.EncoderEmitsChunk := by
  intro s k e hturn hat hpx px dr dg db hit small middle
  have hchunk : e.nextChunk = _ := chooseChunk_eq px e.prev (cacheRead e.cache (hashOf px))
  have hsmall : (Instr.diff dr dg db).wellFormed = true ↔ small := Instr.wellFormed_diff_iff dr dg db
  have hmiddle : (Instr.luma dg (dr - dg) (db - dg)).wellFormed = true ↔ middle :=
    Instr.wellFormed_luma_iff dg (dr - dg) (db - dg)
  have hstep := Encoder.pixelStep_change hpx s.cfg
  refine ⟨e.pixelStep s.cfg, encode s.cfg.tags e.nextChunk, by rw [step_of_encTurn hturn, Encoder.step_pixel hat],
    Encoder.pixelStep_appends_change hpx s.cfg, fun h => ?_, fun h ha hs => ?_, fun h ha hs hm => ?_,
    fun h ha hs hm => ?_, fun h ha => ?_, fun j => ?_, ?_, rfl, rfl, ?_⟩
  · rw [hchunk, if_pos h, encode_index_eq]
  · rw [hchunk, if_neg h, if_pos ha, if_pos (hsmall.2 hs), encode_diff_eq _ (hsmall.2 hs)]
  · rw [hchunk, if_neg h, if_pos ha, if_neg (mt hsmall.1 hs), if_pos (hmiddle.2 hm), encode_luma_eq _ (hmiddle.2 hm)]
  · rw [hchunk, if_neg h, if_pos ha, if_neg (mt hsmall.1 hs), if_neg (mt hmiddle.1 hm)]
    rfl
  · rw [hchunk, if_neg h, if_neg ha]
    rfl
  · rw [hstep]
    exact cacheRead_cacheUpdate _ _ _
  · rw [hstep]
  · rw [hstep]
    rfl

/-- Settles O23: exec commits the pixel a chunk stands for, and the chosen one stands for the pixel it is chosen for. -/
theorem chosenChunkProducesPixel : Obligations.ChosenChunkProducesPixel := by
  intro s d px hd
  refine ⟨_, exec_eq _ hd, ?_⟩
  rw [Decoder.execChunk_eq, chunkRun_chooseChunk, chunkPixel_chooseChunk id]
  exact d.commit_produces px d.run d.pos

end Sys2Proof.Machine
end

section
/-! PROOFS. How long an encode takes (41_encoder.md R160, R178; 60_exceptions.md R266): the PHASE of an encoder after any
number of its steps. -/

namespace Sys2Proof.Machine

section Phase
variable {c : Config} {e : Encoder}

/-- FINAL ends in DONE (41_encoder.md R174). -/
@[simp] theorem Encoder.finalStep_phase (c : Config) (e : Encoder) : (e.finalStep c).phase = .done := rfl

/-- An encoder that is not BUSY takes no step, however often it is its turn (10_state.md R31). -/
theorem Encoder.iterate_idle (hidle : e.phase ≠ .busy) (m : Nat) : (Encoder.step c)^[m] e = e :=
  Function.iterate_fixed (Encoder.step_idle hidle) m

/-- In BODY an encoder is BUSY for one step per pixel left, and after FINAL it is DONE (41_encoder.md R160). -/
theorem Encoder.iterate_phase_of_body (hb : e.phase = .busy) (hs : e.stage = .body) (hle : e.pix ≤ e.n) (m : Nat) :
    ((Encoder.step c)^[m] e).phase = if m ≤ e.n - e.pix then .busy else .done := by
  induction m generalizing e with
  | zero => exact hb
  | succ m ih =>
    rw [Function.iterate_succ_apply]
    by_cases hpix : e.pix < e.n
    · obtain ⟨hphase, hstage, hn, -⟩ := e.pixelStep_frame c
      rw [Encoder.step_pixel ⟨hb, hs, hpix⟩,
        ih (hphase.trans hb) (hstage.trans hs) (by rw [hn, Encoder.pixelStep_pix]; exact hpix), hn,
        Encoder.pixelStep_pix]
      exact if_congr (by omega) rfl rfl
    · rw [Encoder.step_final hb hs hpix, Encoder.iterate_idle (by simp), Encoder.finalStep_phase, if_neg (by omega)]

/-- A legal request is BUSY through INIT, every pixel and FINAL, and then DONE (41_encoder.md R160). -/
theorem Encoder.iterate_phase_of_legal (hb : e.phase = .busy) (hs : e.stage = .init) (hlegal : e.legal c) (m : Nat) :
    ((Encoder.step c)^[m] e).phase = if m < e.w.toNat * e.h.toNat + 2 then .busy else .done := by
  cases m with
  | zero => exact hb.trans (if_pos (Nat.succ_pos _)).symm
  | succ m =>
    rw [Function.iterate_succ_apply, Encoder.step_init hb hs, Encoder.initStep_legal hlegal,
      Encoder.iterate_phase_of_body (by exact hb) rfl (Nat.zero_le _)]
    exact if_congr (by simp) rfl rfl

/-- INIT puts any other request in ERROR, where it stays (60_exceptions.md R266). -/
theorem Encoder.iterate_phase_of_illegal (hb : e.phase = .busy) (hs : e.stage = .init) (hillegal : ¬e.legal c) {m : Nat}
    (hm : 0 < m) : ((Encoder.step c)^[m] e).phase = .error := by
  obtain ⟨m, rfl⟩ := Nat.exists_eq_add_one_of_ne_zero hm.ne'
  obtain ⟨herror, -⟩ := Encoder.initStep_aborts hillegal
  rw [Function.iterate_succ_apply, Encoder.step_init hb hs, Encoder.iterate_idle (by simp [herror]), herror]

end Phase

/-- Settles O54: INIT, one step for each pixel and FINAL keep a legal encode BUSY, and INIT alone ends any other. -/
theorem encodeTakesExactlyTheseSteps : Obligations.EncodeTakesExactlyTheseSteps := by
  intro s k e he hb hs m
  obtain ⟨t, hrun, hget⟩ := runSteps_enc_get m he
  refine ⟨t, _, hrun, hget, fun hlegal => ?_, fun hillegal hm => Encoder.iterate_phase_of_illegal hb hs hillegal hm⟩
  rw [Encoder.iterate_phase_of_legal hb hs hlegal]
  split
  · next hlt => simp [hlt]
  · next hge => simp [hge, Nat.not_lt.1 hge]

end Sys2Proof.Machine
end

section
/-! PROOFS. What each chunk does (42_decoder.md R207 to R214), and the decoder's pixel step: the run replay (R205), the
fetch from the bytes left (R206), and every first byte in arithmetic. -/

namespace Sys2Proof.Machine

/-! ### What each chunk does -/

/-- A chunk commits its pixel on the current decoder and leaves the run counter it states (42_decoder.md R204, R213). -/
theorem exec_produces {s : State} {d : Decoder} (hd : s.decs[s.cur]? = some d) (i : Instr) :
    ∃ d', exec i s = .next (s.setDec s.cur d') ∧
      d.Produces d' (chunkPixel d.prev d.cache i) (chunkRun d.run i) d.pos := by
  refine ⟨d.execChunk i, exec_eq i hd, ?_⟩
  rw [Decoder.execChunk_eq]
  exact d.commit_produces _ _ _

/-- Settles O8: the pixels of RGB and RGBA are their operands. -/
theorem rawChunksComplete : Obligations.RawChunksComplete := fun _ _ hd =>
  ⟨fun r g b => exec_produces hd (.rgb r g b), fun r g b a => exec_produces hd (.rgba r g b a)⟩

/-- Settles O9: wrap8 is the remainder modulo 256 in each channel. -/
theorem deltaChunksComplete : Obligations.DeltaChunksComplete := by
  intro s d hd
  refine ⟨fun dr dg db => ?_, fun dg drDg dbDg => ?_⟩
  · obtain ⟨d', hexec, hproduces⟩ := exec_produces hd (.diff dr dg db)
    exact ⟨d', _, hexec, hproduces, rfl, wrap8_toNat _, wrap8_toNat _, wrap8_toNat _⟩
  · obtain ⟨d', hexec, hproduces⟩ := exec_produces hd (.luma dg drDg dbDg)
    exact ⟨d', _, hexec, hproduces, rfl, wrap8_toNat _, wrap8_toNat _, wrap8_toNat _⟩

/-- Settles O10: INDEX commits what its slot holds, and a run length in 1..62 fits the run counter. -/
theorem cachedChunksComplete : Obligations.CachedChunksComplete := by
  intro s d hd
  refine ⟨fun i => exec_produces hd (.index i), fun n h1 h62 => ?_⟩
  obtain ⟨d', hexec, hproduces⟩ := exec_produces hd (.run n)
  obtain ⟨hstored, -⟩ := storedRun_le (n := n) (by simp [runLengthOk, h1, h62])
  exact ⟨d', _, hexec, hproduces, hstored⟩

/-! ### The fetch (42_decoder.md R206) -/

/-- A chunk is fetched exactly where its bytes end inside the stream, and then the bytes left decode to it, with the
bytes after it left over; where they do not, the bytes left do not decode (42_decoder.md R206; 30_encoding.md R116,
R117). -/
theorem Decoder.fetchChunk_cases (c : Config) (m : Memory) (d : Decoder) :
    (d.inLen < d.pos + chunkLen c.tags (m.read d.pos) ∧ d.fetchChunk c m = none ∧
      ∃ r, decode c.tags (m.readBytes d.pos (d.inLen - d.pos)) = .error r) ∨
    (d.pos + chunkLen c.tags (m.read d.pos) ≤ d.inLen ∧
      ∃ i, d.fetchChunk c m = some (i, chunkLen c.tags (m.read d.pos)) ∧
        decode c.tags (m.readBytes d.pos (d.inLen - d.pos)) =
          .ok (i, m.readBytes (d.pos + chunkLen c.tags (m.read d.pos))
            (d.inLen - (d.pos + chunkLen c.tags (m.read d.pos))))) := by
  obtain ⟨own, hown⟩ : ∃ own, chunkLen c.tags (m.read d.pos) = own + 1 :=
    ⟨_, (Nat.sub_add_cancel (chunkLen_pos _ _)).symm⟩
  by_cases hlen : d.pos + chunkLen c.tags (m.read d.pos) ≤ d.inLen
  · obtain ⟨i, hi, hmore⟩ := decode_cons_append (t := c.tags) (b := m.read d.pos)
      (own := m.readBytes (d.pos + 1) own) (more := m.readBytes (d.pos + (own + 1)) (d.inLen - (d.pos + (own + 1))))
      (by rw [Memory.readBytes_length, hown])
    have hleft : m.readBytes d.pos (d.inLen - d.pos) = m.read d.pos ::
        (m.readBytes (d.pos + 1) own ++ m.readBytes (d.pos + (own + 1)) (d.inLen - (d.pos + (own + 1)))) := by
      rw [show d.inLen - d.pos = (own + 1) + (d.inLen - (d.pos + (own + 1))) by omega, Memory.readBytes_add]
      rfl
    refine .inr ⟨hlen, i, ?_, by rw [hleft, hmore, hown]⟩
    have hi' : decode c.tags (m.readBytes d.pos (own + 1)) = .ok (i, []) := hi
    simp only [Decoder.fetchChunk, hown, hi', if_neg (show ¬d.inLen ≤ d.pos by omega),
      if_neg (show ¬d.inLen < d.pos + (own + 1) by omega)]
  · have hshort : d.inLen < d.pos + chunkLen c.tags (m.read d.pos) := Nat.not_le.1 hlen
    refine .inl ⟨hshort, ?_, ?_⟩
    · simp only [Decoder.fetchChunk, if_pos hshort, ite_self]
    · cases hleft : d.inLen - d.pos with
      | zero => exact ⟨_, rfl⟩
      | succ left => exact ⟨_, decode_of_length_lt (by rw [Memory.readBytes_length]; omega)⟩

/-! ### The pixel step (42_decoder.md R204) -/

/-- In a decoder's turn the system takes that decoder's step (10_state.md R30). -/
theorem step_of_decTurn {s : State} {k : Nat} {d : Decoder} (h : s.decTurn k d) :
    step s = .next (s.afterDec k (d.step s.cfg (s.decStream d))) := step_dec h.1 h.2

section Pixel
variable {c : Config} {m : Memory} {d : Decoder}

/-- Where nothing is fetched, the pixel step aborts (42_decoder.md R206). -/
theorem Decoder.step_of_noFetch (hat : d.atPixel) (hrun : d.run = 0) (hfetch : d.fetchChunk c m = none) :
    d.step c m = d.raise .truncatedStream := by
  rw [Decoder.step_pixel hat, Decoder.pixelStep, if_neg (not_not.2 hrun), hfetch]

/-- Where a chunk is fetched, the pixel step executes it, with d.pos past it (42_decoder.md R204, R206). -/
theorem Decoder.step_of_fetch (hat : d.atPixel) (hrun : d.run = 0) {i : Instr} {len : Nat}
    (hfetch : d.fetchChunk c m = some (i, len)) :
    d.step c m = Decoder.execChunk { d with pos := d.pos + len } i := by
  rw [Decoder.step_pixel hat, Decoder.pixelStep, if_neg (not_not.2 hrun), hfetch]

end Pixel

/-- Settles O12: the chunk that the bytes left decode to is the one fetched. -/
theorem stepRunsDecodedChunk : Obligations.StepRunsDecodedChunk := by
  intro s k d i rest hturn hat hrun hdecode
  obtain ⟨-, -, r, hbad⟩ | ⟨hlen, j, hfetch, hgood⟩ := d.fetchChunk_cases s.cfg (s.decStream d)
  · rw [hbad] at hdecode
    cases hdecode
  · rw [hgood] at hdecode
    cases hdecode
    rw [step_of_decTurn hturn, Decoder.step_of_fetch hat hrun hfetch, Memory.readBytes_length, Nat.sub_sub_self hlen,
      exec_eq i (State.setDec_get hturn.2 _)]
    simp [State.afterDec, State.setDec]

/-- Settles O13: where the bytes left do not decode, nothing is fetched. -/
theorem incompleteChunkAborts : Obligations.IncompleteChunkAborts := by
  intro s k d r hturn hat hrun hdecode
  obtain ⟨-, hfetch, -⟩ | ⟨-, j, -, hgood⟩ := d.fetchChunk_cases s.cfg (s.decStream d)
  · exact ⟨_, by rw [step_of_decTurn hturn, Decoder.step_of_noFetch hat hrun hfetch], d.raise_aborts _ _ _ _ _ _ _⟩
  · rw [hgood] at hdecode
    cases hdecode

/-- Settles O14: a replay commits d.prev and counts d.run down. -/
theorem openRunReplays : Obligations.OpenRunReplays := by
  intro s k d hturn hat hrun
  exact ⟨_, _, by rw [step_of_decTurn hturn, Decoder.step_of_run hat hrun], d.commit_produces _ _ _, by bv_omega⟩

/-! ### Every first byte in arithmetic -/

theorem wrap8_add (x y : Int) : wrap8 (x + y) = wrap8 x + wrap8 y := BitVec.ofInt_add x y

@[simp] theorem wrap8_u8 (v : Byte) : wrap8 (u8 v) = v := by
  rw [wrap8, u8, BitVec.ofInt_natCast, BitVec.ofNat_toNat, BitVec.setWidth_eq]

/-- A field of a byte, less its bias, in byte arithmetic (30_encoding.md R110, R111). -/
theorem wrap8_biasedField (b : Byte) (lo len : Nat) (bias : Int) :
    wrap8 (biasedField b lo len bias) = BitVec.ofNat 8 (b.toNat / 2 ^ lo % 2 ^ len) - wrap8 bias := by
  rw [biasedField_eq, eq_sub_iff_add_eq, ← BitVec.ofInt_natCast]
  exact (wrap8_add _ _).symm.trans (congrArg wrap8 (Int.sub_add_cancel _ _))

/-- The low six bits of a byte as a number of six bits (30_encoding.md R109, R112). -/
theorem low_six_eq_ofNat (b : Byte) : b.extractLsb' 0 6 = BitVec.ofNat 6 b.toNat := by
  apply BitVec.eq_of_toNat_eq
  rw [low_six_toNat, BitVec.toNat_ofNat]

/-- The pixel of a DIFF byte (42_decoder.md R210). -/
theorem diffPixel_of_byte (p : Pixel) (b : Byte) :
    diffPixel p (biasedField b 4 2 2) (biasedField b 2 2 2) (biasedField b 0 2 2) =
      ⟨p.r + BitVec.ofNat 8 (b.toNat / 16 % 4) - 2, p.g + BitVec.ofNat 8 (b.toNat / 4 % 4) - 2,
        p.b + BitVec.ofNat 8 (b.toNat % 4) - 2, p.a⟩ := by
  simp only [diffPixel, wrap8_add, wrap8_u8, wrap8_biasedField, add_sub_assoc, pow_zero, Nat.div_one]
  rfl

/-- The pixel of the two bytes of a LUMA chunk (42_decoder.md R211). -/
theorem lumaPixel_of_bytes (p : Pixel) (b b1 : Byte) :
    lumaPixel p (biasedField b 0 6 32) (biasedField b1 4 4 8) (biasedField b1 0 4 8) =
      ⟨p.r + (BitVec.ofNat 8 (b.toNat % 64) - 32) + BitVec.ofNat 8 (b1.toNat / 16) - 8,
        p.g + (BitVec.ofNat 8 (b.toNat % 64) - 32),
        p.b + (BitVec.ofNat 8 (b.toNat % 64) - 32) + BitVec.ofNat 8 (b1.toNat % 16) - 8, p.a⟩ := by
  have high : b1.toNat / 2 ^ 4 % 2 ^ 4 = b1.toNat / 16 := by omega
  simp only [lumaPixel, wrap8_add, wrap8_u8, wrap8_biasedField, add_sub_assoc, pow_zero, Nat.div_one, high]
  rfl

/-- What a pixel step does where the chunk at d.pos is known from its bytes (42_decoder.md R206, R213). -/
theorem State.yields_of_decode {s : State} {k : Nat} {d : Decoder} (hturn : s.decTurn k d) (hat : d.atPixel)
    (hrun : d.run = 0) {i : Instr} {len : Nat}
    (hlen : chunkLen s.cfg.tags ((s.decStream d).read d.pos) = len)
    (hdecode : decode s.cfg.tags ((s.decStream d).readBytes d.pos len) = .ok (i, [])) :
    s.yields k d len (chunkPixel d.prev d.cache i) (chunkRun 0 i) := by
  subst hlen
  obtain ⟨hshort, hfetch, -⟩ | ⟨hfits, j, hfetch, -⟩ := d.fetchChunk_cases s.cfg (s.decStream d)
  · exact ⟨fun hfits => absurd hfits (Nat.not_le.2 hshort), fun _ =>
      ⟨_, by rw [step_of_decTurn hturn, Decoder.step_of_noFetch hat hrun hfetch], d.raise_aborts _ _ _ _ _ _ _⟩⟩
  · refine ⟨fun _ => ⟨_, step_of_decTurn hturn, ?_⟩, fun hshort => absurd hfits (Nat.not_le.2 hshort)⟩
    obtain ⟨-, -, rest, hj⟩ := Decoder.fetchChunk_some hfetch
    rw [hdecode] at hj
    cases hj
    rw [Decoder.step_of_fetch hat hrun hfetch, Decoder.execChunk_eq, ← hrun]
    exact d.commit_produces _ _ _

/-- Settles O15: the first byte's value fixes the chunk's kind, and its fields are the operands. -/
theorem pixelStepByBytes : Obligations.PixelStepByBytes := by
  intro s k d hturn hat hrun at_ b p
  have length : chunkLen s.cfg.tags b = _ := chunkLen_eq s.cfg.tags b
  have yields : ∀ (len : Nat) {i : Instr}, chunkLen s.cfg.tags b = len →
      decode s.cfg.tags ((s.decStream d).readBytes d.pos len) = .ok (i, []) → _ :=
    fun _ _ hlen hdecode => State.yields_of_decode hturn hat hrun hlen hdecode
  refine ⟨fun h => ?_, fun h => ?_, fun h => ?_, fun h => ?_, fun h => ?_, fun h => ?_⟩
  · have hkind := (chunkKind_eq_rgb_iff s.cfg.tags b).2 h
    refine yields 4 (i := .rgb (at_ 1) (at_ 2) (at_ 3)) (by rw [length, hkind]) ?_
    rw [← decode_rgb, ← h]
    rfl
  · have hkind := (chunkKind_eq_rgba_iff s.cfg.tags b).2 h
    refine yields 5 (i := .rgba (at_ 1) (at_ 2) (at_ 3) (at_ 4)) (by rw [length, hkind]) ?_
    rw [← decode_rgba, ← h]
    rfl
  · have hkind := (chunkKind_eq_index_iff s.cfg.tags b).2 (by omega)
    rw [← low_six_eq_ofNat]
    exact yields 1 (by rw [length, hkind]) (decode_index hkind [])
  · have hkind := (chunkKind_eq_diff_iff s.cfg.tags b).2 (by omega)
    rw [← diffPixel_of_byte]
    exact yields 1 (by rw [length, hkind]) (decode_diff hkind [])
  · have hkind := (chunkKind_eq_luma_iff s.cfg.tags b).2 (by omega)
    intro dg
    rw [← lumaPixel_of_bytes]
    exact yields 2 (by rw [length, hkind]) (decode_luma hkind (at_ 1) [])
  · have hkind := (chunkKind_eq_run_iff s.cfg.tags b).2 (by omega)
    have hopen : chunkRun 0 (.run ((b.extractLsb' 0 6).toNat + 1)) = BitVec.ofNat 6 (b.toNat - 0xC0) := by
      rw [low_six_toNat]
      exact congrArg (BitVec.ofNat 6) (by omega)
    rw [← hopen]
    exact yields 1 (by rw [length, hkind]) (decode_run hkind [])

end Sys2Proof.Machine
end

section
/-! PROOFS. The decoder's INIT and FINAL steps, whole: the checks in their order, and what each leaves (42_decoder.md
R202, R203, R215). -/

namespace Sys2Proof.Machine

/-! ### INIT (42_decoder.md R202, R203) -/

section Init
variable {c : Config} {m : Memory} {d : Decoder}

/-- INIT aborts on a header that does not pass (60_exceptions.md R260). -/
theorem Decoder.initStep_aborts (hbad : ¬d.headerOk c m) : d.Aborts (d.initStep c m) (d.rejectCode c m) := by
  obtain ⟨-, w, h, ch, cs, n, hinit⟩ := (d.initStep_cases c m).resolve_right fun hok => hbad hok.1
  rw [hinit]
  exact d.raise_aborts w h ch cs n d.pos _

/-- INIT takes over the fields of a header that passes (42_decoder.md R203). -/
theorem Decoder.initStep_passes (hok : d.headerOk c m) : d.initStep c m = (d.withHeader c m).clearWorking c :=
  ((d.initStep_cases c m).resolve_left fun hbad => hbad.1 hok).2

/-- The first check of INIT. -/
theorem Decoder.rejectCode_short (hlen : d.inLen < hdrLen c) : d.rejectCode c m = .truncatedHeader := if_pos hlen

/-- The second check of INIT. -/
theorem Decoder.rejectCode_magic (hlen : hdrLen c ≤ d.inLen) (hmagic : ¬d.magicOk c m) :
    d.rejectCode c m = .badMagic := by
  rw [Decoder.rejectCode, if_neg (Nat.not_lt.2 hlen), if_pos fun heq => hmagic ⟨hlen, heq⟩]

/-- The checks of INIT after those of the length and of MAGIC. -/
theorem Decoder.rejectCode_of_magicOk (hmagic : d.magicOk c m) :
    (¬m.formatOk c → d.rejectCode c m = .invalidChannelOrColorspace) ∧
    (m.formatOk c → d.rejectCode c m = .invalidDimensions) := by
  obtain ⟨hlen, heq⟩ := hmagic
  have hformat : (channelsOk (d.parseHeader c m).ch && colorspaceOk (d.parseHeader c m).cs) = true ↔ m.formatOk c :=
    channelsOk_and_colorspaceOk _ _
  rw [Decoder.rejectCode, if_neg (Nat.not_lt.2 hlen), if_neg (not_not.2 heq), ← hformat]
  exact ⟨fun hbad => if_pos (Bool.eq_false_iff.2 hbad), fun hok => if_neg (by rw [hok]; decide)⟩

end Init

/-- Settles O16, by the first check that fails, or else by the header's fields. -/
theorem decoderInitStep : Obligations.DecoderInitStep := by
  intro s k d hturn hb hs m
  refine ⟨d.initStep s.cfg m, by rw [step_of_decTurn hturn, Decoder.step_init hb hs], fun hlen => ?_,
    fun hlen hmagic => ?_, fun hmagic hformat => ?_, fun hmagic hformat hdim => ?_, fun hmagic hformat hdim => ?_⟩
  · rw [← Decoder.rejectCode_short hlen]
    exact Decoder.initStep_aborts fun ⟨⟨hle, _⟩, _⟩ => absurd hle (Nat.not_le.2 hlen)
  · rw [← Decoder.rejectCode_magic hlen hmagic]
    exact Decoder.initStep_aborts fun hok => hmagic hok.1
  · rw [← (Decoder.rejectCode_of_magicOk hmagic).1 hformat]
    exact Decoder.initStep_aborts fun hok => hformat hok.2.1
  · rw [← (Decoder.rejectCode_of_magicOk hmagic).2 hformat]
    exact Decoder.initStep_aborts fun hok => hdim hok.2.2
  · rw [Decoder.initStep_passes ⟨hmagic, hformat, hdim⟩]
    exact ⟨d.parseHeader_w s.cfg m, d.parseHeader_h s.cfg m, rfl, rfl, d.withHeader_n s.cfg m, cacheRead_zero, rfl,
      rfl, rfl, rfl, rfl, rfl⟩

/-! ### FINAL (42_decoder.md R215) -/

section Final
variable {c : Config} {m : Memory} {d : Decoder}

/-- The first check of FINAL. -/
theorem Decoder.finalStep_short (hlen : d.inLen < d.pos + 8) : d.finalStep c m = d.raise .truncatedStream :=
  if_pos (by omega)

/-- The second check of FINAL. -/
theorem Decoder.finalStep_noMarker (hlen : d.pos + 8 ≤ d.inLen) (hmarker : m.readBytes d.pos 8 ≠ endMarker) :
    d.finalStep c m = d.raise .missingEndMarker := by
  rw [Decoder.finalStep, if_neg (by omega), if_pos hmarker]

/-- What FINAL does where the end marker stands: the third check, and what passes it. -/
theorem Decoder.finalStep_marker (hlen : d.pos + 8 ≤ d.inLen) (hmarker : m.readBytes d.pos 8 = endMarker) :
    d.finalStep c m =
      if c.trailing = .reject ∧ d.pos + 8 ≠ d.inLen then Decoder.raise { d with pos := d.pos + 8 } .trailingBytes
      else { d with
        pos := d.pos + 8, run := 0, outWidth := d.w, outHeight := d.h, outChannels := d.ch, outColorspace := d.cs,
        outLen := lengthRegister c (d.n * d.ch.toNat), consumed := lengthRegister c (d.pos + 8), phase := .done } := by
  rw [Decoder.finalStep, if_neg (by omega), if_neg (not_not.2 hmarker)]

/-- FINAL with every check passed. -/
theorem Decoder.finalStep_passes (hlen : d.pos + 8 ≤ d.inLen) (hmarker : m.readBytes d.pos 8 = endMarker)
    (htrail : c.trailing = .reject → d.pos + 8 = d.inLen) :
    d.finalStep c m = { d with
      pos := d.pos + 8, run := 0, outWidth := d.w, outHeight := d.h, outChannels := d.ch, outColorspace := d.cs,
      outLen := lengthRegister c (d.n * d.ch.toNat), consumed := lengthRegister c (d.pos + 8), phase := .done } := by
  rw [Decoder.finalStep_marker hlen hmarker, if_neg fun ⟨hreject, hne⟩ => hne (htrail hreject)]

end Final

/-- Settles O17, by the first check that fails, or else by what FINAL publishes. -/
theorem decoderFinalStep : Obligations.DecoderFinalStep := by
  intro s k d hturn hb hs hpix m
  refine ⟨d.finalStep s.cfg m, by rw [step_of_decTurn hturn, Decoder.step_final hb hs hpix.not_lt], fun hlen => ?_,
    fun hlen hmarker => ?_, fun hlen hmarker hreject hne => ?_, fun hlen hmarker htrail => ?_⟩
  · rw [Decoder.finalStep_short hlen]
    exact d.raise_aborts _ _ _ _ _ _ _
  · rw [Decoder.finalStep_noMarker hlen hmarker]
    exact d.raise_aborts _ _ _ _ _ _ _
  · rw [Decoder.finalStep_marker hlen hmarker, if_pos ⟨hreject, hne⟩]
    exact d.raise_aborts _ _ _ _ _ _ _
  · rw [Decoder.finalStep_passes hlen hmarker htrail]
    exact ⟨lengthRegister_of_fits, lengthRegister_of_fits, rfl⟩

end Sys2Proof.Machine
end

section
/-! PROOFS. How long a decode takes (42_decoder.md R200; 60_exceptions.md R266): the PHASE of a decoder after any number
of its steps. -/

namespace Sys2Proof.Machine

section Phase
variable {c : Config} {m : Memory} {d : Decoder}

/-- A decoder that is not BUSY takes no step, however often it is its turn (10_state.md R31). -/
theorem Decoder.iterate_idle (hidle : d.phase ≠ .busy) (k : Nat) : (Decoder.step c m)^[k] d = d :=
  Function.iterate_fixed (Decoder.step_idle hidle) k

/-- An abort ends the operation: the engine takes no step after it (60_exceptions.md R260). -/
theorem Decoder.iterate_raise (d : Decoder) (code : ErrCode) (k : Nat) :
    (Decoder.step c m)^[k] (d.raise code) = d.raise code :=
  Decoder.iterate_idle (by simp) k

/-- A pixel step aborts for want of bytes, or commits a pixel (42_decoder.md R204, R213). -/
theorem Decoder.pixelStep_cases (c : Config) (m : Memory) (d : Decoder) :
    d.pixelStep c m = d.raise .truncatedStream ∨
    ∃ pos run px, d.pixelStep c m = Decoder.commit { d with pos := pos, run := run } px := by
  unfold Decoder.pixelStep
  split
  · exact .inr ⟨d.pos, _, _, rfl⟩
  · cases d.fetchChunk c m with
    | none => exact .inl rfl
    | some il => exact .inr ⟨_, _, _, Decoder.execChunk_eq _ _⟩

/-- In BODY a decoder that has not aborted is BUSY for one step per pixel left, and DONE after FINAL (42_decoder.md
R200). -/
theorem Decoder.iterate_phase_of_body (hb : d.phase = .busy) (hs : d.stage = .body) (hle : d.pix ≤ d.n) (k : Nat) :
    ((Decoder.step c m)^[k] d).phase = .error ∨
    ((Decoder.step c m)^[k] d).phase = if k ≤ d.n - d.pix then .busy else .done := by
  induction k generalizing d with
  | zero => exact .inr hb
  | succ k ih =>
    rw [Function.iterate_succ_apply]
    by_cases hpix : d.pix < d.n
    · rw [Decoder.step_pixel ⟨hb, hs, hpix⟩]
      obtain hstep | ⟨pos, run, px, hstep⟩ := d.pixelStep_cases c m <;> rw [hstep]
      · exact .inl (by rw [Decoder.iterate_raise, Decoder.raise_phase])
      · refine (ih (d := Decoder.commit { d with pos := pos, run := run } px) hb hs hpix).imp_right fun h => h.trans ?_
        show (if k ≤ d.n - (d.pix + 1) then Phase.busy else Phase.done) = _
        exact if_congr (by omega) rfl rfl
    · rw [Decoder.step_final hb hs hpix]
      obtain ⟨pos, code, -, hfinal⟩ | ⟨-, -, hfinal⟩ := d.finalStep_cases c m
      · exact .inl (by rw [hfinal, Decoder.iterate_raise, Decoder.raise_phase])
      · exact .inr (by rw [Decoder.iterate_idle (by simp [hfinal]), hfinal, if_neg (by omega)])

/-- A decode whose header passes and that has not aborted is BUSY through INIT, every pixel and FINAL, and then DONE
(42_decoder.md R200). -/
theorem Decoder.iterate_phase_of_headerOk (hb : d.phase = .busy) (hs : d.stage = .init) (hok : d.headerOk c m)
    (k : Nat) :
    ((Decoder.step c m)^[k] d).phase = .error ∨
    ((Decoder.step c m)^[k] d).phase = if k < m.headerPixels c + 2 then .busy else .done := by
  cases k with
  | zero => exact .inr (hb.trans (if_pos (Nat.succ_pos _)).symm)
  | succ k =>
    rw [Function.iterate_succ_apply, Decoder.step_init hb hs, Decoder.initStep_passes hok]
    refine (Decoder.iterate_phase_of_body (d := (d.withHeader c m).clearWorking c) hb rfl (Nat.zero_le _) k).imp_right
      fun h => h.trans ?_
    show (if k ≤ (d.withHeader c m).n - 0 then Phase.busy else Phase.done) = _
    rw [Decoder.withHeader_n]
    exact if_congr (by omega) rfl rfl

/-- INIT puts any other decode in ERROR, where it stays (60_exceptions.md R266). -/
theorem Decoder.iterate_of_header_bad (hb : d.phase = .busy) (hs : d.stage = .init) (hbad : ¬d.headerOk c m) {k : Nat}
    (hk : 0 < k) :
    ((Decoder.step c m)^[k] d).phase = .error ∧ ((Decoder.step c m)^[k] d).err = d.rejectCode c m := by
  obtain ⟨k, rfl⟩ := Nat.exists_eq_add_one_of_ne_zero hk.ne'
  obtain ⟨herror, hcode, -⟩ := Decoder.initStep_aborts hbad
  rw [Function.iterate_succ_apply, Decoder.step_init hb hs, Decoder.iterate_idle (by simp [herror])]
  exact ⟨herror, hcode⟩

end Phase

/-- Settles O55: INIT, one step for each pixel and FINAL, of which any may abort. -/
theorem decodeTakesAtMostTheseSteps : Obligations.DecodeTakesAtMostTheseSteps := by
  intro s k d hd hb hs b m
  obtain ⟨t, hrun, hget⟩ := runSteps_dec_get m hd
  refine ⟨t, _, hrun, hget, fun hmagic hformat hdim => ?_, fun hbad hm =>
    (Decoder.iterate_of_header_bad hb hs hbad hm).1⟩
  have hphase := Decoder.iterate_phase_of_headerOk hb hs ⟨hmagic, hformat, hdim⟩ m
  refine ⟨fun hlt => ?_, fun hge => ?_⟩
  · rw [if_pos hlt] at hphase
    exact hphase.symm
  · rw [if_neg (Nat.not_lt.2 hge)] at hphase
    exact hphase.symm

end Sys2Proof.Machine
end

section
/-! PROOFS. A stream cut short (42_decoder.md R219): the decode of the same bytes with a smaller d.IN_LEN keeps pace
with the whole one until it lacks a byte that the whole one consumes. -/

namespace Sys2Proof.Machine

/-- The decoder with its stream cut to `len` bytes. -/
def Decoder.cutTo (len : Nat) (d : Decoder) : Decoder := { d with inLen := len }

section Cut
variable {c : Config} {m : Memory} {d : Decoder} {cut : Nat}

/-- From the cut stream no chunk is fetched, or the same one (42_decoder.md R206). -/
theorem Decoder.fetchChunk_cutTo (hcut : cut ≤ d.inLen) :
    (d.cutTo cut).fetchChunk c m = none ∨ (d.cutTo cut).fetchChunk c m = d.fetchChunk c m := by
  obtain ⟨-, hnone, -⟩ | ⟨hfits, i, hcutChunk, -⟩ := (d.cutTo cut).fetchChunk_cases c m
  · exact .inl hnone
  · obtain ⟨hshort, -⟩ | ⟨-, j, hchunk, -⟩ := d.fetchChunk_cases c m
    · exact absurd (hfits.trans hcut) (Nat.not_le.2 hshort)
    · obtain ⟨-, -, _, hi⟩ := Decoder.fetchChunk_some hcutChunk
      obtain ⟨-, -, _, hj⟩ := Decoder.fetchChunk_some hchunk
      cases hi.symm.trans hj
      exact .inr (hcutChunk.trans hchunk.symm)

/-- A pixel step on the cut stream aborts, or does what it does on the whole one. -/
theorem Decoder.pixelStep_cutTo (hcut : cut ≤ d.inLen) :
    (d.cutTo cut).pixelStep c m = (d.cutTo cut).raise .truncatedStream ∨
    (d.cutTo cut).pixelStep c m = (d.pixelStep c m).cutTo cut := by
  by_cases hrun : d.run ≠ 0
  · have hrun' : (d.cutTo cut).run ≠ 0 := hrun
    rw [Decoder.pixelStep, Decoder.pixelStep, if_pos hrun, if_pos hrun']
    exact .inr rfl
  · have hrun' : ¬(d.cutTo cut).run ≠ 0 := hrun
    rw [Decoder.pixelStep, Decoder.pixelStep, if_neg hrun, if_neg hrun']
    obtain hfetch | hfetch := Decoder.fetchChunk_cutTo (c := c) (m := m) hcut <;> rw [hfetch]
    · exact .inl rfl
    · cases d.fetchChunk c m with
      | none => exact .inl rfl
      | some il =>
        dsimp only
        rw [Decoder.execChunk_eq, Decoder.execChunk_eq]
        exact .inr rfl

/-- A body that ends in DONE on the whole stream ends in TruncatedStream on one cut short of what it consumes
(42_decoder.md R206, R215). -/
theorem Decoder.iterate_cutTo_of_body (hb : d.phase = .busy) (hs : d.stage = .body) (hcut : cut ≤ d.inLen) {k : Nat}
    (hdone : ((Decoder.step c m)^[k] d).phase = .done) (hpos : cut < ((Decoder.step c m)^[k] d).pos) :
    ((Decoder.step c m)^[k] (d.cutTo cut)).phase = .error ∧
    ((Decoder.step c m)^[k] (d.cutTo cut)).err = .truncatedStream := by
  induction k generalizing d with
  | zero => exact nomatch hb.symm.trans hdone
  | succ k ih =>
    rw [Function.iterate_succ_apply] at hdone hpos ⊢
    by_cases hpix : d.pix < d.n
    · rw [Decoder.step_pixel ⟨hb, hs, hpix⟩] at hdone hpos
      rw [Decoder.step_pixel (d := d.cutTo cut) ⟨hb, hs, hpix⟩]
      obtain hstep | hstep := Decoder.pixelStep_cutTo (c := c) (m := m) hcut <;> rw [hstep]
      · rw [Decoder.iterate_raise]
        exact ⟨rfl, rfl⟩
      · obtain hwhole | ⟨pos, run, px, hwhole⟩ := d.pixelStep_cases c m <;> rw [hwhole] at hdone hpos ⊢
        · rw [Decoder.iterate_raise] at hdone
          cases hdone
        · exact ih hb hs hcut hdone hpos
    · rw [Decoder.step_final hb hs hpix] at hdone hpos
      rw [Decoder.step_final (d := d.cutTo cut) hb hs hpix]
      obtain ⟨pos, code, -, hfinal⟩ | ⟨-, -, hfinal⟩ := d.finalStep_cases c m
      · rw [hfinal, Decoder.iterate_raise] at hdone
        cases hdone
      · rw [Decoder.iterate_idle (by simp [hfinal]), hfinal] at hpos
        rw [Decoder.finalStep_short (d := d.cutTo cut) hpos, Decoder.iterate_raise]
        exact ⟨rfl, rfl⟩

/-- A decode that ends in DONE on the whole stream ends in TruncatedHeader on one cut inside the header, and in
TruncatedStream on one cut after it (42_decoder.md R219). -/
theorem Decoder.iterate_cutTo (hb : d.phase = .busy) (hs : d.stage = .init) (hcut : cut ≤ d.inLen) {k : Nat}
    (hdone : ((Decoder.step c m)^[k] d).phase = .done) (hpos : cut < ((Decoder.step c m)^[k] d).pos) :
    ((Decoder.step c m)^[k] (d.cutTo cut)).phase = .error ∧
    ((Decoder.step c m)^[k] (d.cutTo cut)).err = if cut < hdrLen c then .truncatedHeader else .truncatedStream := by
  cases k with
  | zero => exact nomatch hb.symm.trans hdone
  | succ k =>
    by_cases hok : d.headerOk c m
    · by_cases hhdr : cut < hdrLen c
      · rw [if_pos hhdr, ← Decoder.rejectCode_short (d := d.cutTo cut) (m := m) hhdr]
        exact Decoder.iterate_of_header_bad (d := d.cutTo cut) hb hs
          (fun ⟨⟨hle, _⟩, _⟩ => absurd hle (Nat.not_le.2 hhdr)) (Nat.succ_pos k)
      · have hok' : (d.cutTo cut).headerOk c m := ⟨⟨Nat.not_lt.1 hhdr, hok.1.2⟩, hok.2⟩
        rw [Function.iterate_succ_apply, Decoder.step_init hb hs, Decoder.initStep_passes hok] at hdone hpos
        rw [if_neg hhdr, Function.iterate_succ_apply, Decoder.step_init (d := d.cutTo cut) hb hs,
          Decoder.initStep_passes hok']
        exact Decoder.iterate_cutTo_of_body (d := (d.withHeader c m).clearWorking c) hb rfl hcut hdone hpos
    · rw [(Decoder.iterate_of_header_bad hb hs hok (Nat.succ_pos k)).1] at hdone
      cases hdone

/-- Steps leave d.IN_LEN (10_state.md R40). -/
theorem Decoder.iterate_inLen (k : Nat) : ((Decoder.step c m)^[k] d).inLen = d.inLen := by
  induction k with
  | zero => rfl
  | succ k ih => rw [Function.iterate_succ_apply', (Decoder.step_frame c m _).1.inLen, ih]

/-- A decode that ends in DONE has consumed no more than its stream (10_state.md R43). -/
theorem Decoder.iterate_pos_le (hb : d.phase = .busy) (hs : d.stage = .init) {k : Nat}
    (hdone : ((Decoder.step c m)^[k] d).phase = .done) : ((Decoder.step c m)^[k] d).pos ≤ d.inLen := by
  have hok : d.sequencerOk c :=
    ⟨fun _ hbody => (nomatch hs.symm.trans hbody), fun hdone => nomatch hb.symm.trans hdone⟩
  obtain ⟨-, -, -, -, -, -, -, -, -, -, -, -, -, hpos, -⟩ := (hok.iterate (m := m) k).2 hdone
  exact hpos.trans (Decoder.iterate_inLen k).le

end Cut

/-- Cutting a stream leaves the bytes below the cut: of a memory all of them, and of an open stream those at the same
addresses (notes/assumptions/14.md). -/
theorem State.decStream_cutTo (s : State) {d : Decoder} {cut : Nat} (hcut : cut ≤ d.inLen) :
    Memory.AgreeBelow (s.decStream d) (s.decStream (d.cutTo cut)) cut := by
  intro a ha
  cases hopen : d.openStream with
  | none =>
    rw [State.decStream_settled hopen, State.decStream_settled (d := d.cutTo cut) hopen]
    rfl
  | some n =>
    rw [State.decStream_open hopen, State.decStream_open (d := d.cutTo cut) hopen, read_freeStream (ha.trans_le hcut)]
    exact (read_freeStream (len := cut) ha).symm

/-- Settles O60: on the same stream cut short the decode aborts, and it does so on any stream with those bytes. -/
theorem truncatedStreamNeverDecodes : Obligations.TruncatedStreamNeverDecodes := by
  intro s t k m cut d f hd hb hs hrun hf hdone hcut
  obtain ⟨u, hrun', hget⟩ := runSteps_dec_get m hd
  rw [hrun] at hrun'
  cases hrun'
  rw [hf] at hget
  cases hget
  have hle : cut ≤ d.inLen := hcut.le.trans (Decoder.iterate_pos_le hb hs hdone)
  have twin : (d.cutTo cut).Twin (d.cutTo cut) :=
    { phase := rfl, stage := rfl, inLen := rfl, err := fun _ => rfl
      work := fun hbody => nomatch hs.symm.trans hbody
      published := fun hdone => nomatch hb.symm.trans hdone }
  have result := twin.iterate (c := s.cfg) m (s.decStream_cutTo hle)
  obtain ⟨herror, hcode⟩ := Decoder.iterate_cutTo hb hs hle hdone hcut
  obtain ⟨t', hrun', hget'⟩ := runSteps_dec_get m (State.setDec_get hd (d.cutTo cut))
  exact ⟨t', _, hrun', hget', result.phase.symm.trans herror, (result.err herror).symm.trans hcode⟩

end Sys2Proof.Machine
end

section
/-! PROOFS. What the decode of an encode's stream gives back (42_decoder.md R216, R218): beside the lockstep of the two
engines, the decoder has written to DEC_OUT the bytes of every pixel that it has decoded. -/

namespace Sys2Proof.Machine

/-! ### What an encode leaves of its request -/

/-- `e'` has the latched request and the pixels of `e` (10_state.md R32). -/
structure Encoder.SameRequest (e e' : Encoder) : Prop where
  w : e'.w = e.w
  h : e'.h = e.h
  ch : e'.ch = e.ch
  cs : e'.cs = e.cs
  inLen : e'.inLen = e.inLen
  input : e'.input = e.input

section Request
variable {c : Config} {e e' e'' : Encoder}

theorem Encoder.SameRequest.trans (h : e.SameRequest e') (h' : e'.SameRequest e'') : e.SameRequest e'' :=
  ⟨h'.w.trans h.w, h'.h.trans h.h, h'.ch.trans h.ch, h'.cs.trans h.cs, h'.inLen.trans h.inLen,
    h'.input.trans h.input⟩

/-- No step of an encoder changes its request. -/
theorem Encoder.step_request (c : Config) (e : Encoder) : e.SameRequest (e.step c) := by
  obtain ⟨-, hstep⟩ | ⟨-, -, hstep⟩ | ⟨-, hstep⟩ | ⟨-, -, -, hstep⟩ := e.step_cases c <;> rw [hstep]
  · exact ⟨rfl, rfl, rfl, rfl, rfl, rfl⟩
  · obtain ⟨-, n, hinit⟩ | ⟨-, hinit⟩ := e.initStep_cases c <;> rw [hinit] <;> exact ⟨rfl, rfl, rfl, rfl, rfl, rfl⟩
  · obtain ⟨run, opos, output, cache, hpixel⟩ := e.pixelStep_shape c
    rw [hpixel]
    exact ⟨rfl, rfl, rfl, rfl, rfl, rfl⟩
  · obtain ⟨output, hfinal⟩ := e.finalStep_shape c
    rw [hfinal]
    exact ⟨rfl, rfl, rfl, rfl, rfl, rfl⟩

theorem Encoder.iterate_request (c : Config) (e : Encoder) (k : Nat) : e.SameRequest ((Encoder.step c)^[k] e) := by
  induction k with
  | zero => exact ⟨rfl, rfl, rfl, rfl, rfl, rfl⟩
  | succ k ih =>
    rw [Function.iterate_succ_apply']
    exact ih.trans (Encoder.step_request c _)

/-- Past INIT the pixel count stays (10_state.md R32). -/
theorem Encoder.iterate_n_of_body (hs : e.stage = .body) (k : Nat) :
    ((Encoder.step c)^[k] e).stage = .body ∧ ((Encoder.step c)^[k] e).n = e.n := by
  induction k with
  | zero => exact ⟨hs, rfl⟩
  | succ k ih =>
    rw [Function.iterate_succ_apply']
    obtain ⟨hbody, hn⟩ := ih
    obtain ⟨-, hstep⟩ | ⟨-, hinit, -⟩ | ⟨-, hstep⟩ | ⟨-, -, -, hstep⟩ := ((Encoder.step c)^[k] e).step_cases c
    · rw [hstep]
      exact ⟨hbody, hn⟩
    · exact nomatch hbody.symm.trans hinit
    · obtain ⟨-, hstage, hn', -⟩ := ((Encoder.step c)^[k] e).pixelStep_frame c
      rw [hstep]
      exact ⟨hstage.trans hbody, hn'.trans hn⟩
    · obtain ⟨output, hfinal⟩ := ((Encoder.step c)^[k] e).finalStep_shape c
      rw [hstep, hfinal]
      exact ⟨hbody, hn⟩

/-- Any number of steps keeps the sequencers in range. -/
theorem Encoder.sequencerOk.iterate (k : Nat) (h : e.sequencerOk c) : ((Encoder.step c)^[k] e).sequencerOk c := by
  induction k generalizing e with
  | zero => exact h
  | succ k ih => exact ih h.step

/-- A legal encode ends in DONE, and publishes the length of a stream within the size bound (41_encoder.md R175). -/
theorem Encoder.iterate_done (hb : e.phase = .busy) (hs : e.stage = .init) (hlegal : e.legal c) :
    ((Encoder.step c)^[e.w.toNat * e.h.toNat + 2] e).phase = .done ∧
    ((Encoder.step c)^[e.w.toNat * e.h.toNat + 2] e).outLen =
      lengthRegister c ((Encoder.step c)^[e.w.toNat * e.h.toNat + 2] e).opos ∧
    ((Encoder.step c)^[e.w.toNat * e.h.toNat + 2] e).opos ≤ streamBound c (e.w.toNat * e.h.toNat) e.ch.toNat := by
  have hok : e.sequencerOk c :=
    ⟨fun _ hbody => (nomatch hs.symm.trans hbody), fun hdone => nomatch hb.symm.trans hdone⟩
  have hdone := Encoder.iterate_phase_of_legal hb hs hlegal (e.w.toNat * e.h.toNat + 2)
  rw [if_neg (Nat.lt_irrefl _)] at hdone
  obtain ⟨hlen, hbound, -⟩ := (hok.iterate _).2 hdone
  have hn : ((Encoder.step c)^[e.w.toNat * e.h.toNat + 2] e).n = e.w.toNat * e.h.toNat := by
    rw [Function.iterate_succ_apply, Encoder.step_init hb hs, Encoder.initStep_legal hlegal,
      (Encoder.iterate_n_of_body (by rfl) _).2]
    rfl
  rw [hn, (Encoder.iterate_request c e _).ch] at hbound
  exact ⟨hdone, hlen, hbound⟩

end Request

/-! ### The bytes of a pixel -/

/-- The bytes that WritePixel stores of a pixel that was read are the bytes it was read from (41_encoder.md R163;
42_decoder.md R214). -/
theorem Decoder.pixelList_readPixel {d : Decoder} {e : Encoder} (hch : d.ch = e.ch) (hlegal : e.ch = 3 ∨ e.ch = 4)
    (i : Nat) : d.pixelList (e.readPixel i) = e.input.readBytes (i * d.pixelBytes) d.pixelBytes := by
  unfold Decoder.pixelList Decoder.pixelBytes Encoder.readPixel
  rw [hch]
  obtain h | h := hlegal <;> rw [h] <;> rfl

/-- The pixel bytes of a legal channel count are that count. -/
theorem Decoder.pixelBytes_eq {d : Decoder} (h : d.ch = 3 ∨ d.ch = 4) : d.pixelBytes = d.ch.toNat := by
  unfold Decoder.pixelBytes
  obtain h | h := h <;> rw [h] <;> rfl

/-- `d` has the header of the request of `e`, and has written as many bytes of its pixels as it has decoded. -/
structure Decoder.Mirrors (d : Decoder) (e : Encoder) : Prop where
  w : d.w = e.w
  h : d.h = e.h
  ch : d.ch = e.ch
  cs : d.cs = e.cs
  output : ∀ a, a < d.pixelAddr → d.output.read a = e.input.read a

section Mirror
variable {c : Config} {m : Memory} {e : Encoder} {d : Decoder}

/-- What mirrors one encoder mirrors any with the same request. -/
theorem Decoder.Mirrors.of_request {e' : Encoder} (hm : d.Mirrors e) (hrequest : e.SameRequest e') : d.Mirrors e' := by
  obtain ⟨hw, hh, hch, hcs, -, hinput⟩ := hrequest
  exact ⟨hm.w.trans hw.symm, hm.h.trans hh.symm, hm.ch.trans hch.symm, hm.cs.trans hcs.symm,
    hinput ▸ hm.output⟩

/-- PixelCommit of the next pixel writes its bytes (42_decoder.md R213, R214). -/
theorem Decoder.Mirrors.commit (hm : d.Mirrors e) (hlegal : e.ch = 3 ∨ e.ch = 4) (pos : Nat) (run : BitVec 6) :
    (Decoder.commit { d with pos := pos, run := run } (e.readPixel d.pix)).Mirrors e := by
  refine ⟨hm.w, hm.h, hm.ch, hm.cs, fun a ha => ?_⟩
  by_cases hlt : a < d.pixelAddr
  · exact (Decoder.commit_output_outside { d with pos := pos, run := run } _ (.inl hlt)).trans (hm.output a hlt)
  · obtain ⟨i, rfl⟩ := Nat.exists_eq_add_of_le (Nat.not_lt.1 hlt)
    have hnext : (Decoder.commit { d with pos := pos, run := run } (e.readPixel d.pix)).pixelAddr =
        d.pixelAddr + d.pixelBytes := Nat.succ_mul _ _
    have hi : i < (d.pixelList (e.readPixel d.pix)).length := by rw [Decoder.pixelList_length]; omega
    refine (Decoder.commit_output_pixel { d with pos := pos, run := run } _ i hi).trans ?_
    exact (List.getElem_of_eq (Decoder.pixelList_readPixel hm.ch hlegal d.pix) hi).trans
      (Memory.readBytes_getElem _ _ _ _ _)

/-- In lockstep the decoder's step commits the pixel that the encoder reads (40_cache_hash.md R148). -/
theorem Lockstep.decoderStep (h : Lockstep c m e d) (hpix : e.pix < e.n) :
    ∃ pos run, d.step c m = Decoder.commit { d with pos := pos, run := run } (e.readPixel e.pix) := by
  obtain ⟨-, -, hphase, -, -, -, hprev, -⟩ := h.step hpix
  rw [Encoder.step_pixel (h.streams.atPixel hpix), Encoder.pixelStep_prev] at hprev
  rw [Decoder.step_pixel (h.atPixel hpix)] at hphase hprev ⊢
  obtain hstep | ⟨pos, run, px, hstep⟩ := d.pixelStep_cases c m <;> rw [hstep] at hphase hprev ⊢
  · cases hphase
  · exact ⟨pos, run, by rw [← hprev, Decoder.commit_prev]⟩

/-- The decoder's output follows the pixels that the encoder reads. -/
theorem Lockstep.step_mirrors (h : Lockstep c m e d) (hm : d.Mirrors e) (hpix : e.pix < e.n) :
    (d.step c m).Mirrors (e.step c) := by
  obtain ⟨⟨hlegal, -⟩, -⟩ := h.streams.inv
  obtain ⟨pos, run, hstep⟩ := h.decoderStep hpix
  rw [hstep, ← h.pix]
  exact (hm.commit hlegal pos run).of_request (e.step_request c)

/-- Any number of pixel steps keeps the output so. -/
theorem Lockstep.iterate_mirrors (k : Nat) (h : Lockstep c m e d) (hm : d.Mirrors e) (hk : e.pix + k ≤ e.n) :
    ((Decoder.step c m)^[k] d).Mirrors ((Encoder.step c)^[k] e) := by
  induction k with
  | zero => exact hm
  | succ k ih =>
    obtain ⟨lock, hn, hpix, -⟩ := h.iterate k (by omega)
    rw [Function.iterate_succ_apply', Function.iterate_succ_apply']
    exact lock.step_mirrors (ih (by omega)) (by omega)

/-- INIT of the decoder takes over the request (41_encoder.md R162; 42_decoder.md R202). -/
theorem mirrors_init {len : Nat} (hlegal : e.legal c) (streams : (e.initStep c).Streams c m len)
    (hlen : d.inLen = len) : (d.initStep c m).Mirrors (e.initStep c) := by
  have hemitted := streams.emitted
  rw [Encoder.initStep_legal hlegal] at hemitted ⊢
  obtain ⟨-, hfits, hbytes⟩ := hemitted.of_appends
    (Encoder.emit_appends (Encoder.clearWorking { e with n := e.w.toNat * e.h.toNat })
      (headerBytes c e.w e.h e.ch e.cs))
  rw [headerBytes_length] at hfits hbytes
  rw [Encoder.clearWorking_opos, Nat.zero_add, ← hlen] at hfits
  rw [Decoder.initStep_of_header hlegal hfits hbytes]
  exact ⟨rfl, rfl, rfl, rfl, fun a ha => absurd ha (by simp [Decoder.pixelAddr, Decoder.clearWorking])⟩

/-- FINAL of a decoder in lockstep finds the end marker that the encoder appends, and nothing after it (41_encoder.md
R174; 42_decoder.md R215). -/
theorem Lockstep.finalStep (h : Lockstep c m e d) (hpix : e.pix = e.n) (hlen : d.inLen = (e.finalStep c).opos) :
    d.finalStep c m = { d with
      pos := (e.finalStep c).opos, run := 0, outWidth := d.w, outHeight := d.h, outChannels := d.ch,
      outColorspace := d.cs, outLen := lengthRegister c (d.n * d.ch.toNat),
      consumed := lengthRegister c (e.finalStep c).opos, phase := .done } := by
  have hends := h.streams.ends
  have happ := e.finalStep_appends c
  rw [Encoder.finished_last h.streams.busy h.streams.body hpix] at hends
  obtain ⟨-, -, hread⟩ := hends.of_appends happ
  rw [List.length_append, Memory.readBytes_add, ← h.pos] at hread
  obtain ⟨-, hmarker⟩ := List.append_inj hread (by simp)
  have hpos : (e.finalStep c).opos = d.pos + 8 := by
    rw [happ.1, List.length_append, ← Nat.add_assoc, ← h.pos]
    rfl
  rw [hpos] at hlen ⊢
  exact Decoder.finalStep_passes hlen.ge hmarker fun _ => hlen.symm

/-- `d` is DONE with the descriptor and the pixels of `e`, having consumed `len` bytes (42_decoder.md R216, R218). -/
structure Decoder.Restores (c : Config) (d : Decoder) (e : Encoder) (len : Nat) : Prop where
  phase : d.phase = .done
  outWidth : d.outWidth = e.w
  outHeight : d.outHeight = e.h
  outChannels : d.outChannels = e.ch
  outColorspace : d.outColorspace = e.cs
  outLen : d.outLen = lengthRegister c e.inLen
  consumed : d.consumed = lengthRegister c len
  output : ∀ a, a < e.inLen → d.output.read a = e.input.read a

/-- What restores one encoder's request restores that of any encoder with the same request. -/
theorem Decoder.Restores.of_request {e' : Encoder} {len : Nat} (h : d.Restores c e' len) (hrequest : e.SameRequest e') :
    d.Restores c e len := by
  obtain ⟨hw, hh, hch, hcs, hlen, hinput⟩ := hrequest
  exact ⟨h.phase, h.outWidth.trans hw, h.outHeight.trans hh, h.outChannels.trans hch, h.outColorspace.trans hcs,
    hlen ▸ h.outLen, h.consumed, hlen ▸ hinput ▸ h.output⟩

/-- FINAL of a decoder in lockstep publishes the request that the encoder has encoded (42_decoder.md R215, R216). -/
theorem Lockstep.finalStep_restores (h : Lockstep c m e d) (hm : d.Mirrors e) (hpix : e.pix = e.n)
    (hlen : d.inLen = (e.finalStep c).opos) : (d.finalStep c m).Restores c e d.inLen := by
  obtain ⟨⟨hch, -, -, -, -, hsize⟩, hn, -⟩ := h.streams.inv
  have hcount : d.n * d.ch.toNat = e.inLen := by rw [h.n, hn, hm.ch, hsize]
  have haddr : d.pixelAddr = e.inLen := by
    rw [Decoder.pixelAddr, Decoder.pixelBytes_eq (hm.ch ▸ hch), h.pix, hpix, ← h.n, hcount]
  rw [h.finalStep hpix hlen, hcount, ← hlen]
  exact ⟨rfl, hm.w, hm.h, hm.ch, hm.cs, rfl, rfl, fun a ha => hm.output a (haddr ▸ ha)⟩

/-- The decode of a legal encode's whole stream restores the request's descriptor and pixels (42_decoder.md R218). -/
theorem decode_restores (hb : e.phase = .busy) (hs : e.stage = .init) (hlegal : e.legal c) (hdb : d.phase = .busy)
    (hds : d.stage = .init) (hlen : d.inLen = ((Encoder.step c)^[e.w.toNat * e.h.toNat + 2] e).opos)
    (hstream : ∀ a, a < d.inLen → m.read a = ((Encoder.step c)^[e.w.toNat * e.h.toNat + 2] e).output.read a) :
    ((Decoder.step c m)^[e.w.toNat * e.h.toNat + 2] d).Restores c e d.inLen := by
  have streams : (e.initStep c).Streams c m d.inLen :=
    Encoder.initStep_streams hb hs hlegal ⟨hlen.ge, fun a ha => hstream a (hlen ▸ ha)⟩
  obtain ⟨hn, hpix⟩ : (e.initStep c).n = e.w.toNat * e.h.toNat ∧ (e.initStep c).pix = 0 := by
    rw [Encoder.initStep_legal hlegal]
    exact ⟨rfl, rfl⟩
  have start := lockstep_init hlegal hdb streams
  have hleft : (e.initStep c).pix + e.w.toNat * e.h.toNat ≤ (e.initStep c).n := by omega
  obtain ⟨lock, hn', hpix', -⟩ := start.iterate _ hleft
  have mirror := start.iterate_mirrors _ (mirrors_init hlegal streams rfl) hleft
  have hlast : ((Encoder.step c)^[e.w.toNat * e.h.toNat] (e.initStep c)).pix =
      ((Encoder.step c)^[e.w.toNat * e.h.toNat] (e.initStep c)).n := by omega
  rw [← Encoder.step_init hb hs, ← Function.iterate_succ_apply] at lock mirror hlast
  rw [← Decoder.step_init hdb hds, ← Function.iterate_succ_apply] at lock mirror
  rw [Function.iterate_succ_apply', Encoder.step_final lock.streams.busy lock.streams.body hlast.not_lt] at hlen
  rw [Function.iterate_succ_apply', Decoder.step_final lock.phase lock.stage (by rw [lock.pix, lock.n, hlast]; simp)]
  have hsame := Decoder.iterate_inLen (c := c) (m := m) (d := d) (e.w.toNat * e.h.toNat + 1)
  have restores := (lock.finalStep_restores mirror hlast (hsame.trans hlen)).of_request (e.iterate_request c _)
  rwa [hsame] at restores

end Mirror

end Sys2Proof.Machine
end

section
/-! PROOFS. A whole round trip (42_decoder.md R218): the host observes DONE on the encoder (20_memory.md R82), hands the
stream over in either way of R86, and starts the decoder. -/

namespace Sys2Proof.Machine

/-! ### Lengths that fit (92_eei_decisions.md D29) -/

theorem Config.fits_of_le {c : Config} {len bound : Nat} (h : c.fits bound) (hle : len ≤ bound) : c.fits len :=
  fun width hwidth => hle.trans_lt (h width hwidth)

/-- Bytes from address 0 on, as many as fit a length register, are addressable (20_memory.md R70). -/
theorem Config.addressable_of_fits {c : Config} {len : Nat} (h : c.fits len) : c.addressable 0 len :=
  fun width hwidth => (Nat.zero_add len).trans_le (h width hwidth).le

/-! ### Handing the stream over (20_memory.md R86) -/

/-- Decoder `j`, not BUSY and in state `d`, can decode the first `len` bytes of `stream`: they stand in its DEC_IN, on
which the host may rely. -/
structure State.Offers (s : State) (j : Nat) (d : Decoder) (stream : Memory) (len : Nat) : Prop where
  dec : s.decs[j]? = some d
  idle : d.phase ≠ .busy
  ready : s.streamReady d = true
  reads : ∀ a, a < len → (s.decInput d).read a = stream.read a

/-- Decoder `j`, in state `d`, is before INIT of the decode of a stream that starts with the first `len` bytes of
`stream`. -/
structure State.Begins (s : State) (j : Nat) (d : Decoder) (stream : Memory) (len : Nat) : Prop where
  dec : s.decs[j]? = some d
  busy : d.phase = .busy
  init : d.stage = .init
  inLen : d.inLen = lengthRegister s.cfg len
  reads : ∀ a, a < len → (s.decStream d).read a = stream.read a

/-- The first move of the agenda is the one to make. -/
theorem State.nextMove_of_agenda {s : State} {m : Move} {rest : List Move} (h : s.agenda = m :: rest) :
    s.nextMove = some m := by
  rw [State.nextMove, h]

section HandOver
variable {s : State} {k j : Nat} {e : Encoder} {d : Decoder} {rest : List Move}

/-- The host's read of ENC_STATUS is the DONE observation, and changes no other register (20_memory.md R82). -/
theorem runSteps_observeDone (hagenda : s.agenda = .host (.readEncReg k 1) :: rest) (he : s.encs[k]? = some e)
    (hdone : e.phase = .done) :
    ∃ u, runSteps 1 s = .next u ∧ u.agenda = rest ∧ u.cfg = s.cfg ∧ u.decs = s.decs ∧
      u.encs[k]? = some { e with observed := true } := by
  have hread := step_readEncReg (State.nextMove_of_agenda hagenda) he
  exact ⟨_, runSteps_succ hread, congrArg List.tail hagenda, rfl, rfl,
    (State.setEnc_get he _).trans (congrArg some (if_pos hdone))⟩

/-- The copy of an observed stream to the decoder's own memory. -/
theorem runSteps_copyStream (hagenda : s.agenda = .host (.nameInput j none) :: .host (.copyStream k j) :: rest)
    (he : s.encs[k]? = some e) (hdone : e.phase = .done) (hobs : e.observed = true)
    (haddr : s.cfg.addressable 0 e.outLen) (hd : s.decs[j]? = some d) (hidle : d.phase ≠ .busy) :
    ∃ u d', runSteps 2 s = .next u ∧ u.agenda = rest ∧ u.cfg = s.cfg ∧ u.Offers j d' e.output e.outLen := by
  have hname := (step_host (State.nextMove_of_agenda hagenda)).trans
    (hostNameInput_own (s := { s with agenda := s.agenda.tail }) hd hidle)
  have hagenda' : s.agenda.tail = .host (.copyStream k j) :: rest := congrArg List.tail hagenda
  have hown := State.setDec_get hd { d with inputFrom := none }
  have hcopy := (step_copyStream
    (s := State.setDec { s with agenda := s.agenda.tail } j { d with inputFrom := none })
    (State.nextMove_of_agenda hagenda') he hdone hobs haddr).trans
      (hostWriteDecIn_own (s := State.setDec { s with agenda := s.agenda.tail.tail } j { d with inputFrom := none })
        hown hidle rfl)
  rw [(hostStore_free _ _ _ _).1 (by simpa using haddr)] at hcopy
  exact ⟨_, _, (runSteps_succ hname).trans (runSteps_succ hcopy), congrArg List.tail hagenda', rfl,
    State.setDec_get hown _, hidle, rfl, fun a ha => Memory.read_writeBytes_readBytes _ _ ha⟩

/-- The naming of an observed stream's memory. -/
theorem runSteps_nameInput (hagenda : s.agenda = .host (.nameInput j (some k)) :: rest) (he : s.encs[k]? = some e)
    (hdone : e.phase = .done) (hobs : e.observed = true) (hd : s.decs[j]? = some d) (hidle : d.phase ≠ .busy) :
    ∃ u d', runSteps 1 s = .next u ∧ u.agenda = rest ∧ u.cfg = s.cfg ∧ u.Offers j d' e.output e.outLen := by
  have hname := (step_host (State.nextMove_of_agenda hagenda)).trans
    (hostNameInput_observed (s := { s with agenda := s.agenda.tail }) hd hidle he hdone hobs)
  exact ⟨_, _, runSteps_succ hname, congrArg List.tail hagenda, rfl, State.setDec_get hd _, hidle,
    (State.streamReady_named (d := { d with inputFrom := some k }) rfl he).2 ⟨hdone, hobs⟩,
    fun a _ => congrArg (·.read a) (State.decInput_named (d := { d with inputFrom := some k }) rfl he)⟩

/-- Either way of R86 offers the decoder the stream. -/
theorem runSteps_handOver {handOver : List HostAction} (hagenda : s.agenda = handOver.map .host ++ rest)
    (hway : handOver = [.nameInput j none, .copyStream k j] ∨ handOver = [.nameInput j (some k)])
    (he : s.encs[k]? = some e) (hdone : e.phase = .done) (hobs : e.observed = true)
    (haddr : s.cfg.addressable 0 e.outLen) (hd : s.decs[j]? = some d) (hidle : d.phase ≠ .busy) :
    ∃ u d', runSteps handOver.length s = .next u ∧ u.agenda = rest ∧ u.cfg = s.cfg ∧
      u.Offers j d' e.output e.outLen := by
  obtain rfl | rfl := hway
  · exact runSteps_copyStream hagenda he hdone hobs haddr hd hidle
  · exact runSteps_nameInput hagenda he hdone hobs hd hidle

/-- The write of DEC_IN_LEN and START begin a decode of the stream that was offered (10_state.md R54, R56). -/
theorem runSteps_startDecode {stream : Memory} {len : Nat}
    (hagenda : s.agenda = .host (.writeDecReg j 2 len) :: .host (.writeDecReg j 0 1) :: rest)
    (h : s.Offers j d stream len) :
    ∃ u d', runSteps 2 s = .next u ∧ u.agenda = rest ∧ u.cfg = s.cfg ∧ u.Begins j d' stream len := by
  obtain ⟨hd, hidle, hready, hreads⟩ := h
  have hlength := step_writeDecReg (State.nextMove_of_agenda hagenda) hd
    (by rw [startsOperation_of_ne (by decide), Bool.false_and])
  have hagenda' : s.agenda.tail = .host (.writeDecReg j 0 1) :: rest := congrArg List.tail hagenda
  have hd' := State.setDec_get hd (d.writeReg s.cfg 2 len)
  have hready' : State.streamReady (State.setDec { s with agenda := s.agenda.tail } j (d.writeReg s.cfg 2 len))
      (d.writeReg s.cfg 2 len) = true := hready
  have hstart := step_writeDecReg
    (s := State.setDec { s with agenda := s.agenda.tail } j (d.writeReg s.cfg 2 len))
    (State.nextMove_of_agenda hagenda') hd' (by rw [hready', Bool.not_true, Bool.and_false])
  rw [Decoder.writeReg_start (by decide) (by exact hidle)] at hstart
  exact ⟨_, _, (runSteps_succ hlength).trans (runSteps_succ hstart), congrArg List.tail hagenda', rfl,
    State.setDec_get hd' _, rfl, rfl, rfl, hreads⟩

/-- The observation of DONE, either way of R86, and START, one after the other. -/
theorem runSteps_beginDecode {handOver : List HostAction}
    (hagenda : s.agenda = .host (.readEncReg k 1) :: handOver.map .host ++
      [.host (.writeDecReg j 2 e.outLen), .host (.writeDecReg j 0 1)] ++ rest)
    (hway : handOver = [.nameInput j none, .copyStream k j] ∨ handOver = [.nameInput j (some k)])
    (he : s.encs[k]? = some e) (hdone : e.phase = .done) (haddr : s.cfg.addressable 0 e.outLen)
    (hd : s.decs[j]? = some d) (hidle : d.phase ≠ .busy) :
    ∃ u d', runSteps (1 + (handOver.length + 2)) s = .next u ∧ u.agenda = rest ∧ u.cfg = s.cfg ∧
      u.Begins j d' e.output e.outLen := by
  rw [List.append_assoc, List.cons_append] at hagenda
  obtain ⟨s1, hrun1, hagenda1, hcfg1, hdecs1, he1⟩ := runSteps_observeDone hagenda he hdone
  obtain ⟨s2, d2, hrun2, hagenda2, hcfg2, hoffers⟩ := runSteps_handOver hagenda1 hway he1 hdone rfl
    (by rw [hcfg1]; exact haddr) (by rw [hdecs1]; exact hd) hidle
  obtain ⟨s3, d3, hrun3, hagenda3, hcfg3, hbegins⟩ := runSteps_startDecode hagenda2 hoffers
  exact ⟨s3, d3, by rw [runSteps_add _ hrun1, runSteps_add _ hrun2, hrun3], hagenda3,
    hcfg3.trans (hcfg2.trans hcfg1), hbegins⟩

end HandOver

/-- Settles O59: the encode ends in DONE with the stream's length published, the host's moves begin a decode of that
stream, and the decode restores what was encoded. -/
theorem roundTrip : Obligations.RoundTrip := by
  intro s k j e d handOver he hb hs hlegal hfits hd hidle hway
  have hrun1 := runSteps_enc (e.w.toNat * e.h.toNat + 2) [] he
  rw [List.append_nil] at hrun1
  obtain ⟨hdone, hlen, hbound⟩ := Encoder.iterate_done hb hs hlegal
  have hfitsLen := Config.fits_of_le hfits hbound
  rw [lengthRegister_of_fits hfitsLen] at hlen
  obtain ⟨u, d1, hrun2, hagenda, hcfg, hd1, hbusy, hinit, hinLen, hreads⟩ := runSteps_beginDecode
    (s := { s with
      agenda := .host (.readEncReg k 1) :: handOver.map .host ++
        [.host (.writeDecReg j 2 ((Encoder.step s.cfg)^[e.w.toNat * e.h.toNat + 2] e).outLen),
          .host (.writeDecReg j 0 1)] ++ List.replicate (e.w.toNat * e.h.toNat + 2) (.dec j)
      encs := s.encs.set k ((Encoder.step s.cfg)^[e.w.toNat * e.h.toNat + 2] e) })
    rfl hway (State.setEnc_get he _) hdone (by rw [hlen]; exact Config.addressable_of_fits hfitsLen) hd hidle
  rw [hcfg, hlen, lengthRegister_of_fits hfitsLen] at hinLen
  obtain ⟨t2, hrun3, hget⟩ := runSteps_dec_get (e.w.toNat * e.h.toNat + 2) hd1
  rw [← hagenda] at hrun3
  rw [hcfg] at hget
  obtain ⟨hphase, hw, hh, hch, hcs, houtLen, hconsumed, hout⟩ := decode_restores hb hs hlegal hbusy hinit hinLen
    (m := u.decStream d1) fun a ha => hreads a (by rw [hlen, ← hinLen]; exact ha)
  have hsize : e.inLen ≤ streamBound s.cfg (e.w.toNat * e.h.toNat) e.ch.toNat := by
    obtain ⟨-, -, -, -, -, hsize⟩ := hlegal
    rw [hsize, streamBound, Nat.mul_add_one]
    omega
  rw [lengthRegister_of_fits (Config.fits_of_le hfits hsize)] at houtLen
  rw [hinLen, lengthRegister_of_fits hfitsLen, ← hlen] at hconsumed
  have hcount : e.w.toNat * e.h.toNat + 5 + handOver.length =
      1 + (handOver.length + 2) + (e.w.toNat * e.h.toNat + 2) := by omega
  refine ⟨_, _, t2, _, hrun1, State.setEnc_get he _, hdone, ?_, hget, hphase, hw, hh, hch, hcs, houtLen, hconsumed,
    hout⟩
  rw [hcount]
  exact (runSteps_add _ hrun2).trans hrun3

end Sys2Proof.Machine
end

section
/-! PROOFS. The canonical form of the byte buffers (notes/assumptions/3.md): no step changes a buffer but by storing bytes
in it, and a store keeps the form. The cases of a host move are used themselves, because the events of an engine do
not say what a store wrote. -/

namespace Sys2Proof.Machine

/-- `State.memoryInv` for one encoder. -/
def Encoder.memoryOk (e : Encoder) : Prop := e.input.wf = true ∧ e.output.wf = true

/-- `State.memoryInv` for one decoder. -/
def Decoder.memoryOk (d : Decoder) : Prop := d.input.wf = true ∧ d.output.wf = true

/-! ### What a step of an engine stores -/

/-- A pixel step stores bytes at e.opos in ENC_OUT, perhaps none (41_encoder.md R164). -/
theorem Encoder.pixelStep_output (c : Config) (e : Encoder) :
    ∃ bytes, (e.pixelStep c).output = e.output.writeBytes e.opos bytes := by
  by_cases hpx : e.readPixel e.pix = e.prev
  · by_cases hrun : e.run + 1 = 62
    · exact ⟨_, by rw [Encoder.pixelStep_fullRun hpx hrun]; rfl⟩
    · exact ⟨[], by rw [Encoder.pixelStep_repeat hpx hrun]; rfl⟩
  · exact ⟨_, by rw [Encoder.pixelStep_change hpx]; rfl⟩

/-- FINAL stores the open run's chunk and the end marker at e.opos in ENC_OUT (41_encoder.md R174). -/
theorem Encoder.finalStep_output (c : Config) (e : Encoder) :
    (e.finalStep c).output = e.output.writeBytes e.opos (e.openRun ++ endMarker) := by
  simp only [Encoder.finalStep, Encoder.runFlush_eq, Encoder.emit_output, Encoder.emit_opos, Memory.writeBytes_append]

/-- A step of an encoder changes ENC_OUT by storing bytes in it alone. -/
theorem Encoder.step_output (c : Config) (e : Encoder) :
    ∃ addr bytes, (e.step c).output = e.output.writeBytes addr bytes := by
  obtain ⟨-, hstep⟩ | ⟨-, -, hstep⟩ | ⟨-, hstep⟩ | ⟨-, -, -, hstep⟩ := e.step_cases c <;> rw [hstep]
  · exact ⟨0, [], rfl⟩
  · obtain ⟨-, n, hinit⟩ | ⟨-, hinit⟩ := e.initStep_cases c <;> rw [hinit]
    · exact ⟨0, [], rfl⟩
    · exact ⟨0, _, rfl⟩
  · exact ⟨_, e.pixelStep_output c⟩
  · exact ⟨_, _, e.finalStep_output c⟩

/-- A step of a decoder changes DEC_OUT by storing bytes in it alone: only PixelCommit does (42_decoder.md R214). -/
theorem Decoder.step_output (c : Config) (m : Memory) (d : Decoder) :
    ∃ addr bytes, (d.step c m).output = d.output.writeBytes addr bytes := by
  obtain ⟨-, hstep⟩ | ⟨-, -, hstep⟩ | ⟨-, -, hstep⟩ | ⟨-, -, -, hstep⟩ | ⟨i, len, -, -, -, hstep⟩ |
    ⟨-, -, -, hstep⟩ := d.step_cases c m <;> rw [hstep]
  · exact ⟨0, [], rfl⟩
  · obtain ⟨-, w, ht, ch, cs, n, hinit⟩ | ⟨-, hinit⟩ := d.initStep_cases c m <;> rw [hinit] <;> exact ⟨0, [], rfl⟩
  · exact ⟨_, _, Decoder.commit_output _ _⟩
  · exact ⟨0, [], rfl⟩
  · rw [Decoder.execChunk_eq]
    exact ⟨_, _, Decoder.commit_output _ _⟩
  · obtain ⟨pos, code, -, hfinal⟩ | ⟨-, -, hfinal⟩ := d.finalStep_cases c m <;> rw [hfinal] <;> exact ⟨0, [], rfl⟩

/-! ### What keeps an engine's buffers canonical -/

theorem Encoder.memoryOk.step {e : Encoder} (h : e.memoryOk) (c : Config) : (e.step c).memoryOk := by
  obtain ⟨hinput, houtput⟩ := h
  obtain ⟨hframe, -, -⟩ := e.step_frame c
  obtain ⟨addr, bytes, hstored⟩ := e.step_output c
  exact ⟨hframe ▸ hinput, hstored ▸ Memory.wf_writeBytes houtput addr bytes⟩

theorem Decoder.memoryOk.step {d : Decoder} (h : d.memoryOk) (c : Config) (m : Memory) : (d.step c m).memoryOk := by
  obtain ⟨hinput, houtput⟩ := h
  obtain ⟨hframe, -, -⟩ := d.step_frame c m
  obtain ⟨addr, bytes, hstored⟩ := d.step_output c m
  exact ⟨hframe.input ▸ hinput, hstored ▸ Memory.wf_writeBytes houtput addr bytes⟩

/-- No register write changes a buffer (10_state.md R48, R49). -/
theorem Encoder.memoryOk.writeReg {e : Encoder} (h : e.memoryOk) (c : Config) (reg value : Nat) :
    (e.writeReg c reg value).memoryOk := by
  obtain ⟨-, -, hidle, hw⟩ | ⟨w, ht, ch, cs, len, hw⟩ := e.writeReg_cases c reg value <;> rw [hw]
  · rw [Encoder.start_not_busy hidle]
    exact h
  · exact h

/-- No register write changes a buffer (10_state.md R53, R54). -/
theorem Decoder.memoryOk.writeReg {d : Decoder} (h : d.memoryOk) (c : Config) (reg value : Nat) :
    (d.writeReg c reg value).memoryOk := by
  obtain ⟨-, -, hidle, hw⟩ | ⟨len, hw⟩ := d.writeReg_cases c reg value <;> rw [hw]
  · rw [Decoder.start_not_busy hidle]
    exact h
  · exact h

/-- No register read changes a buffer (20_memory.md R82). -/
theorem Encoder.memoryOk.read {e : Encoder} (h : e.memoryOk) (reg : Nat) :
    (if reg = 1 then e.observe else e).memoryOk := by
  rw [Encoder.observe_eq]
  split <;> exact h

/-- No register read changes a buffer (20_memory.md R82). -/
theorem Decoder.memoryOk.read {d : Decoder} (h : d.memoryOk) (reg : Nat) :
    (if reg = 1 then d.observe else d).memoryOk := by
  rw [Decoder.observe_eq]
  split <;> exact h

/-! ### What keeps every buffer canonical -/

section System
variable {s t : State} {k : Nat}

theorem State.memoryInv.of_encs_set {old new : Encoder} (h : s.memoryInv) (hold : s.encs[k]? = some old)
    (hencs : t.encs = s.encs.set k new) (hdecs : t.decs = s.decs) (keeps : old.memoryOk → new.memoryOk) :
    t.memoryInv := by
  refine ⟨fun e he => ?_, hdecs ▸ h.2⟩
  rw [hencs] at he
  obtain hmem | rfl := List.mem_or_eq_of_mem_set he
  · exact h.1 e hmem
  · exact keeps (h.1 old (List.mem_of_getElem? hold))

theorem State.memoryInv.of_decs_set {old new : Decoder} (h : s.memoryInv) (hold : s.decs[k]? = some old)
    (hencs : t.encs = s.encs) (hdecs : t.decs = s.decs.set k new) (keeps : old.memoryOk → new.memoryOk) :
    t.memoryInv := by
  refine ⟨hencs ▸ h.1, fun d hd => ?_⟩
  rw [hdecs] at hd
  obtain hmem | rfl := List.mem_or_eq_of_mem_set hd
  · exact h.2 d hmem
  · exact keeps (h.2 old (List.mem_of_getElem? hold))

/-- RESET keeps every buffer (notes/assumptions/12.md). -/
theorem State.memoryInv.assertReset (h : s.memoryInv) : s.assertReset.memoryInv :=
  ⟨List.forall_mem_map.2 h.1, List.forall_mem_map.2 h.2⟩

/-- Opening streams changes no buffer. -/
theorem State.memoryInv.openStreams (h : s.memoryInv) (j : Nat) : (s.openStreams j).memoryInv := by
  refine ⟨h.1, fun d' hd' => ?_⟩
  obtain ⟨i, hi⟩ := List.mem_iff_getElem?.1 hd'
  rw [State.openStreams_get] at hi
  obtain ⟨d, hd, rfl⟩ := Option.map_eq_some_iff.1 hi
  have hok := h.2 d (List.mem_of_getElem? hd)
  split <;> exact hok

/-- No host move changes a buffer but by storing bytes in it (10_state.md R30; 20_memory.md R71, R86). -/
theorem HostEffect.memoryInv {a : HostAction} (heffect : HostEffect s a t) (h : s.memoryInv) : t.memoryInv := by
  cases heffect with
  | reset => exact h.assertReset
  | readBuffer => exact h
  | writeEncReg hold => exact h.of_encs_set hold rfl rfl fun hok => hok.writeReg _ _ _
  | startShared hold =>
    refine State.memoryInv.openStreams ?_ _
    exact h.of_encs_set hold rfl rfl fun hok => hok.writeReg _ _ _
  | readEncReg _ _ hold => exact h.of_encs_set hold rfl rfl fun hok => hok.read _
  | storeEncIn _ hold => exact h.of_encs_set hold rfl rfl fun hok => ⟨Memory.wf_writeBytes hok.1 _ _, hok.2⟩
  | storeEncOut _ hold => exact h.of_encs_set hold rfl rfl fun hok => ⟨hok.1, Memory.wf_writeBytes hok.2 _ _⟩
  | startOpen hold | writeDecReg hold => exact h.of_decs_set hold rfl rfl fun hok => hok.writeReg _ _ _
  | readDecReg _ _ hold => exact h.of_decs_set hold rfl rfl fun hok => hok.read _
  | storeDecIn _ hold => exact h.of_decs_set hold rfl rfl fun hok => ⟨Memory.wf_writeBytes hok.1 _ _, hok.2⟩
  | storeDecOut _ hold => exact h.of_decs_set hold rfl rfl fun hok => ⟨hok.1, Memory.wf_writeBytes hok.2 _ _⟩
  | nameInput hold => exact h.of_decs_set hold rfl rfl id

end System

/-- Settles O43: engines and host change buffers by stores alone, and a store keeps the canonical form. -/
theorem stepKeepsMemoryCanonical : Obligations.StepKeepsMemoryCanonical := by
  intro s t h hstep
  obtain ⟨-, rfl⟩ | ⟨k, e, -, he, rfl⟩ | ⟨k, d, -, hd, rfl⟩ | ⟨a, -, hrun⟩ := step_cases hstep
  · exact h
  · exact h.of_encs_set he rfl rfl fun hok => hok.step _
  · exact h.of_decs_set hd rfl rfl fun hok => hok.step _ _
  · exact (runHost_next hrun).memoryInv h

end Sys2Proof.Machine
end

section
/-! PROOFS. A chunk with no decoder to run it (60_exceptions.md R268; notes/assumptions/13.md). -/

namespace Sys2Proof.Machine

/-- Settles O11: exec runs a chunk on the current decoder or, where there is none, is the refusal. -/
theorem chunkNeedsADecoder : Obligations.ChunkNeedsADecoder := by
  intro i s hnone
  obtain ⟨d, hd, -⟩ | ⟨-, hrefused⟩ := exec_cases i s
  · cases hnone.symm.trans hd
  · exact hrefused

end Sys2Proof.Machine
end
